-- ==== Sys2Proof/Word.lean ====
section
/-! DEFINITION. The word types of the uPD17120 subseries. The machine has no bytes (20_memory.md R130): data memory
and the register file hold 4-bit nibbles, program memory holds 16-bit words, and a memory is a sparse list of
(address, unit) pairs in the unit of its own address space. -/

namespace Sys2Proof

/-- The 4-bit unit of data memory and of the register file (20_memory.md R130). -/
abbrev Nibble := BitVec 4

/-- One 16-bit word of program memory, which holds one instruction (30_encoding.md R140). -/
abbrev ProgWord := BitVec 16

/-- A 7-bit address of data memory, of the register file or of a peripheral register (20_memory.md R100). -/
abbrev DmAddr := BitVec 7

/-- A 10-bit program memory address (20_memory.md R100). -/
abbrev RomAddr := BitVec 10

/-- A sparse memory of `w`-bit units: (address, unit) pairs, addresses strictly rising, no unit equal to what an
unlisted address reads as. -/
abbrev Cells (w : Nat) := List (Nat × BitVec w)

end Sys2Proof
end

