-- ==== Sys2Proof/Syntax.lean ====
section
/-! DEFINITION. The 47 instruction forms (30_encoding.md R143, R144), one constructor per row of
spec/opcode_table.json, in the table's order. Operands are the fields of 30_encoding.md R142: `m` a data memory
address, `r` a general register column, `n4`/`n` an immediate, `rf` a register file address, `p` a peripheral
address, `addr` a program memory address field, `s`/`h` a release condition. -/

namespace Sys2Proof

/-- An instruction of the machine. -/
inductive Instr where
  /-- `ADD r, m` (40_add.md R204). -/
  | addRM (r : BitVec 4) (m : BitVec 7)
  /-- `ADD m, #n4` (40_add.md R205). -/
  | addMI (m : BitVec 7) (n4 : BitVec 4)
  /-- `ADDC r, m` (40_add.md R206). -/
  | addcRM (r : BitVec 4) (m : BitVec 7)
  /-- `ADDC m, #n4` (40_add.md R207). -/
  | addcMI (m : BitVec 7) (n4 : BitVec 4)
  /-- `INC AR` (40_add.md R208). -/
  | incAR
  /-- `INC IX` (40_add.md R243). -/
  | incIX
  /-- `SUB r, m` (41_subtract.md R216). -/
  | subRM (r : BitVec 4) (m : BitVec 7)
  /-- `SUB m, #n4` (41_subtract.md R217). -/
  | subMI (m : BitVec 7) (n4 : BitVec 4)
  /-- `SUBC r, m` (41_subtract.md R218). -/
  | subcRM (r : BitVec 4) (m : BitVec 7)
  /-- `SUBC m, #n4` (41_subtract.md R219). -/
  | subcMI (m : BitVec 7) (n4 : BitVec 4)
  /-- `OR r, m` (42_logic.md R226). -/
  | orRM (r : BitVec 4) (m : BitVec 7)
  /-- `OR m, #n4` (42_logic.md R227). -/
  | orMI (m : BitVec 7) (n4 : BitVec 4)
  /-- `AND r, m` (42_logic.md R228). -/
  | andRM (r : BitVec 4) (m : BitVec 7)
  /-- `AND m, #n4` (42_logic.md R229). -/
  | andMI (m : BitVec 7) (n4 : BitVec 4)
  /-- `XOR r, m` (42_logic.md R230). -/
  | xorRM (r : BitVec 4) (m : BitVec 7)
  /-- `XOR m, #n4` (42_logic.md R231). -/
  | xorMI (m : BitVec 7) (n4 : BitVec 4)
  /-- `SKT m, #n` (43_test_compare.md R234). -/
  | skt (m : BitVec 7) (n : BitVec 4)
  /-- `SKF m, #n` (43_test_compare.md R245). -/
  | skf (m : BitVec 7) (n : BitVec 4)
  /-- `SKE m, #n4` (43_test_compare.md R246). -/
  | ske (m : BitVec 7) (n4 : BitVec 4)
  /-- `SKNE m, #n4` (43_test_compare.md R247). -/
  | skne (m : BitVec 7) (n4 : BitVec 4)
  /-- `SKGE m, #n4` (43_test_compare.md R248). -/
  | skge (m : BitVec 7) (n4 : BitVec 4)
  /-- `SKLT m, #n4` (43_test_compare.md R249). -/
  | sklt (m : BitVec 7) (n4 : BitVec 4)
  /-- `RORC r` (44_rotate.md R240). -/
  | rorc (r : BitVec 4)
  /-- `LD r, m` (45_transfer.md R250). -/
  | ld (r : BitVec 4) (m : BitVec 7)
  /-- `ST m, r` (45_transfer.md R251). -/
  | st (m : BitVec 7) (r : BitVec 4)
  /-- `MOV @r, m` (45_transfer.md R252). -/
  | movToInd (r : BitVec 4) (m : BitVec 7)
  /-- `MOV m, @r` (45_transfer.md R253). -/
  | movFromInd (m : BitVec 7) (r : BitVec 4)
  /-- `MOV m, #n4` (45_transfer.md R254). -/
  | movMI (m : BitVec 7) (n4 : BitVec 4)
  /-- `MOVT DBF, @AR` (45_transfer.md R258). -/
  | movt
  /-- `PUSH AR` (45_transfer.md R259). -/
  | pushAR
  /-- `POP AR` (45_transfer.md R264). -/
  | popAR
  /-- `PEEK WR, rf` (45_transfer.md R255). -/
  | peek (rf : BitVec 7)
  /-- `POKE rf, WR` (45_transfer.md R263). -/
  | poke (rf : BitVec 7)
  /-- `GET DBF, p` (45_transfer.md R256). -/
  | get (p : BitVec 7)
  /-- `PUT p, DBF` (45_transfer.md R257). -/
  | put (p : BitVec 7)
  /-- `BR addr` (46_branch_subroutine.md R270); bit 10 of the field is 0 in every legal word (30_encoding.md R147). -/
  | br (addr : BitVec 11)
  /-- `BR @AR` (46_branch_subroutine.md R271). -/
  | brAR
  /-- `CALL addr` (46_branch_subroutine.md R272); bit 10 of the field is 0 in every legal word (30_encoding.md R147). -/
  | call (addr : BitVec 11)
  /-- `CALL @AR` (46_branch_subroutine.md R273). -/
  | callAR
  /-- `RET` (46_branch_subroutine.md R274). -/
  | ret
  /-- `RETSK` (46_branch_subroutine.md R275). -/
  | retsk
  /-- `RETI` (46_branch_subroutine.md R276). -/
  | reti
  /-- `EI` (47_interrupt_other.md R285). -/
  | ei
  /-- `DI` (47_interrupt_other.md R286). -/
  | di
  /-- `STOP s` (47_interrupt_other.md R287). -/
  | stop (s : BitVec 4)
  /-- `HALT h` (47_interrupt_other.md R288). -/
  | halt (h : BitVec 4)
  /-- `NOP` (47_interrupt_other.md R289). -/
  | nop
deriving DecidableEq, Repr

end Sys2Proof
end

