-- ==== Sys2Proof/WellFormed.lean ====
section
/-! DEFINITION. Which instruction terms the encoding admits. Every operand type has exactly the width of its field, so
the one check left is bit 10 of the address field of `BR addr` and `CALL addr`, which is fixed at 0
(30_encoding.md R147). -/

namespace Sys2Proof

/-- Has the instruction a word of its own (30_encoding.md R142, R147). -/
def Instr.wellFormed (i : Instr) : Bool :=
  match i with
  | .addRM _ _ => true
  | .addMI _ _ => true
  | .addcRM _ _ => true
  | .addcMI _ _ => true
  | .incAR => true
  | .incIX => true
  | .subRM _ _ => true
  | .subMI _ _ => true
  | .subcRM _ _ => true
  | .subcMI _ _ => true
  | .orRM _ _ => true
  | .orMI _ _ => true
  | .andRM _ _ => true
  | .andMI _ _ => true
  | .xorRM _ _ => true
  | .xorMI _ _ => true
  | .skt _ _ => true
  | .skf _ _ => true
  | .ske _ _ => true
  | .skne _ _ => true
  | .skge _ _ => true
  | .sklt _ _ => true
  | .rorc _ => true
  | .ld _ _ => true
  | .st _ _ => true
  | .movToInd _ _ => true
  | .movFromInd _ _ => true
  | .movMI _ _ => true
  | .movt => true
  | .pushAR => true
  | .popAR => true
  | .peek _ => true
  | .poke _ => true
  | .get _ => true
  | .put _ => true
  | .br addr => !addr.getLsbD 10
  | .brAR => true
  | .call addr => !addr.getLsbD 10
  | .callAR => true
  | .ret => true
  | .retsk => true
  | .reti => true
  | .ei => true
  | .di => true
  | .stop _ => true
  | .halt _ => true
  | .nop => true

end Sys2Proof
end

