-- ==== Sys2Proof/Decode.lean ====
section
/-! DEFINITION. Decoding and encoding of the 16-bit instruction word (30_encoding.md R142 to R147). Decoding is total:
a word that is no instruction (R146) is rejected by a name that says which part of it is unassigned. -/

namespace Sys2Proof

/-- Why a word is no instruction, by the numbering of 30_encoding.md R146. -/
inductive DecodeError where
  /-- R146 item 1: the operation code is 01101, 01110, 01111 or 10111. -/
  | unassignedOp (op : BitVec 5)
  /-- R146 item 2: group 00111 with `sub` = 0000 or 0110. -/
  | unassignedSub (sub : BitVec 4)
  /-- R146 item 3: group 00111, assigned `sub`, a `g3` that is not in R144. -/
  | unassignedG3 (sub : BitVec 4) (g3 : BitVec 3)
  /-- R146 item 4: an instruction without operand whose `g4` is not 0000. -/
  | operandNotZero (sub : BitVec 4) (g3 : BitVec 3) (g4 : BitVec 4)
  /-- R146 item 5, R147: `BR addr` or `CALL addr` with bit 10 set. -/
  | addressBit10 (op : BitVec 5) (addr : BitVec 11)
deriving DecidableEq, Repr

/-! ### The fields of a word (R142) -/

/-- Bits 15-11, the operation code. -/
def opField (w : ProgWord) : BitVec 5 := w.extractLsb' 11 5

/-- Bits 10-4, the data memory address. -/
def mField (w : ProgWord) : BitVec 7 := w.extractLsb' 4 7

/-- Bits 3-0: `r`, `n4`, `n`, `s`, `h` or `g4`. -/
def lowField (w : ProgWord) : BitVec 4 := w.extractLsb' 0 4

/-- Bits 10-0, the program memory address field. -/
def addrField (w : ProgWord) : BitVec 11 := w.extractLsb' 0 11

/-- Bits 10-8 of a word of group 00111. -/
def g3Field (w : ProgWord) : BitVec 3 := w.extractLsb' 8 3

/-- Bits 7-4 of a word of group 00111, the sub-operation code. -/
def subField (w : ProgWord) : BitVec 4 := w.extractLsb' 4 4

/-- The split fields `rf` and `p`: bits 10-8, then bits 3-0. -/
def splitField (w : ProgWord) : BitVec 7 := g3Field w ++ lowField w

/-! ### Decoding -/

/-- A word of group 00111 whose `g3` must be 000 and whose `g4` must be 0000 (R144). -/
def decodePlain (w : ProgWord) (i : Instr) : Except DecodeError Instr :=
  if g3Field w ≠ 0 then .error (.unassignedG3 (subField w) (g3Field w))
  else if lowField w ≠ 0 then .error (.operandNotZero (subField w) (g3Field w) (lowField w))
  else .ok i

/-- A word of group 00111 whose `g4` must be 0000, its `sub` and `g3` being assigned (R144). -/
def decodeNoOperand (w : ProgWord) (i : Instr) : Except DecodeError Instr :=
  if lowField w ≠ 0 then .error (.operandNotZero (subField w) (g3Field w) (lowField w)) else .ok i

/-- The return instructions, `sub` = 1110 (R144). -/
def decodeReturn (w : ProgWord) : Except DecodeError Instr :=
  match (g3Field w).toNat with
  | 0 => decodeNoOperand w .ret
  | 1 => decodeNoOperand w .retsk
  | 4 => decodeNoOperand w .reti
  | _ => .error (.unassignedG3 (subField w) (g3Field w))

/-- The control instructions, `sub` = 1111 (R144). -/
def decodeControl (w : ProgWord) : Except DecodeError Instr :=
  match (g3Field w).toNat with
  | 0 => decodeNoOperand w .ei
  | 1 => decodeNoOperand w .di
  | 2 => .ok (.stop (lowField w))
  | 3 => .ok (.halt (lowField w))
  | 4 => decodeNoOperand w .nop
  | _ => .error (.unassignedG3 (subField w) (g3Field w))

/-- The second level of the opcode map: group `op` = 00111 (R144). -/
def decodeGroup (w : ProgWord) : Except DecodeError Instr :=
  match (subField w).toNat with
  | 1 => decodePlain w .movt
  | 2 => .ok (.poke (splitField w))
  | 3 => .ok (.peek (splitField w))
  | 4 => decodePlain w .brAR
  | 5 => decodePlain w .callAR
  | 7 => if g3Field w ≠ 0 then .error (.unassignedG3 (subField w) (g3Field w)) else .ok (.rorc (lowField w))
  | 8 => decodePlain w .incIX
  | 9 => decodePlain w .incAR
  | 10 => .ok (.put (splitField w))
  | 11 => .ok (.get (splitField w))
  | 12 => decodePlain w .popAR
  | 13 => decodePlain w .pushAR
  | 14 => decodeReturn w
  | 15 => decodeControl w
  | _ => .error (.unassignedSub (subField w))

/-- A word of format `A`: bit 10 must be 0 (R147). -/
def decodeAddress (w : ProgWord) (i : Instr) : Except DecodeError Instr :=
  if (addrField w).getLsbD 10 then .error (.addressBit10 (opField w) (addrField w)) else .ok i

/-- The first level of the opcode map (R143). -/
def decode (w : ProgWord) : Except DecodeError Instr :=
  match (opField w).toNat with
  | 0 => .ok (.addRM (lowField w) (mField w))
  | 1 => .ok (.subRM (lowField w) (mField w))
  | 2 => .ok (.addcRM (lowField w) (mField w))
  | 3 => .ok (.subcRM (lowField w) (mField w))
  | 4 => .ok (.andRM (lowField w) (mField w))
  | 5 => .ok (.xorRM (lowField w) (mField w))
  | 6 => .ok (.orRM (lowField w) (mField w))
  | 7 => decodeGroup w
  | 8 => .ok (.ld (lowField w) (mField w))
  | 9 => .ok (.ske (mField w) (lowField w))
  | 10 => .ok (.movToInd (lowField w) (mField w))
  | 11 => .ok (.skne (mField w) (lowField w))
  | 12 => decodeAddress w (.br (addrField w))
  | 16 => .ok (.addMI (mField w) (lowField w))
  | 17 => .ok (.subMI (mField w) (lowField w))
  | 18 => .ok (.addcMI (mField w) (lowField w))
  | 19 => .ok (.subcMI (mField w) (lowField w))
  | 20 => .ok (.andMI (mField w) (lowField w))
  | 21 => .ok (.xorMI (mField w) (lowField w))
  | 22 => .ok (.orMI (mField w) (lowField w))
  | 24 => .ok (.st (mField w) (lowField w))
  | 25 => .ok (.skge (mField w) (lowField w))
  | 26 => .ok (.movFromInd (mField w) (lowField w))
  | 27 => .ok (.sklt (mField w) (lowField w))
  | 28 => decodeAddress w (.call (addrField w))
  | 29 => .ok (.movMI (mField w) (lowField w))
  | 30 => .ok (.skt (mField w) (lowField w))
  | 31 => .ok (.skf (mField w) (lowField w))
  | _ => .error (.unassignedOp (opField w))

/-! ### Encoding -/

/-- A word of format `RM` or `MI`: operation code, data memory address, low field (R142). -/
def encodeM (op : BitVec 5) (m : BitVec 7) (low : BitVec 4) : ProgWord := op ++ m ++ low

/-- A word of format `A` (R142). -/
def encodeA (op : BitVec 5) (addr : BitVec 11) : ProgWord := op ++ addr

/-- A word of group 00111 (R142, R144). -/
def encodeG (g3 : BitVec 3) (sub g4 : BitVec 4) : ProgWord := 0b00111#5 ++ g3 ++ sub ++ g4

/-- A word of group 00111 with a split address field (R142, R144). -/
def encodeSplit (sub : BitVec 4) (a : BitVec 7) : ProgWord := encodeG (a.extractLsb' 4 3) sub (a.extractLsb' 0 4)

/-- The word of an instruction (R143 to R145). -/
def encode (i : Instr) : ProgWord :=
  match i with
  | .addRM r m => encodeM 0b00000 m r
  | .addMI m n4 => encodeM 0b10000 m n4
  | .addcRM r m => encodeM 0b00010 m r
  | .addcMI m n4 => encodeM 0b10010 m n4
  | .incAR => encodeG 0b000 0b1001 0b0000
  | .incIX => encodeG 0b000 0b1000 0b0000
  | .subRM r m => encodeM 0b00001 m r
  | .subMI m n4 => encodeM 0b10001 m n4
  | .subcRM r m => encodeM 0b00011 m r
  | .subcMI m n4 => encodeM 0b10011 m n4
  | .orRM r m => encodeM 0b00110 m r
  | .orMI m n4 => encodeM 0b10110 m n4
  | .andRM r m => encodeM 0b00100 m r
  | .andMI m n4 => encodeM 0b10100 m n4
  | .xorRM r m => encodeM 0b00101 m r
  | .xorMI m n4 => encodeM 0b10101 m n4
  | .skt m n => encodeM 0b11110 m n
  | .skf m n => encodeM 0b11111 m n
  | .ske m n4 => encodeM 0b01001 m n4
  | .skne m n4 => encodeM 0b01011 m n4
  | .skge m n4 => encodeM 0b11001 m n4
  | .sklt m n4 => encodeM 0b11011 m n4
  | .rorc r => encodeG 0b000 0b0111 r
  | .ld r m => encodeM 0b01000 m r
  | .st m r => encodeM 0b11000 m r
  | .movToInd r m => encodeM 0b01010 m r
  | .movFromInd m r => encodeM 0b11010 m r
  | .movMI m n4 => encodeM 0b11101 m n4
  | .movt => encodeG 0b000 0b0001 0b0000
  | .pushAR => encodeG 0b000 0b1101 0b0000
  | .popAR => encodeG 0b000 0b1100 0b0000
  | .peek rf => encodeSplit 0b0011 rf
  | .poke rf => encodeSplit 0b0010 rf
  | .get p => encodeSplit 0b1011 p
  | .put p => encodeSplit 0b1010 p
  | .br addr => encodeA 0b01100 addr
  | .brAR => encodeG 0b000 0b0100 0b0000
  | .call addr => encodeA 0b11100 addr
  | .callAR => encodeG 0b000 0b0101 0b0000
  | .ret => encodeG 0b000 0b1110 0b0000
  | .retsk => encodeG 0b001 0b1110 0b0000
  | .reti => encodeG 0b100 0b1110 0b0000
  | .ei => encodeG 0b000 0b1111 0b0000
  | .di => encodeG 0b001 0b1111 0b0000
  | .stop s => encodeG 0b010 0b1111 s
  | .halt h => encodeG 0b011 0b1111 h
  | .nop => encodeG 0b100 0b1111 0b0000

/-- The instruction read from an instruction whose bits are `w`, numbered as spec/opcode_table.json numbers them; an
instruction is one 16-bit word (R140), so a bit above `nbits` is 0 and no second word exists. -/
def decodeTableWord (nbits w : Nat) : Option Instr :=
  match decode (BitVec.ofNat 16 (w % 2 ^ nbits)) with
  | .ok i => some i
  | .error _ => none

end Sys2Proof
end

