-- ==== Sys2Proof/Config.lean ====
section
/-! DEFINITION. What is fixed for one chip (the part, the mask options) and the FREE VALUES: constants without a body
that stand for every value the manual leaves undefined or open (93_implementation_defined.md U1 to U13,
92_eei_decisions.md D16, D24). No proof can see what a free value is. -/

namespace Sys2Proof

/-- The six members of the subseries, the argument `PART` of a model (00_scope.md R4). -/
inductive Part where
  | u17120 | u17121 | u17132 | u17133 | u17P132 | u17P133
deriving DecidableEq, Repr

/-- The mask options (10_state.md R66): bit n of `pod` and `poe` says that the pin PODn, POEn has a pull-up resistor.
On the PROM parts no pull-up exists whatever this record says (00_scope.md R4). -/
structure MaskOptions where
  /-- Pull-up on the RESET pin (OPTRES). -/
  resetPin : Bool
  /-- Pull-ups on POD3 to POD0 (OPTPOD). -/
  pod : BitVec 4
  /-- Pull-ups on POE1, POE0 (OPTPOE). -/
  poe : BitVec 2
deriving DecidableEq, Repr

/-- Which of an instruction's data memory reads a free value is for, so that two reads of one undefined nibble by one
instruction need not agree. -/
inductive ReadSlot where
  | first | second | pointer
deriving DecidableEq, Repr

/-- The places at which a free value arises. Each names the undefined value of 93_implementation_defined.md it is for. -/
inductive FreeSite where
  /-- U2: read of a data memory nibble the part does not implement. -/
  | unmapped (slot : ReadSlot)
  /-- U5: digital read of the port OC pins that carry an analog voltage. -/
  | analogPin (slot : ReadSlot)
  /-- U5: read of POD1 while it is the SO output. -/
  | soPin (slot : ReadSlot)
  /-- U5: latch of POD1 used as a port after the shifter has changed it. -/
  | soLatch
  /-- U2: read of an unused register file address. -/
  | unusedControl
  /-- U2: `GET` from the write-only TMM. -/
  | modulo
  /-- D6: `GET` from a peripheral address the manual does not describe. -/
  | unknownPeripheral
  /-- U3, U4: a data memory nibble after an event that leaves it undefined. -/
  | ram (addr : Nat)
  /-- U1: address stack register `i` after a reset. -/
  | stackLevel (i : Nat)
  /-- U1: the interrupt stack register after a reset. -/
  | flagStack
  /-- U3, U4: WR after an event that leaves it undefined. -/
  | window
  /-- U3, U4: SIOSFR after an event that leaves it undefined. -/
  | shifter
  /-- U4: the 18 port output latch bits after a stack overflow or underflow reset. -/
  | latches
  /-- U4: TMC after a stack overflow or underflow reset. -/
  | countAtStackReset
  /-- U6: phase of the prescaler after a reset that stopped the oscillator. -/
  | prescaler
  /-- U6: phase of the serial clock divider after a reset that stopped the oscillator. -/
  | serialDivider
  /-- U7: TMC after the wait that follows a STOP release. -/
  | countAfterStop
  /-- U7: IRQTM after the wait that follows a STOP release. -/
  | requestAfterStop
  /-- U8: TMC while the timer runs with TMM = 00H. -/
  | irregularCount
  /-- U8: IRQTM while the timer runs with TMM = 00H. -/
  | irregularRequest
  /-- U8: the TMOUT flip-flop while the timer runs with TMM = 00H. -/
  | irregularOutput
  /-- U9: CMPRSLT for equal voltages. -/
  | equalVoltages
  /-- U9, D25: CMPRSLT of a comparison that a HALT interrupted. -/
  | interruptedComparison
deriving DecidableEq, Repr

/-- The free value of width `w` at place `site` in instruction cycle `n` of the run. -/
opaque Config.freeBits (w n : Nat) (site : FreeSite) : BitVec w

/-- The open parameter IEGMD11 (92_eei_decisions.md D16): does a change of the INT pin from the first level to the
second set IRQ when IEGMD = 11B. -/
opaque Config.iegmd11 : Bool → Bool → Bool

/-- 91_not_in_source.md N-P3: the timing chart of the internal serial clock of this period is lost. What stands for the
number of system clocks it is high in each period, reduced to the range 1 to 15 where it is used (log 20). -/
opaque Config.clockHigh : Nat → Nat

/-- 92_eei_decisions.md D24 leaves it undecided whether the oscillation stabilisation wait after a STOP release needs
TMEN = 1: does the wait count when TMEN = 0. -/
opaque Config.stopWaitWithoutTmen : Bool

end Sys2Proof
end

