-- ==== Sys2Proof/Machine/State.lean ====
section
/-! DEFINITION. The state of the machine as plain data: every element of 10_state.md, the environment's levels
(50_peripherals.md R301), and the few fields of the model's own that their docstrings mark. `State.reset` is the machine
right after a RESET input or power-on reset, before its first instruction (10_state.md R67). -/

namespace Sys2Proof.Machine

/-- The five flags of the program status word (10_state.md R50). The interrupt stack register holds the same five
(R37). -/
structure Psword where
  bcd : Bool
  cmp : Bool
  cy : Bool
  z : Bool
  ixe : Bool
deriving DecidableEq, Repr

/-- The five address stack registers `ASR[0]` to `ASR[4]` (10_state.md R30, R36). -/
structure AddressStack where
  a0 : RomAddr
  a1 : RomAddr
  a2 : RomAddr
  a3 : RomAddr
  a4 : RomAddr
deriving DecidableEq, Repr

/-- The kinds of reset that come from outside (70_reset_and_hazards.md R460, R461, R464, R465). -/
inductive ResetKind where
  /-- The RESET input. -/
  | resetPin
  /-- The power-down reset: VDD fell below the detect level but stayed at 2.7 V or more. -/
  | powerDown
  /-- The power-on reset: VDD rose from 0 V, or had fallen so far that nothing is kept. -/
  | powerOn
deriving DecidableEq, Repr

/-- The standby state `MODE` (10_state.md R61) and the two oscillation stabilisation waits during which no instruction
executes (60_exceptions.md R435, 70_reset_and_hazards.md R461). -/
inductive Mode where
  | run
  /-- HALT mode with its release condition. -/
  | halt (h : Nibble)
  /-- STOP mode with its release condition. -/
  | stop (s : Nibble)
  /-- The wait after a STOP release. -/
  | stopWait
  /-- The wait after a reset of this kind, with the instruction cycles left. -/
  | resetWait (kind : ResetKind) (left : Nat)
deriving DecidableEq, Repr

/-- The three interrupt request flags, named by their register file addresses 3FH, 3EH, 3DH (60_exceptions.md R410). -/
inductive RequestFlag where
  | irq | irqtm | irqsio
deriving DecidableEq, Repr

/-- Port latches and direction flags (10_state.md R53, R54). -/
structure Ports where
  poaL : Nibble
  pobL : Nibble
  pocL : Nibble
  /-- Bit 1 is also SO_LATCH, the serial output latch (R63, 50_peripherals.md R356). -/
  podL : Nibble
  poeL : BitVec 2
  poabio : Nibble
  pobgio : Bool
  pocbio : Nibble
  podbio : Nibble
  poebio : BitVec 2
  /-- POC3IDI to POC0IDI, on `HAS_CMP` parts. -/
  pocidi : Nibble
  /-- The model's own: the shifter has changed SO_LATCH since 73H was last written, so that POD1 used as a port has an
  undefined latch (50_peripherals.md R315, 93_implementation_defined.md U5; log 22). -/
  soUsed : Bool
deriving DecidableEq, Repr

/-- The 8-bit timer (10_state.md R54, R57, R62). -/
structure Timer where
  tmen : Bool
  tmck : BitVec 2
  tmosel : Bool
  tmc : BitVec 8
  tmm : BitVec 8
  tmoutFf : Bool
  /-- PRESC, the phase of the divider behind fx/32, fx/256 and fx/2048. -/
  presc : BitVec 11
  /-- The model's own: the timer ran with TMM = 00H and has not been re-initialised (93_implementation_defined.md U8). -/
  irregular : Bool
deriving DecidableEq, Repr

/-- The serial interface (10_state.md R54, R57, R63). -/
structure Serial where
  sioen : Bool
  siots : Bool
  siohiz : Bool
  siock : BitVec 2
  sfr : BitVec 8
  /-- SIO_CNT, the serial clocks since the transfer started. -/
  cnt : Nat
  /-- The last level of the selected serial clock that the shifter saw (50_peripherals.md R354 acts at its edges). -/
  sck : Bool
  /-- The phase of the divider behind fx/16, fx/128 and fx/1024. -/
  divider : BitVec 10
deriving DecidableEq, Repr

/-- The comparator of the `HAS_CMP` parts (10_state.md R54, R64). -/
structure Comparator where
  cmpch : BitVec 2
  cmpvref : Nibble
  cmpstrt : Bool
  cmprslt : Bool
  /-- Instruction cycles left of the running comparison (50_peripherals.md R343). -/
  remaining : Nat
  /-- The model's own: a HALT interrupted the running comparison, so its result is undefined (R343, D25). -/
  tainted : Bool
deriving DecidableEq, Repr

/-- Request, permission and edge flags (60_exceptions.md R410, R411, R413) and INT_PREV (10_state.md R65). -/
structure Interrupts where
  irq : Bool
  irqtm : Bool
  irqsio : Bool
  ip : Bool
  iptm : Bool
  ipsio : Bool
  iegmd : BitVec 2
  intPrev : Bool
deriving DecidableEq, Repr

/-- What the RESET pin and the supply do during a cycle (70_reset_and_hazards.md R461, R464, R465). -/
inductive ResetLine where
  | inactive
  /-- RESET is low. -/
  | resetLow
  /-- VDD is below the low-voltage detect level, at 2.7 V or more. -/
  | supplyLow
  /-- VDD is, or has been, below 2.7 V. -/
  | supplyLost
deriving DecidableEq, Repr

/-- The external levels of one instruction cycle (50_peripherals.md R301). Voltages are in one arbitrary unit. -/
structure Inputs where
  poa : Nibble
  pob : Nibble
  poc : Nibble
  pod : Nibble
  /-- Bit n: nothing outside drives PODn, so that a pull-up holds it high. -/
  podOpen : Nibble
  poe : BitVec 2
  /-- Bit n: nothing outside drives POEn. -/
  poeOpen : BitVec 2
  /-- Bit k: level of the SCK pin at system clock k of the cycle. -/
  sckWave : BitVec 16
  /-- Bit k: level of the SI pin at system clock k of the cycle. -/
  siWave : BitVec 16
  /-- Filtered level of the INT pin. -/
  int : Bool
  reset : ResetLine
  /-- Nothing outside drives the RESET pin, so that a pull-up holds it high. -/
  resetOpen : Bool
  cin0 : Nat
  cin1 : Nat
  cin2 : Nat
  cin3 : Nat
  vref : Nat
  vdd : Nat
deriving DecidableEq, Repr

/-- The whole machine: every element of 10_state.md, and the model's own fields that say so. -/
structure State where
  /-- `PART`, constant (00_scope.md R4). -/
  part : Part
  /-- Mask options, constant (10_state.md R66). -/
  mask : MaskOptions
  /-- Program memory, constant (20_memory.md R104, R106). -/
  rom : Cells 16
  /-- Program counter (10_state.md R21). -/
  pc : RomAddr
  /-- Stack pointer, register file 01H (R31). -/
  sp : BitVec 3
  asr : AddressStack
  /-- Interrupt stack register (R37). -/
  intsk : Psword
  /-- General-purpose data memory (R40). -/
  ram : Cells 4
  /-- Address register, its 10 effective bits (R45). -/
  ar : BitVec 10
  /-- Window register (R46). -/
  wr : Nibble
  /-- Memory pointer enable flag (R48). -/
  mpe : Bool
  /-- Index register, its 7 effective bits (R48). -/
  ix : BitVec 7
  /-- General register pointer, its 3 effective bits (R49). -/
  rp : BitVec 3
  psw : Psword
  ports : Ports
  timer : Timer
  serial : Serial
  comparator : Comparator
  interrupts : Interrupts
  /-- Power-down reset enable, register file 10H (R54). -/
  pdresen : Bool
  /-- Interrupt master enable (R58). -/
  inte : Bool
  /-- EI_HOLD (R59). -/
  eiHold : Bool
  /-- SKIP (R60). -/
  skip : Bool
  mode : Mode
  /-- IRQ_STALE (R68). -/
  irqStale : Option (RequestFlag × Bool)
  /-- The model's own: IRQ_STALE as the fetch sampled it, the local `stale` of 30_encoding.md R141. -/
  staleView : Option (RequestFlag × Bool)
  /-- The present external levels (50_peripherals.md R301). -/
  env : Inputs
  /-- The external levels of the cycles to come; after the last one the levels stay. -/
  pending : List Inputs
  /-- The model's own: the instruction cycle that free values are indexed by. -/
  cycle : Nat
deriving DecidableEq, Repr

/-- Why the machine stops: the `Unpredictable(reason)` of 60_exceptions.md R404, which the spec says is no hardware
event. Every one of them is safe: the manual gives the machine no behaviour there, so nothing true of a chip is lost that
the manual promises. -/
inductive Fault where
  /-- Raised by the address calculation of an operand `m` or `@r` while IXE = 1 and MPE = 1 ("設定禁止", 20_memory.md
  R112, R114). Safe. -/
  | prohibitedIndexMode
  /-- Raised by `HALT h` with bit 2 or bit 0 of `h` set (47_interrupt_other.md R288, R292). Safe. -/
  | haltOperandFixedBit (h : Nibble)
  /-- Raised by `STOP s` with bit 2, 1 or 0 of `s` set (47_interrupt_other.md R287, R293). Safe. -/
  | stopOperandFixedBit (s : Nibble)
deriving DecidableEq, Repr

/-- Why the model gives no meaning. -/
inductive Refusal where
  /-- Raised by `exec` for an instruction that has no meaning yet. Safe. -/
  | notModelled (mnemonic : String)
  /-- Raised by a step whose word is no instruction, `Unpredictable("unassigned instruction word")` (30_encoding.md R146,
  R147, 60_exceptions.md R404). Safe. -/
  | unassignedWord (w : ProgWord)
deriving DecidableEq, Repr

/-- The three outcomes of an instruction or a step. -/
abbrev Result := Host.Outcome State Fault Refusal

/-- All five flags clear (10_state.md R50). -/
def Psword.clear : Psword := { bcd := false, cmp := false, cy := false, z := false, ixe := false }

/-- Every external level low, no reset applied, every voltage 0: the environment of `State.reset` (DESIGN CHOICE,
log 8). -/
def Inputs.quiet : Inputs where
  poa := 0
  pob := 0
  poc := 0
  pod := 0
  podOpen := 0
  poe := 0
  poeOpen := 0
  sckWave := 0
  siWave := 0
  int := false
  reset := .inactive
  resetOpen := false
  cin0 := 0
  cin1 := 0
  cin2 := 0
  cin3 := 0
  vref := 0
  vdd := 0

/-- The machine right after a RESET input or power-on reset, before the first instruction (10_state.md R67, R54, R57;
70_reset_and_hazards.md R462, R467). A value the spec leaves undefined is the one the log names (logs 1 to 8). -/
def State.reset : State where
  part := .u17133
  mask := { resetPin := false, pod := 0, poe := 0 }
  rom := []
  pc := 0
  sp := 5
  asr := { a0 := 0, a1 := 0, a2 := 0, a3 := 0, a4 := 0 }
  intsk := .clear
  ram := []
  ar := 0
  wr := 0
  mpe := false
  ix := 0
  rp := 0
  psw := .clear
  ports :=
    { poaL := 0, pobL := 0, pocL := 0, podL := 0, poeL := 0, poabio := 0, pobgio := false, pocbio := 0, podbio := 0,
      poebio := 0, pocidi := 0, soUsed := false }
  timer :=
    { tmen := true, tmck := 0, tmosel := false, tmc := 0, tmm := 0xFF, tmoutFf := true, presc := 0,
      irregular := false }
  serial :=
    { sioen := false, siots := false, siohiz := false, siock := 0, sfr := 0, cnt := 0, sck := true, divider := 0 }
  comparator :=
    { cmpch := 0, cmpvref := 8, cmpstrt := false, cmprslt := true, remaining := 0, tainted := false }
  interrupts :=
    { irq := false, irqtm := true, irqsio := false, ip := false, iptm := false, ipsio := false, iegmd := 0,
      intPrev := false }
  pdresen := false
  inte := false
  eiHold := false
  skip := false
  mode := .run
  irqStale := none
  staleView := none
  env := .quiet
  pending := []
  cycle := 0

end Sys2Proof.Machine
end

