-- ==== Sys2Proof/Machine/Parts.lean ====
section
/-! DEFINITION. What the part number fixes (00_scope.md R4) and the nibble helpers the register maps use. -/

namespace Sys2Proof.Machine

/-- `ROM_WORDS` (00_scope.md R4). -/
def romWords (p : Part) : Nat :=
  match p with
  | .u17120 => 768
  | .u17121 => 768
  | .u17132 => 1024
  | .u17133 => 1024
  | .u17P132 => 1024
  | .u17P133 => 1024

/-- `RAM_NIBBLES` (00_scope.md R4). -/
def ramNibbles (p : Part) : Nat :=
  match p with
  | .u17120 => 64
  | .u17121 => 64
  | .u17132 => 111
  | .u17133 => 111
  | .u17P132 => 111
  | .u17P133 => 111

/-- `HAS_CMP` (00_scope.md R4). -/
def hasCmp (p : Part) : Bool :=
  match p with
  | .u17120 => false
  | .u17121 => false
  | .u17132 => true
  | .u17133 => true
  | .u17P132 => true
  | .u17P133 => true

/-- `CMP_CYCLES`, 0 on the parts without a comparator (00_scope.md R4). -/
def cmpCycles (p : Part) : Nat :=
  match p with
  | .u17120 => 0
  | .u17121 => 0
  | .u17132 => 2
  | .u17133 => 6
  | .u17P132 => 2
  | .u17P133 => 6

/-- The one-time PROM parts, which have no mask-option pull-up (00_scope.md R4, 10_state.md R66). -/
def isProm (p : Part) : Bool :=
  match p with
  | .u17120 => false
  | .u17121 => false
  | .u17132 => false
  | .u17133 => false
  | .u17P132 => true
  | .u17P133 => true

/-- The nibble with these bits, b3 first. -/
def nibbleOf (b3 b2 b1 b0 : Bool) : Nibble :=
  BitVec.ofBool b3 ++ BitVec.ofBool b2 ++ BitVec.ofBool b1 ++ BitVec.ofBool b0

/-- Bit by bit: `x` where `sel` is 1, `y` where it is 0. -/
def mux {w : Nat} (sel x y : BitVec w) : BitVec w := (sel &&& x) ||| (~~~sel &&& y)

/-- The nibble with bit 1 replaced. -/
def withBit1 (v : Nibble) (b : Bool) : Nibble := nibbleOf (v.getLsbD 3) (v.getLsbD 2) b (v.getLsbD 0)

/-- Mask-option pull-ups on POD3 to POD0 that the chip really has (10_state.md R66). -/
def podPullUps (s : State) : Nibble := if isProm s.part then 0 else s.mask.pod

/-- Mask-option pull-ups on POE1, POE0 that the chip really has (10_state.md R66). -/
def poePullUps (s : State) : BitVec 2 := if isProm s.part then 0 else s.mask.poe

end Sys2Proof.Machine
end

