-- ==== Sys2Proof/Machine/Comparator.lean ====
section
/-! DEFINITION. The comparator of the uPD17132, 17133, 17P132, 17P133 (50_peripherals.md R341 to R344). -/

namespace Sys2Proof.Machine

/-- The voltage on the selected analog input (R341). -/
def selectedInput (s : State) : Nat :=
  match s.comparator.cmpch.toNat with
  | 0 => s.env.cin0
  | 1 => s.env.cin1
  | 2 => s.env.cin2
  | _ => s.env.cin3

/-- Sixteen times the reference voltage: the Vref pin for CMPVREF = 0000B, else n/16 of VDD (R342). -/
def reference16 (s : State) : Nat :=
  if s.comparator.cmpvref = 0 then 16 * s.env.vref else s.comparator.cmpvref.toNat * s.env.vdd

/-- `Compare()` (R344): an undefined bit for equal voltages (U9). -/
def compareVoltages (s : State) : Bool :=
  if reference16 s < 16 * selectedInput s then true
  else if 16 * selectedInput s < reference16 s then false
  else (Config.freeBits 1 s.cycle .equalVoltages).getLsbD 0

/-- The result a finished comparison leaves: an undefined bit if a HALT interrupted it (R343, D25). -/
def comparisonResult (s : State) : Bool :=
  if s.comparator.tainted then (Config.freeBits 1 s.cycle .interruptedComparison).getLsbD 0 else compareVoltages s

/-- `ComparatorCycle()` (R343). -/
def comparatorCycle (s : State) : State :=
  if s.comparator.cmpstrt then
    if s.comparator.remaining ≤ 1 then
      { s with comparator :=
        { s.comparator with cmprslt := comparisonResult s, cmpstrt := false, remaining := 0, tainted := false } }
    else { s with comparator := { s.comparator with remaining := s.comparator.remaining - 1 } }
  else s

/-- `POKE` of 1EH: a 1 in bit 1 starts a comparison when none is running, a 0 does nothing; CMPRSLT is read only (R343). -/
def writeCmpStart (s : State) (v : Nibble) : State :=
  if v.getLsbD 1 && !s.comparator.cmpstrt then
    { s with comparator := { s.comparator with cmpstrt := true, remaining := cmpCycles s.part + 1, tainted := false } }
  else s

/-- `POKE` of 1CH, ignored during a comparison (R341). -/
def writeCmpChannel (s : State) (v : Nibble) : State :=
  if s.comparator.cmpstrt then s else { s with comparator := { s.comparator with cmpch := v.extractLsb' 0 2 } }

/-- `POKE` of 1DH, ignored during a comparison (R342). -/
def writeCmpReference (s : State) (v : Nibble) : State :=
  if s.comparator.cmpstrt then s else { s with comparator := { s.comparator with cmpvref := v } }

end Sys2Proof.Machine
end

