-- ==== Sys2Proof/Machine/Ports.lean ====
section
/-! DEFINITION. The ports OA to OE: what a read of a port register samples, what the chip drives on each pin but POD0 (Serial.lean)
(50_peripherals.md R301 to R319, R337, R353). A write stores the latch and nothing else (R303). -/

namespace Sys2Proof.Machine

/-! ### Levels of pins the chip does not drive (R302) -/

/-- POD3 to POD0: the external level, high through a pull-up where nothing outside drives the pin. -/
def podPins (s : State) : Nibble := s.env.pod ||| (s.env.podOpen &&& podPullUps s)

/-- POE1, POE0, likewise. -/
def poePins (s : State) : BitVec 2 := s.env.poe ||| (s.env.poeOpen &&& poePullUps s)

/-- Level of the SCK pin at system clock `k` of the present cycle. -/
def sckLevel (s : State) (k : Nat) : Bool :=
  s.env.sckWave.getLsbD k || (s.env.podOpen.getLsbD 0 && (podPullUps s).getLsbD 0)

/-- Level of the SI pin at system clock `k` of the present cycle. -/
def siLevel (s : State) (k : Nat) : Bool :=
  s.env.siWave.getLsbD k || (s.env.podOpen.getLsbD 2 && (podPullUps s).getLsbD 2)

/-! ### PortRead (R303) -/

/-- Read of 70H: the latch for an output pin, the pin for an input pin (R304). -/
def readPoa (s : State) : Nibble := mux s.ports.poabio s.ports.poaL s.env.poa

/-- Read of 71H: latch or pins by the group direction POBGIO (R308). -/
def readPob (s : State) : Nibble := if s.ports.pobgio then s.ports.pobL else s.env.pob

/-- What the POC input buffers deliver: a pin used as analog input gives an undefined bit (R311, R312, U5). -/
def pocInputs (s : State) (slot : ReadSlot) : Nibble :=
  if hasCmp s.part then mux s.ports.pocidi (Config.freeBits 4 s.cycle (.analogPin slot)) s.env.poc else s.env.poc

/-- Read of 72H (R310, R311). -/
def readPoc (s : State) (slot : ReadSlot) : Nibble := mux s.ports.pocbio s.ports.pocL (pocInputs s slot)

/-- Which bits of a read of 73H come from the latch rather than the pin (R314, R315): POD0 is SCK, POD1 is SO or an
input and POD2 is SI while SIOEN = 1, POD3 is TMOUT while TMOSEL = 1. -/
def podFromLatch (s : State) : Nibble :=
  nibbleOf (s.timer.tmosel || s.ports.podbio.getLsbD 3) (!s.serial.sioen && s.ports.podbio.getLsbD 2)
    (!s.serial.sioen && s.ports.podbio.getLsbD 1)
    (if s.serial.sioen then s.serial.siock != 0 else s.ports.podbio.getLsbD 0)

/-- POD1 is the SO output (R353). -/
def soDriven (s : State) : Bool := s.serial.sioen && !s.serial.siohiz

/-- The port OD latch as a port sees it: bit 1 is undefined once the shifter has changed it, until 73H is written again
(R315, R356, U5; log 22). -/
def podPortLatch (s : State) : Nibble :=
  if s.ports.soUsed then withBit1 s.ports.podL ((Config.freeBits 1 s.cycle .soLatch).getLsbD 0) else s.ports.podL

/-- Read of 73H; the bit of a pin that is the SO output is undefined (R315, U5). -/
def readPod (s : State) (slot : ReadSlot) : Nibble :=
  let v := mux (podFromLatch s) (podPortLatch s) (podPins s)
  if soDriven s then withBit1 v ((Config.freeBits 1 s.cycle (.soPin slot)).getLsbD 0) else v

/-- POE1 is the comparator's external reference input Vref, not a port pin (R318, R342). -/
def poe1IsVref (s : State) : Bool := hasCmp s.part && s.comparator.cmpvref == 0

/-- The port OE pins the chip pulls low: output mode, latch 0, port function (R302, R318). -/
def poeLow (s : State) : BitVec 2 :=
  s.ports.poebio &&& ~~~s.ports.poeL &&& (if poe1IsVref s then 1 else 3)

/-- Read of bits 1, 0 of 6FH: always the pins (R318). -/
def readPoe (s : State) : BitVec 2 := poePins s &&& ~~~poeLow s

/-! ### What the chip drives (R301 outputs, R302) -/

/-- What the chip does with a pin. -/
inductive PinDrive where
  /-- Not driven: an input, or an open-drain output at 1. -/
  | released
  | high
  | low
deriving DecidableEq, Repr

/-- A CMOS push-pull pin (R302). -/
def cmosDrive (output latch : Bool) : PinDrive :=
  if output then (if latch then .high else .low) else .released

/-- An N-ch open-drain pin (R302). -/
def openDrainDrive (output latch : Bool) : PinDrive := if output && !latch then .low else .released

/-- Pin POAn (R304). -/
def poaDrive (s : State) (n : Fin 4) : PinDrive := cmosDrive (s.ports.poabio.getLsbD n) (s.ports.poaL.getLsbD n)

/-- Pin POBn (R308). -/
def pobDrive (s : State) (n : Fin 4) : PinDrive := cmosDrive s.ports.pobgio (s.ports.pobL.getLsbD n)

/-- Pin POCn (R310, R311). -/
def pocDrive (s : State) (n : Fin 4) : PinDrive := cmosDrive (s.ports.pocbio.getLsbD n) (s.ports.pocL.getLsbD n)

/-- Pin POD1/SO: SO_LATCH is the POD1 latch, as a port undefined once the shifter has changed it (R353, R356, U5).
The level is that of the state: the levels SO takes inside a cycle with several external serial clocks are not shown
(DESIGN CHOICE, log 9). -/
def pod1Drive (s : State) : PinDrive :=
  if s.serial.sioen then openDrainDrive (!s.serial.siohiz) (s.ports.podL.getLsbD 1)
  else openDrainDrive (s.ports.podbio.getLsbD 1) ((podPortLatch s).getLsbD 1)

/-- Pin POD2/SI (R314). -/
def pod2Drive (s : State) : PinDrive :=
  if s.serial.sioen then .released else openDrainDrive (s.ports.podbio.getLsbD 2) (s.ports.podL.getLsbD 2)

/-- Pin POD3/TMOUT (R337), its level as of the state (log 9). -/
def pod3Drive (s : State) : PinDrive :=
  if s.timer.tmosel then openDrainDrive true s.timer.tmoutFf
  else openDrainDrive (s.ports.podbio.getLsbD 3) (s.ports.podL.getLsbD 3)

/-- Pin POEn (R318, R342). -/
def poeDrive (s : State) (n : Fin 2) : PinDrive := openDrainDrive ((poeLow s).getLsbD n) false

end Sys2Proof.Machine
end

