-- ==== Sys2Proof/Machine/Serial.lean ====
section
/-! DEFINITION. The 3-wire serial interface (50_peripherals.md R350 to R356). -/

namespace Sys2Proof.Machine

/-- A transfer is running: the shifter acts on clock edges (R350, R352, R354). -/
def sioActive (s : State) : Bool := s.serial.sioen && s.serial.siots

/-- Falling edge of the serial clock: the most significant bit of SIOSFR goes to SO_LATCH, which is the POD1 latch and
keeps it after the transfer (R354, R356); a port read of POD1 is undefined from now on (log 22). -/
def sioFalling (s : State) : State :=
  { s with
    ports := { s.ports with podL := withBit1 s.ports.podL (s.serial.sfr.getLsbD 7), soUsed := true }
    serial := { s.serial with sck := false } }

/-- Rising edge of the serial clock: shift towards the MSB, load SI; after eight of them the transfer ends (R354). -/
def sioRising (s : State) (si : Bool) : State :=
  let shifted := { s.serial with sck := true, sfr := s.serial.sfr.extractLsb' 0 7 ++ BitVec.ofBool si }
  if s.serial.cnt + 1 = 8 then
    { s with
      serial := { shifted with cnt := 0, siots := false }
      interrupts := { s.interrupts with irqsio := true } }
  else { s with serial := { shifted with cnt := s.serial.cnt + 1 } }

/-- The serial clock takes this level: an edge acts on the shifter during a transfer (R354), and is remembered. -/
def clockEdge (s : State) (level si : Bool) : State :=
  if level = s.serial.sck then s
  else if sioActive s then (if level then sioRising s si else sioFalling s)
  else { s with serial := { s.serial with sck := level } }

/-- System clock `k` of a cycle with the external clock selected: the level of the SCK pin (R351). -/
def externalClock (s : State) (k : Nat) : State := clockEdge s (sckLevel s k) (siLevel s k)

/-- System clocks per serial clock for SIOCK = 01, 10, 11 (R351). -/
def sioPeriod (siock : BitVec 2) : Nat :=
  match siock.toNat with
  | 1 => 16
  | 2 => 128
  | _ => 1024

/-- The phase at which an internal serial clock of period `n` rises; it falls at phase 0. It is high for less than an
instruction cycle, so that the eighth rising edge is 8 periods after the first falling one, in instruction cycles (R354,
vector SIO3 of 95_test_vectors.md; DEDUCED, log 20); for how many system clocks is open (N-P3). -/
def clockRise (n : Nat) : Nat := n - 1 - Config.clockHigh n % 15

/-- Level of the internal serial clock at system clock `k` of a cycle: high, the idle level, without a transfer and up to the
first falling edge of one (R354). The divider is that of the cycle's start. -/
def internalLevel (s : State) (k : Nat) : Bool :=
  let n := sioPeriod s.serial.siock
  let p := (s.serial.divider.toNat + (k + 1)) % n
  if !s.serial.siots then true
  else if p = 0 then false
  else if clockRise n ≤ p then true
  else s.serial.sck

/-- System clock `k` of a cycle with an internal clock selected (R351, R354). -/
def internalClock (s : State) (k : Nat) : State := clockEdge s (internalLevel s k) (siLevel s k)

/-- The first `k` system clocks of a cycle. -/
def clocks (clock : State → Nat → State) (k : Nat) (s : State) : State := (List.range k).foldl clock s

/-- The 16 system clocks of a cycle with the external clock (R300, R354). Without a transfer only the last level of the
pin is remembered. -/
def sioExternal (s : State) : State :=
  if sioActive s then clocks externalClock 16 s
  else { s with serial := { s.serial with sck := sckLevel s 15 } }

/-- The 16 system clocks of a cycle with an internal clock (R300, R354); without a transfer it is at its idle level. -/
def sioInternal (s : State) : State :=
  if s.serial.siots then clocks internalClock 16 s
  else { s with serial := { s.serial with sck := true } }

/-- The serial interface in one instruction cycle (R300 `SioClock`, R354). -/
def sioCycle (s : State) : State :=
  let t := if s.serial.siock = 0 then sioExternal s else sioInternal s
  { t with serial := { t.serial with divider := t.serial.divider + 16 } }

/-- The system clock runs: not in STOP mode, and the internal serial clock stands still in the wait that follows it
(60_exceptions.md R432; log 17). -/
def serialClockRuns (m : Mode) : Bool :=
  match m with
  | .run => true
  | .halt _ => true
  | .stop _ => false
  | .stopWait => false
  | .resetWait _ _ => true

/-- The level of the serial clock output at clock `k` of the 16 system clocks by which the peripherals go on from the state
(R351): that of the clock whose edges shift. -/
def clockOutput (s : State) (k : Fin 16) : Bool :=
  !s.serial.siots || (clocks internalClock (if serialClockRuns s.mode then k.val + 1 else 0) s).serial.sck

/-- Pin POD0/SCK at clock `k` of the 16 system clocks by which the peripherals go on from the state (R314, R351); those of
an instruction's cycle go on from the state after its effect (DESIGN CHOICE, log 9). -/
def pod0Drive (s : State) (k : Fin 16) : PinDrive :=
  if s.serial.sioen then (if s.serial.siock = 0 then .released else openDrainDrive true (clockOutput s k))
  else openDrainDrive (s.ports.podbio.getLsbD 0) (s.ports.podL.getLsbD 0)

/-- `POKE` of the serial mode register 1AH: SIOTS, SIOHIZ, SIOCK1, SIOCK0 (R351 to R354). A start clears IRQSIO; a start or
a stop begins with no serial clock counted. -/
def writeSerialMode (s : State) (v : Nibble) : State :=
  let ck := v.extractLsb' 0 2
  { s with
    serial := { s.serial with
      siots := v.getLsbD 3
      siohiz := v.getLsbD 2
      siock := ck
      cnt := 0
      sck := if ck = 0 then sckLevel s 15 else true }
    interrupts := { s.interrupts with irqsio := s.interrupts.irqsio && !v.getLsbD 3 } }

end Sys2Proof.Machine
end

