-- ==== Sys2Proof/Machine/Timer.lean ====
section
/-! DEFINITION. The 8-bit timer (50_peripherals.md R330 to R339). -/

namespace Sys2Proof.Machine

/-- `TimerCount()` (R334): the match comes at the count pulse after TMC became equal to TMM. -/
def timerCount (s : State) : State :=
  if s.timer.tmc = s.timer.tmm then
    { s with
      timer := { s.timer with tmc := 0, tmoutFf := !s.timer.tmoutFf }
      interrupts := { s.interrupts with irqtm := true } }
  else { s with timer := { s.timer with tmc := s.timer.tmc + 1 } }

/-- System clocks per count pulse for an internal count pulse; none for TMCK = 11, the INT pin (R333). -/
def pulsePeriod (tmck : BitVec 2) : Option Nat :=
  match tmck.toNat with
  | 0 => some 256
  | 1 => some 32
  | 2 => some 2048
  | _ => none

/-- The selected count pulse is at low level: the first half of its period, or a low INT pin (R334). -/
def pulseLow (s : State) : Bool :=
  match pulsePeriod s.timer.tmck with
  | some n => decide (s.timer.presc.toNat % n < n / 2)
  | none => !s.env.int

/-- The selected internal count pulse has its falling edge among the next 16 system clocks (R300, R334). -/
def pulseFalls (s : State) : Bool :=
  match pulsePeriod s.timer.tmck with
  | some n => decide (n ≤ s.timer.presc.toNat % n + 16)
  | none => false

/-- The 16 system clocks of one instruction cycle, divider and timer, at once (R300: PRESC advanced by 16, the falling
edges inside the step processed; the shortest period, 32 clocks, leaves room for one). -/
def timerCycle (s : State) : State :=
  let advanced := { s with timer := { s.timer with presc := s.timer.presc + 16 } }
  if s.timer.tmen && pulseFalls s then timerCount advanced else advanced

/-- One system clock of the divider and the timer, in the form of R300 and R334; `timerCycle` is sixteen of them. -/
def timerClock (s : State) : State :=
  let advanced := { s with timer := { s.timer with presc := s.timer.presc + 1 } }
  match pulsePeriod s.timer.tmck with
  | some n => if s.timer.tmen && (s.timer.presc + 1).toNat % n == 0 then timerCount advanced else advanced
  | none => advanced

/-- TMRES = 1 (R332): TMC, IRQTM and the output flip-flop are reset; a timer with a legal TMM is regular again (U8). -/
def timerReset (s : State) : State :=
  { s with
    timer := { s.timer with tmc := 0, tmoutFf := true, irregular := s.timer.irregular && s.timer.tmm == 0 }
    interrupts := { s.interrupts with irqtm := false } }

/-- A timer that runs with TMM = 00H counts irregularly from now on (R336, U8). -/
def markIrregular (s : State) : State :=
  { s with timer := { s.timer with irregular := s.timer.irregular || (s.timer.tmen && s.timer.tmm == 0) } }

/-- The bits of the timer mode register 11H written: TMEN, TMRES, TMCK1, TMCK0 (R331 to R333). -/
def timerModeBits (s : State) (v : Nibble) : State :=
  let r := if v.getLsbD 2 then timerReset s else s
  { r with timer := { r.timer with tmen := v.getLsbD 3, tmck := v.extractLsb' 0 2 } }

/-- This write starts the timer while the selected count pulse is low, which is a count (R334); not so a start together
with TMRES = 1, whose error is at most one count (R339 (1); DEDUCED, log 19). -/
def startCounts (s : State) (v : Nibble) : Bool :=
  !s.timer.tmen && v.getLsbD 3 && !v.getLsbD 2 && pulseLow (timerModeBits s v)

/-- `POKE` of the timer mode register 11H (R331 to R334, R339). -/
def writeTimerMode (s : State) (v : Nibble) : State :=
  markIrregular (if startCounts s v then timerCount (timerModeBits s v) else timerModeBits s v)

/-- `PUT TMM, DBF` (R336). -/
def writeTmm (s : State) (v : BitVec 8) : State := markIrregular { s with timer := { s.timer with tmm := v } }

/-- While the timer is irregular TMC, IRQTM and the output flip-flop have any value (R336, U8). -/
def timerIrregular (s : State) : State :=
  if s.timer.irregular then
    { s with
      timer := { s.timer with
        tmc := Config.freeBits 8 s.cycle .irregularCount
        tmoutFf := (Config.freeBits 1 s.cycle .irregularOutput).getLsbD 0 }
      interrupts := { s.interrupts with irqtm := (Config.freeBits 1 s.cycle .irregularRequest).getLsbD 0 } }
  else s

end Sys2Proof.Machine
end

