-- ==== Sys2Proof/Machine/Ops.lean ====
section
/-! DEFINITION. The named operations over memory and registers: sparse memories, program memory, data memory, the register
file, the peripheral registers, the data buffer, the address stack, the internal reset, and taking and leaving an
interrupt. -/

namespace Sys2Proof.Machine

/-! ### Sparse memories -/

/-- The unit at an address; an unlisted address reads as 0 (DESIGN CHOICE, logs 3 and 5). -/
def cellsRead {w : Nat} (mem : Cells w) (a : Nat) : BitVec w :=
  match mem with
  | [] => 0
  | c :: rest => if c.1 = a then c.2 else cellsRead rest a

/-- Put a unit in its place by address. -/
def cellsPut {w : Nat} (mem : Cells w) (a : Nat) (v : BitVec w) : Cells w :=
  match mem with
  | [] => [(a, v)]
  | c :: rest =>
    if a < c.1 then (a, v) :: c :: rest
    else if a = c.1 then (a, v) :: rest
    else c :: cellsPut rest a v

/-- Take an address off the list. -/
def cellsErase {w : Nat} (mem : Cells w) (a : Nat) : Cells w := mem.filter fun c => c.1 != a

/-- Write a unit, keeping the canonical form: what an unlisted address reads as is not listed. -/
def cellsWrite {w : Nat} (mem : Cells w) (a : Nat) (v : BitVec w) : Cells w :=
  if v = 0 then cellsErase mem a else cellsPut mem a v

/-- The canonical form, within the addresses below `bound`. -/
abbrev cellsWf {w : Nat} (bound : Nat) (mem : Cells w) : Prop :=
  mem.Pairwise (fun c d => c.1 < d.1) ∧ ∀ c ∈ mem, c.2 ≠ 0 ∧ c.1 < bound

/-! ### Program memory -/

/-- `RomRead(a)` (20_memory.md R104, R105). -/
def romRead (s : State) (a : RomAddr) : ProgWord :=
  if a.toNat < romWords s.part then cellsRead s.rom a.toNat else 0xFFFF

/-! ### Data memory -/

/-- What stands behind a data memory address (20_memory.md R110). -/
inductive DmCell where
  | ram (a : Nat)
  | unmapped
  | poe | poa | pob | poc | pod
  | ar3 | ar2 | ar1 | ar0
  | wr | bank | ixh | ixm | ixl | rph | rpl | psw
deriving DecidableEq, Repr

/-- The data memory map (20_memory.md R110, R111). -/
def dmCell (p : Part) (a : DmAddr) : DmCell :=
  if a.toNat < ramNibbles p then .ram a.toNat
  else
    match a.toNat with
    | 0x6F => .poe
    | 0x70 => .poa
    | 0x71 => .pob
    | 0x72 => .poc
    | 0x73 => .pod
    | 0x74 => .ar3
    | 0x75 => .ar2
    | 0x76 => .ar1
    | 0x77 => .ar0
    | 0x78 => .wr
    | 0x79 => .bank
    | 0x7A => .ixh
    | 0x7B => .ixm
    | 0x7C => .ixl
    | 0x7D => .rph
    | 0x7E => .rpl
    | 0x7F => .psw
    | _ => .unmapped

/-- `DmRead(a)` (20_memory.md R110). `slot` tells the reads of one instruction apart where the value is undefined. -/
def dmRead (s : State) (slot : ReadSlot) (a : DmAddr) : Nibble :=
  match dmCell s.part a with
  | .ram n => cellsRead s.ram n
  | .unmapped => Config.freeBits 4 s.cycle (.unmapped slot)
  | .poe => 0#2 ++ readPoe s
  | .poa => readPoa s
  | .pob => readPob s
  | .poc => readPoc s slot
  | .pod => readPod s slot
  | .ar3 => 0
  | .ar2 => 0#2 ++ s.ar.extractLsb' 8 2
  | .ar1 => s.ar.extractLsb' 4 4
  | .ar0 => s.ar.extractLsb' 0 4
  | .wr => s.wr
  | .bank => 0
  | .ixh => nibbleOf s.mpe false false false
  | .ixm => 0#1 ++ s.ix.extractLsb' 4 3
  | .ixl => s.ix.extractLsb' 0 4
  | .rph => 0
  | .rpl => s.rp ++ BitVec.ofBool s.psw.bcd
  | .psw => nibbleOf s.psw.cmp s.psw.cy s.psw.z s.psw.ixe

/-- Store into general-purpose data memory. -/
def ramWrite (s : State) (a : Nat) (v : Nibble) : State := { s with ram := cellsWrite s.ram a v }

/-- `DmWrite(a, v)` (20_memory.md R110); bits fixed at 0 ignore the write (10_state.md R44, R52). -/
def dmWrite (s : State) (a : DmAddr) (v : Nibble) : State :=
  match dmCell s.part a with
  | .ram n => ramWrite s n v
  | .unmapped => s
  | .poe => { s with ports := { s.ports with poeL := v.extractLsb' 0 2 } }
  | .poa => { s with ports := { s.ports with poaL := v } }
  | .pob => { s with ports := { s.ports with pobL := v } }
  | .poc => { s with ports := { s.ports with pocL := v } }
  | .pod => { s with ports := { s.ports with podL := v, soUsed := false } }
  | .ar3 => s
  | .ar2 => { s with ar := v.extractLsb' 0 2 ++ s.ar.extractLsb' 0 8 }
  | .ar1 => { s with ar := s.ar.extractLsb' 8 2 ++ v ++ s.ar.extractLsb' 0 4 }
  | .ar0 => { s with ar := s.ar.extractLsb' 4 6 ++ v }
  | .wr => { s with wr := v }
  | .bank => s
  | .ixh => { s with mpe := v.getLsbD 3 }
  | .ixm => { s with ix := v.extractLsb' 0 3 ++ s.ix.extractLsb' 0 4 }
  | .ixl => { s with ix := s.ix.extractLsb' 4 3 ++ v }
  | .rph => s
  | .rpl => { s with rp := v.extractLsb' 1 3, psw := { s.psw with bcd := v.getLsbD 0 } }
  | .psw =>
    { s with psw :=
      { s.psw with cmp := v.getLsbD 3, cy := v.getLsbD 2, z := v.getLsbD 1, ixe := v.getLsbD 0 } }

/-! ### Free values that follow a reset -/

/-- General-purpose data memory whose every nibble is undefined (U3, U4), in canonical form. -/
def freeRam (s : State) : Cells 4 :=
  (List.range (ramNibbles s.part)).filterMap fun a =>
    if Config.freeBits 4 s.cycle (.ram a) = 0 then none else some (a, Config.freeBits 4 s.cycle (.ram a))

/-- Data memory in which only the data buffer 0CH-0FH is undefined (10_state.md R41, U3). -/
def freeDbf (s : State) : Cells 4 :=
  let free (a : Nat) : Nibble := Config.freeBits 4 s.cycle (.ram a)
  cellsWrite (cellsWrite (cellsWrite (cellsWrite s.ram 12 (free 12)) 13 (free 13)) 14 (free 14)) 15 (free 15)

/-- Address stack registers after a reset (10_state.md R36, U1). -/
def freeStack (s : State) : AddressStack where
  a0 := Config.freeBits 10 s.cycle (.stackLevel 0)
  a1 := Config.freeBits 10 s.cycle (.stackLevel 1)
  a2 := Config.freeBits 10 s.cycle (.stackLevel 2)
  a3 := Config.freeBits 10 s.cycle (.stackLevel 3)
  a4 := Config.freeBits 10 s.cycle (.stackLevel 4)

/-- Five flags from five bits. -/
def flagsOf (v : BitVec 5) : Psword where
  bcd := v.getLsbD 4
  cmp := v.getLsbD 3
  cy := v.getLsbD 2
  z := v.getLsbD 1
  ixe := v.getLsbD 0

/-- The interrupt stack register after a reset (U1). -/
def freeFlags (s : State) : Psword := flagsOf (Config.freeBits 5 s.cycle .flagStack)

/-- The 18 port output latches after a stack overflow or underflow reset (10_state.md R53, U4); directions are kept. -/
def freeLatches (s : State) : Ports :=
  let v : BitVec 18 := Config.freeBits 18 s.cycle .latches
  { s.ports with
    poaL := v.extractLsb' 0 4
    pobL := v.extractLsb' 4 4
    pocL := v.extractLsb' 8 4
    podL := v.extractLsb' 12 4
    poeL := v.extractLsb' 16 2
    soUsed := false }

/-! ### The internal reset -/

/-- `InternalReset(StackOverUnderflow)` (60_exceptions.md R402; column (e) of 70_reset_and_hazards.md R462): the machine
starts again at 0000H with no wait. IRQTM and TMEN are 1 by the ruling of 90_conflicts.md C13, against the text of R402 and R462
(log 36); the other control registers and the peripherals behind them go on, their hidden state included (log 24). The
initialisation itself takes no clock beyond the cycle that raised it (DESIGN CHOICE, log 23). -/
def internalReset (s : State) : State :=
  { s with
    pc := 0
    sp := 5
    asr := freeStack s
    intsk := freeFlags s
    ram := freeRam s
    ar := 0
    wr := Config.freeBits 4 s.cycle .window
    mpe := false
    ix := 0
    rp := 0
    psw := .clear
    ports := freeLatches s
    timer := { s.timer with tmen := true, tmc := Config.freeBits 8 s.cycle .countAtStackReset, tmm := 0xFF }
    interrupts := { s.interrupts with irqtm := true }
    serial := { s.serial with sfr := Config.freeBits 8 s.cycle .shifter }
    inte := false
    eiHold := false
    skip := false
    mode := .run
    irqStale := none
    staleView := none }

/-! ### Address stack -/

/-- `ASR[i]`; only 0 to 4 exist (10_state.md R30), and the callers' guard admits no other. -/
def asrRead (t : AddressStack) (i : Nat) : RomAddr :=
  match i with
  | 0 => t.a0
  | 1 => t.a1
  | 2 => t.a2
  | 3 => t.a3
  | _ => t.a4

/-- `ASR[i] <- v`; there is no register to write for `i` above 4 (log 28). -/
def asrWrite (t : AddressStack) (i : Nat) (v : RomAddr) : AddressStack :=
  match i with
  | 0 => { t with a0 := v }
  | 1 => { t with a1 := v }
  | 2 => { t with a2 := v }
  | 3 => { t with a3 := v }
  | 4 => { t with a4 := v }
  | _ => t

/-- `Push(v)` (10_state.md R33); none where it raises the internal reset (R32). -/
def push (s : State) (v : RomAddr) : Option State :=
  if 6 ≤ (s.sp - 1).toNat then none
  else some { s with sp := s.sp - 1, asr := asrWrite s.asr (s.sp - 1).toNat v }

/-- `Pop()` (10_state.md R34): the popped value and the state after it; none where it raises the internal reset. -/
def pop (s : State) : Option (RomAddr × State) :=
  if 5 ≤ s.sp.toNat then none
  else some (asrRead s.asr s.sp.toNat, { s with sp := s.sp + 1 })

/-! ### Interrupts -/

/-- The request flag (60_exceptions.md R410). -/
def requestFlag (s : State) (f : RequestFlag) : Bool :=
  match f with
  | .irq => s.interrupts.irq
  | .irqtm => s.interrupts.irqtm
  | .irqsio => s.interrupts.irqsio

/-- Set or cancel a request (R410). -/
def setRequest (s : State) (f : RequestFlag) (b : Bool) : State :=
  match f with
  | .irq => { s with interrupts := { s.interrupts with irq := b } }
  | .irqtm => { s with interrupts := { s.interrupts with irqtm := b } }
  | .irqsio => { s with interrupts := { s.interrupts with irqsio := b } }

/-- The vector address of a source (R415, 20_memory.md R102). -/
def vector (f : RequestFlag) : RomAddr :=
  match f with
  | .irq => 3
  | .irqtm => 2
  | .irqsio => 1

/-- `HighestPending()` (R425). -/
def highestPending (s : State) : Option RequestFlag :=
  if s.interrupts.irq && s.interrupts.ip then some .irq
  else if s.interrupts.irqtm && s.interrupts.iptm then some .irqtm
  else if s.interrupts.irqsio && s.interrupts.ipsio then some .irqsio
  else none

/-- `AcceptInterrupt(src)` (R421): taking the exception. -/
def acceptInterrupt (s : State) (src : RequestFlag) : State :=
  match push s s.pc with
  | none => internalReset s
  | some t => setRequest { t with intsk := s.psw, psw := .clear, inte := false, pc := vector src } src false

/-- The return from an interrupt (46_branch_subroutine.md R276, R426): pc from the address stack, the five flags from
INTSK; INTE and INTSK stay. -/
def returnFromInterrupt (s : State) : State :=
  match pop s with
  | none => internalReset s
  | some (v, t) => { t with pc := v, psw := s.intsk }

/-! ### Register file -/

/-- What stands behind a register file address (10_state.md R54, R56). -/
inductive RfReg where
  | sp | sioen | int | pdresen | timerMode | timerOut | serialMode | cmpChannel | cmpReference | cmpStart
  | edgeMode | analogInput | pobDirection | permission | poeDirection | podDirection | pocDirection | poaDirection
  | request (f : RequestFlag)
  | unused
  | dm (a : DmAddr)
deriving DecidableEq, Repr

/-- The register file map (10_state.md R54, R56); the comparator's registers exist on `HAS_CMP` parts. -/
def rfReg (p : Part) (a : DmAddr) : RfReg :=
  if 0x40 ≤ a.toNat then .dm a
  else
    match a.toNat with
    | 0x01 => .sp
    | 0x0A => .sioen
    | 0x0F => .int
    | 0x10 => .pdresen
    | 0x11 => .timerMode
    | 0x12 => .timerOut
    | 0x1A => .serialMode
    | 0x1C => if hasCmp p then .cmpChannel else .unused
    | 0x1D => if hasCmp p then .cmpReference else .unused
    | 0x1E => if hasCmp p then .cmpStart else .unused
    | 0x1F => .edgeMode
    | 0x23 => if hasCmp p then .analogInput else .unused
    | 0x24 => .pobDirection
    | 0x2F => .permission
    | 0x32 => .poeDirection
    | 0x33 => .podDirection
    | 0x34 => .pocDirection
    | 0x35 => .poaDirection
    | 0x3D => .request .irqsio
    | 0x3E => .request .irqtm
    | 0x3F => .request .irq
    | _ => .unused

/-- `RfRead(a)` (20_memory.md R120; the bits of 10_state.md R54). -/
def rfRead (s : State) (a : DmAddr) : Nibble :=
  match rfReg s.part a with
  | .sp => 0#1 ++ s.sp
  | .sioen => nibbleOf false false false s.serial.sioen
  | .int => nibbleOf false false false s.env.int
  | .pdresen => nibbleOf false false false s.pdresen
  | .timerMode => BitVec.ofBool s.timer.tmen ++ 0#1 ++ s.timer.tmck
  | .timerOut => nibbleOf false false false s.timer.tmosel
  | .serialMode => BitVec.ofBool s.serial.siots ++ BitVec.ofBool s.serial.siohiz ++ s.serial.siock
  | .cmpChannel => 0#2 ++ s.comparator.cmpch
  | .cmpReference => s.comparator.cmpvref
  | .cmpStart => nibbleOf false false s.comparator.cmpstrt s.comparator.cmprslt
  | .edgeMode => 0#2 ++ s.interrupts.iegmd
  | .analogInput => s.ports.pocidi
  | .pobDirection => nibbleOf false false false s.ports.pobgio
  | .permission => nibbleOf false s.interrupts.ipsio s.interrupts.iptm s.interrupts.ip
  | .poeDirection => 0#2 ++ s.ports.poebio
  | .podDirection => s.ports.podbio
  | .pocDirection => s.ports.pocbio
  | .poaDirection => s.ports.poabio
  | .request f => nibbleOf false false false (requestFlag s f)
  | .unused => Config.freeBits 4 s.cycle .unusedControl
  | .dm b => dmRead s .first b

/-- `POKE` of the stack pointer 01H (10_state.md R31, R32). -/
def writeSp (s : State) (v : Nibble) : State :=
  if 6 ≤ (v.extractLsb' 0 3).toNat then internalReset s else { s with sp := v.extractLsb' 0 3 }

/-- `RfWrite(a, v)` with the side effects of R121 (20_memory.md R120). -/
def rfWrite (s : State) (a : DmAddr) (v : Nibble) : State :=
  match rfReg s.part a with
  | .sp => writeSp s v
  | .sioen => { s with serial := { s.serial with sioen := v.getLsbD 0 } }
  | .int => s
  | .pdresen => { s with pdresen := v.getLsbD 0 }
  | .timerMode => writeTimerMode s v
  | .timerOut => { s with timer := { s.timer with tmosel := v.getLsbD 0 } }
  | .serialMode => writeSerialMode s v
  | .cmpChannel => writeCmpChannel s v
  | .cmpReference => writeCmpReference s v
  | .cmpStart => writeCmpStart s v
  | .edgeMode => { s with interrupts := { s.interrupts with iegmd := v.extractLsb' 0 2 } }
  | .analogInput => { s with ports := { s.ports with pocidi := v } }
  | .pobDirection => { s with ports := { s.ports with pobgio := v.getLsbD 0 } }
  | .permission =>
    { s with interrupts :=
      { s.interrupts with ip := v.getLsbD 0, iptm := v.getLsbD 1, ipsio := v.getLsbD 2 } }
  | .poeDirection => { s with ports := { s.ports with poebio := v.extractLsb' 0 2 } }
  | .podDirection => { s with ports := { s.ports with podbio := v } }
  | .pocDirection => { s with ports := { s.ports with pocbio := v } }
  | .poaDirection => { s with ports := { s.ports with poabio := v } }
  | .request f => setRequest s f (v.getLsbD 0)
  | .unused => s
  | .dm b => dmWrite s b v

/-- IRQ_STALE after a `POKE` to `a`: the old request flag for 3DH to 3FH (10_state.md R68, 45_transfer.md R263). -/
def staleAfterPoke (s : State) (a : DmAddr) : Option (RequestFlag × Bool) :=
  match rfReg s.part a with
  | .request f => some (f, requestFlag s f)
  | _ => s.irqStale

/-! ### Peripheral registers and the data buffer -/

/-- The 16 bits of DBF, 0CH the most significant nibble (10_state.md R41). -/
def dbf (s : State) : BitVec 16 :=
  cellsRead s.ram 12 ++ cellsRead s.ram 13 ++ cellsRead s.ram 14 ++ cellsRead s.ram 15

/-- Load DBF1 and DBF0; DBF3 and DBF2 keep their contents (20_memory.md R126). -/
def setDbfLow (s : State) (v : BitVec 8) : State :=
  ramWrite (ramWrite s 14 (v.extractLsb' 4 4)) 15 (v.extractLsb' 0 4)

/-- Load all of DBF (20_memory.md R103). -/
def setDbf (s : State) (v : BitVec 16) : State :=
  setDbfLow (ramWrite (ramWrite s 12 (v.extractLsb' 12 4)) 13 (v.extractLsb' 8 4)) (v.extractLsb' 0 8)

/-- What `GET` obtains: its width and value (20_memory.md R125). -/
inductive PeriphValue where
  | byte (v : BitVec 8)
  | word (v : BitVec 16)
deriving DecidableEq, Repr

/-- `PeriphGet(p)` (20_memory.md R125; addresses the manual does not describe: R127, D6). -/
def periphGet (s : State) (p : BitVec 7) : PeriphValue :=
  match p.toNat with
  | 0x01 => .byte s.serial.sfr
  | 0x02 => .byte s.timer.tmc
  | 0x03 => .byte (Config.freeBits 8 s.cycle .modulo)
  | 0x40 => .word (0#6 ++ s.ar)
  | _ => .word (Config.freeBits 16 s.cycle .unknownPeripheral)

/-- `PeriphPut(p, d)` (20_memory.md R125, R127). -/
def periphPut (s : State) (p : BitVec 7) (d : BitVec 16) : State :=
  match p.toNat with
  | 0x01 => { s with serial := { s.serial with sfr := d.extractLsb' 0 8 } }
  | 0x03 => writeTmm s (d.extractLsb' 0 8)
  | 0x40 => { s with ar := d.extractLsb' 0 10 }
  | _ => s

end Sys2Proof.Machine
end

