-- ==== Sys2Proof/Machine/Resets.lean ====
section
/-! DEFINITION. The initialisation by `STOP 0000B` and the resets by the RESET input and the supply
(60_exceptions.md R436, 70_reset_and_hazards.md R461 to R466). The reset by the stack is `internalReset` (Ops.lean). -/

namespace Sys2Proof.Machine

/-- Everything that takes the value it has right after reset (10_state.md R67, R54, R57), over what no reset touches:
the chip, the environment, the phase of the dividers, INT_PREV. Address stack and interrupt stack are undefined (U1). -/
def initialised (s : State) : State :=
  { State.reset with
    part := s.part
    mask := s.mask
    rom := s.rom
    pc := s.pc
    asr := freeStack s
    intsk := freeFlags s
    ram := s.ram
    wr := s.wr
    timer := { State.reset.timer with presc := s.timer.presc }
    serial := { State.reset.serial with sfr := s.serial.sfr, divider := s.serial.divider, sck := sckLevel s 15 }
    interrupts := { State.reset.interrupts with intPrev := s.interrupts.intPrev }
    env := s.env
    pending := s.pending
    cycle := s.cycle }

/-- Data memory, DBF, WR and SIOSFR undefined (70_reset_and_hazards.md R462 column (a), 60_exceptions.md R436). -/
def forgetData (s t : State) : State :=
  { t with
    ram := freeRam s
    wr := Config.freeBits 4 s.cycle .window
    serial := { t.serial with sfr := Config.freeBits 8 s.cycle .shifter } }

/-- `StopInitialise()` (R436). -/
def stopInitialise (s : State) : State := forgetData s (initialised s)

/-- A standby mode is on, for the columns of R462. A wait is operation (R461 sets
`MODE` to Run before the wait after a reset; for that after a STOP release: log 15). -/
def inStandby (s : State) : Bool :=
  match s.mode with
  | .run => false
  | .halt _ => true
  | .stop _ => true
  | .stopWait => false
  | .resetWait _ _ => false

/-- Columns (a) to (d) of R462, and a true power-on: does this reset leave data memory, WR and SIOSFR undefined. -/
def losesData (kind : ResetKind) (s : State) : Bool :=
  match kind with
  | .resetPin => !inStandby s
  | .powerDown => false
  | .powerOn => true

/-- The instruction cycles of the wait after a reset: 256 x 256 system clocks (R461). -/
def resetWaitCycles : Nat := 4096

/-- `Reset(kind)` up to its wait (R461, R462): DBF is undefined after every reset, the phase of the dividers is unknown
since the oscillator was stopped (U6). -/
def applyReset (kind : ResetKind) (s : State) : State :=
  let t := { initialised s with ram := freeDbf s }
  let u := if losesData kind s then forgetData s t else t
  { u with
    pc := 0
    timer := { u.timer with presc := Config.freeBits 11 s.cycle .prescaler }
    serial := { u.serial with divider := Config.freeBits 10 s.cycle .serialDivider }
    interrupts := { u.interrupts with intPrev := s.env.int }
    mode := .resetWait kind resetWaitCycles }

/-- The RESET pin is low: a pin nothing drives is held high by its pull-up (R301, 10_state.md R66). -/
def resetPinLow (s : State) : Bool := !(s.env.resetOpen && s.mask.resetPin && !isProm s.part)

/-- A reset of this kind was applied in the cycle before: none of its wait has passed (R461, R465). -/
def resetHolds (kind : ResetKind) (m : Mode) : Bool := m == .resetWait kind resetWaitCycles

/-- The reset applied in this cycle, if any (R460, R461, R464, R465, R466): RESET low; supply below the detect level with
the power-down reset enabled, or not yet recovered from the fall that caused it; supply lost (log 16). -/
def resetRequest (s : State) : Option ResetKind :=
  match s.env.reset with
  | .inactive => none
  | .resetLow => if resetPinLow s then some .resetPin else none
  | .supplyLow => if s.pdresen || resetHolds .powerDown s.mode then some .powerDown else none
  | .supplyLost => some .powerOn

/-- A reset takes hold, or one that was applied in the cycle before holds on: then its column has been applied, and its wait,
of which nothing has passed, and INT_PREV are set again. A reset in the wait of another is a new one, from Run mode (R461;
log 15). -/
def takeReset (kind : ResetKind) (s : State) : State :=
  if resetHolds kind s.mode then { s with interrupts := { s.interrupts with intPrev := s.env.int } }
  else applyReset kind s

end Sys2Proof.Machine
end

