-- ==== Sys2Proof/Machine/Standby.lean ====
section
/-! DEFINITION. Entering the standby modes (47_interrupt_other.md R287, R288; 60_exceptions.md R430 to R436). -/

namespace Sys2Proof.Machine

/-- A request flag as `HALT` and `STOP` see it at their entry check: the old value for the flag that the preceding `POKE`
wrote (R434). -/
def staleRequest (s : State) (f : RequestFlag) : Bool :=
  match s.staleView with
  | some (g, old) => if g = f then old else requestFlag s f
  | none => requestFlag s f

/-- `HaltReleaseCondition(h)` over a view of the request flags (R288). -/
def haltRelease (view : RequestFlag → Bool) (i : Interrupts) (h : Nibble) : Bool :=
  (h.getLsbD 3 && ((view .irq && i.ip) || (view .irqtm && i.iptm) || (view .irqsio && i.ipsio))) ||
    (h.getLsbD 1 && view .irqtm)

/-- `StopReleaseCondition` over a view of the request flags (R287). -/
def stopRelease (view : RequestFlag → Bool) (i : Interrupts) : Bool :=
  (view .irq && i.ip) || (view .irqsio && i.ipsio)

/-- Enter HALT mode (R288); a running comparison is interrupted and its result becomes undefined (D25). -/
def enterHalt (s : State) (h : Nibble) : State :=
  { s with
    mode := .halt h
    comparator := { s.comparator with tainted := s.comparator.tainted || s.comparator.cmpstrt } }

/-- Enter STOP mode with a release condition (R287): IRQTM and TMC cleared, a running comparison abandoned. -/
def enterStop (s : State) (v : Nibble) : State :=
  { s with
    mode := .stop v
    interrupts := { s.interrupts with irqtm := false }
    timer := { s.timer with tmc := 0 }
    comparator := { s.comparator with cmpstrt := false, remaining := 0, tainted := false } }

/-- `HALT h` for an operand whose fixed bits are 0 (R288, R292). -/
def haltLegal (s : State) (h : Nibble) : State :=
  if haltRelease (staleRequest s) s.interrupts h then s else enterHalt s h

/-- `STOP s` for an operand whose fixed bits are 0 (R287, R293). -/
def stopLegal (s : State) (v : Nibble) : State :=
  if v = 0 then { stopInitialise s with mode := .stop 0 }
  else if stopRelease (staleRequest s) s.interrupts then s
  else enterStop s v

end Sys2Proof.Machine
end

