-- ==== Sys2Proof/Machine/Cycle.lean ====
section
/-! DEFINITION. One instruction cycle of everything but the CPU: the environment's next levels, the timer, the serial
interface, the comparator, the INT pin (50_peripherals.md R300; 60_exceptions.md R413, R432, R435). -/

namespace Sys2Proof.Machine

/-- A wave that stays at its last level. -/
def holdWave (w : BitVec 16) : BitVec 16 := if w.getLsbD 15 then 0xFFFF else 0

/-- The levels of the next cycle: the next record, or the present levels held (R301, log 8). -/
def nextInputs (s : State) : State :=
  match s.pending with
  | [] => { s with env := { s.env with sckWave := holdWave s.env.sckWave, siWave := holdWave s.env.siWave } }
  | e :: rest => { s with env := e, pending := rest }

/-- Does this pair of levels set IRQ (R413; IEGMD = 11B: D16). -/
def edgeSetsIrq (iegmd : BitVec 2) (prev new : Bool) : Bool :=
  match iegmd.toNat with
  | 0 => !prev && new
  | 1 => prev && !new
  | 2 => prev != new
  | _ => Config.iegmd11 prev new

/-- The INT pin has a falling edge in this cycle (R413). -/
def intFalls (s : State) : Bool := s.interrupts.intPrev && !s.env.int

/-- `IntPinSample()` but for the timer's count (R413). -/
def intEdge (s : State) : State :=
  { s with interrupts :=
    { s.interrupts with
      irq := s.interrupts.irq || edgeSetsIrq s.interrupts.iegmd s.interrupts.intPrev s.env.int
      intPrev := s.env.int } }

/-- `IntPinSample()` (R413): with TMCK = 11B a falling edge is a count pulse of the running timer (R333, D17). -/
def intPinSample (s : State) : State :=
  let t := if s.timer.tmck = 3 && s.timer.tmen && intFalls s then timerCount s else s
  intEdge t

/-- The model's cycle counter, by which free values are indexed (log 10). -/
def tick (s : State) : State := { s with cycle := s.cycle + 1 }

/-- `AdvancePeripherals()` in Run and HALT mode (R300); the comparator stands still in HALT mode (R432). -/
def advanceRunning (s : State) : State :=
  let t := sioCycle (timerCycle (nextInputs s))
  let u := match t.mode with
    | .run => comparatorCycle t
    | _ => t
  tick (timerIrregular (intPinSample u))

/-- The serial interface without a system clock: only the external clock acts (R354, R432). -/
def sioStopped (s : State) : State := if s.serial.siock = 0 then sioExternal s else s

/-- A cycle of STOP mode (R300, R432): external serial clock and INT pin only. -/
def advanceStopped (s : State) : State := tick (intEdge (sioStopped (nextInputs s)))

/-- The peripherals' part of the cycle of an instruction or of HALT or STOP mode. -/
def advanceCycle (s : State) : State :=
  match s.mode with
  | .stop _ => advanceStopped s
  | _ => advanceRunning s

/-- One cycle of HALT mode, then its release (R432, R431). -/
def haltCycle (h : Nibble) (s : State) : State :=
  let t := advanceCycle s
  if haltRelease (requestFlag t) t.interrupts h then { t with mode := .run } else t

/-- One cycle of STOP mode, then its release into the wait, which counts from TMC = 00H (R432, R435). -/
def stopCycle (v : Nibble) (s : State) : State :=
  let t := advanceCycle s
  if v.getLsbD 3 && stopRelease (requestFlag t) t.interrupts then
    { t with mode := .stopWait, timer := { t.timer with tmc := 0 } }
  else t

/-- A count pulse of the wait after a STOP release comes in this cycle, `s` being the state with the cycle's inputs
(R435, D24: of the clock TMCK selects; TMEN = 0 is undecided). -/
def waitPulse (s : State) : Bool :=
  (s.timer.tmen || Config.stopWaitWithoutTmen) && (pulseFalls s || (s.timer.tmck = 3 && intFalls s))

/-- The end of the wait after a STOP release: IRQTM and TMC are undefined (R435, U7). -/
def endStopWait (s : State) : State :=
  { s with
    mode := .run
    timer := { s.timer with tmc := Config.freeBits 8 s.cycle .countAfterStop }
    interrupts := { s.interrupts with irqtm := (Config.freeBits 1 s.cycle .requestAfterStop).getLsbD 0 } }

/-- What goes on during the wait after a STOP release: the prescaler, the external serial clock, the INT pin (log 17). -/
def waitAdvance (s : State) : State :=
  intEdge (sioStopped { s with timer := { s.timer with presc := s.timer.presc + 16 } })

/-- A count of the wait after a STOP release: TMM + 1 of them end it (R435). With TMM = 00H, for which R336 leaves counting
unspecified, the first one does (DESIGN CHOICE, log 17). -/
def waitCount (s : State) : State :=
  if s.timer.tmc = s.timer.tmm then endStopWait s else { s with timer := { s.timer with tmc := s.timer.tmc + 1 } }

/-- One cycle of the wait after a STOP release (R435): no instruction. -/
def stopWaitCycle (s : State) : State :=
  let t := nextInputs s
  tick (if waitPulse t then waitCount (waitAdvance t) else waitAdvance t)

/-- One cycle of the wait after a reset (70_reset_and_hazards.md R461): the dividers run, no instruction. INT_PREV keeps the
level the reset gave it and no edge is looked for, so that the first instruction finds IRQ = 0 (10_state.md R67) and its
cycle compares the pin with its level at the reset (DEDUCED, log 14). -/
def resetWaitCycle (kind : ResetKind) (left : Nat) (s : State) : State :=
  let t := nextInputs s
  tick
    { t with
      mode := if left ≤ 1 then .run else .resetWait kind (left - 1)
      timer := { t.timer with presc := t.timer.presc + 16 }
      serial := { t.serial with divider := t.serial.divider + 16, sck := sckLevel t 15 } }

/-- A cycle in which a reset is applied (R461, R464, R465). -/
def resetCycle (kind : ResetKind) (s : State) : State := tick (nextInputs (takeReset kind s))

end Sys2Proof.Machine
end

