-- ==== Sys2Proof/Machine/Operands.lean ====
section
/-! DEFINITION. The operand forms: general register `r`, data memory `m` with index modification, and the indirect
operand `@r` (20_memory.md R112 to R115). -/

namespace Sys2Proof.Machine

/-- `EAm(m)` (R112). -/
def eaM (s : State) (m : DmAddr) : Except Fault DmAddr :=
  if s.psw.ixe && s.mpe then .error .prohibitedIndexMode
  else if s.psw.ixe then .ok (m ||| s.ix)
  else .ok m

/-- `EAr(r)` (R113): row RP, column `r`, never modified. -/
def eaR (s : State) (r : BitVec 4) : DmAddr := s.rp ++ r

/-- The row of the indirect address (R114), for a setting that is not the prohibited one. -/
def indRow (s : State) (m : DmAddr) : BitVec 3 :=
  if s.mpe then s.ix.extractLsb' 4 3
  else if s.psw.ixe then m.extractLsb' 4 3 ||| s.ix.extractLsb' 4 3
  else m.extractLsb' 4 3

/-- `EAind(m, r)` (R114): the column is the content of general register `r`. -/
def eaInd (s : State) (m : DmAddr) (r : BitVec 4) : Except Fault DmAddr :=
  if s.psw.ixe && s.mpe then .error .prohibitedIndexMode
  else .ok (indRow s m ++ dmRead s .pointer (eaR s r))

/-- Go on with an operand address, or stop where the spec gives it no meaning (60_exceptions.md R404). -/
def withAddress (a : Except Fault DmAddr) (k : DmAddr → State) : Result :=
  match a with
  | .ok x => .next (k x)
  | .error f => .fault f

/-- `Skip()` (43_test_compare.md R233, 10_state.md R60). -/
def skipNext (s : State) : State := { s with skip := true }

/-- Skip the next instruction if a condition holds. -/
def skipIf (c : Bool) (s : State) : State := if c then skipNext s else s

end Sys2Proof.Machine
end

