-- ==== Sys2Proof/Machine/Flags.lean ====
section
/-! DEFINITION. Nibble arithmetic, binary and BCD, and its flags (40_add.md R201, R202, R203, R209). -/

namespace Sys2Proof.Machine

/-- What the ALU delivers: the result nibble and the carry or borrow. -/
structure AluResult where
  res : Nibble
  cy : Bool
deriving DecidableEq, Repr

/-- `AddBin(a, b, c)` (R201). -/
def addBin (a b : Nibble) (c : Bool) : AluResult :=
  let s := a.toNat + b.toNat + c.toNat
  { res := BitVec.ofNat 4 s, cy := decide (16 ≤ s) }

/-- `SubBin(a, b, c)` (R201): the difference modulo 16 and the borrow. -/
def subBin (a b : Nibble) (c : Bool) : AluResult :=
  let d : Int := (a.toNat : Int) - b.toNat - c.toNat
  { res := BitVec.ofInt 4 d, cy := decide (d < 0) }

/-- `BCD_ADD_RES` (R202), indexed by the sum. -/
def bcdAddRes : List Nibble :=
  [0, 1, 2, 3, 4, 5, 6, 7, 8, 9, 0, 1, 2, 3, 4, 5, 6, 7, 8, 9, 14, 15, 12, 13, 14, 15, 12, 13, 10, 11, 12, 13]

/-- `BCD_SUB_RES` (R202), indexed by 16 times the binary borrow plus the binary result. -/
def bcdSubRes : List Nibble :=
  [0, 1, 2, 3, 4, 5, 6, 7, 8, 9, 12, 13, 14, 15, 12, 13, 14, 15, 12, 13, 14, 15, 0, 1, 2, 3, 4, 5, 6, 7, 8, 9]

/-- `AddBcd(a, b, c)` (R202). -/
def addBcd (a b : Nibble) (c : Bool) : AluResult :=
  let s := a.toNat + b.toNat + c.toNat
  { res := bcdAddRes.getD s 0, cy := decide (10 ≤ s) }

/-- `SubBcd(a, b, c)` (R202). -/
def subBcd (a b : Nibble) (c : Bool) : AluResult :=
  let d := subBin a b c
  let i := 16 * d.cy.toNat + d.res.toNat
  { res := bcdSubRes.getD i 0, cy := decide (10 ≤ i) }

/-- The adder, as the BCD flag selects it. -/
def aluAdd (bcd : Bool) (a b : Nibble) (c : Bool) : AluResult := if bcd then addBcd a b c else addBin a b c

/-- The subtracter, as the BCD flag selects it. -/
def aluSub (bcd : Bool) (a b : Nibble) (c : Bool) : AluResult := if bcd then subBcd a b c else subBin a b c

/-- The Z flag after an arithmetic operation (10_state.md R50, 40_add.md R203). -/
def zAfter (p : Psword) (res : Nibble) : Bool := if res = 0 then (if p.cmp then p.z else true) else false

/-- `ArithCommit(dest, res, cy, cmp)` (R203): the flags first, then the store, so that a store to PSW wins (R209). -/
def arithCommit (s : State) (dest : DmAddr) (x : AluResult) : State :=
  let t := { s with psw := { s.psw with cy := x.cy, z := zAfter s.psw x.res } }
  if s.psw.cmp then t else dmWrite t dest x.res

/-- An arithmetic instruction of form `r, m`; `c` is the carry in (R204, R206, R216, R218). -/
def arithRM (alu : Bool → Nibble → Nibble → Bool → AluResult) (c : Bool) (r : BitVec 4) (m : DmAddr) (s : State) :
    Result :=
  withAddress (eaM s m) fun ma =>
    arithCommit s (eaR s r) (alu s.psw.bcd (dmRead s .first (eaR s r)) (dmRead s .second ma) c)

/-- An arithmetic instruction of form `m, #n4` (R205, R207, R217, R219). -/
def arithMI (alu : Bool → Nibble → Nibble → Bool → AluResult) (c : Bool) (m : DmAddr) (n4 : Nibble) (s : State) :
    Result :=
  withAddress (eaM s m) fun ma => arithCommit s ma (alu s.psw.bcd (dmRead s .first ma) n4 c)

/-- A logical instruction of form `r, m`: always stores, touches no flag (42_logic.md R225). -/
def logicRM (op : Nibble → Nibble → Nibble) (r : BitVec 4) (m : DmAddr) (s : State) : Result :=
  withAddress (eaM s m) fun ma => dmWrite s (eaR s r) (op (dmRead s .first (eaR s r)) (dmRead s .second ma))

/-- A logical instruction of form `m, #n4` (42_logic.md R225). -/
def logicMI (op : Nibble → Nibble → Nibble) (m : DmAddr) (n4 : Nibble) (s : State) : Result :=
  withAddress (eaM s m) fun ma => dmWrite s ma (op (dmRead s .first ma) n4)

/-- A bit test: the nibble as it was decides the skip, CMP is cleared (43_test_compare.md R239). -/
def bitTest (holds : Nibble → Bool) (m : DmAddr) (s : State) : Result :=
  withAddress (eaM s m) fun ma =>
    skipIf (holds (dmRead s .first ma)) { s with psw := { s.psw with cmp := false } }

/-- A comparison with an immediate: nothing but the skip (43_test_compare.md R235). -/
def compareSkip (holds : Nibble → Bool) (m : DmAddr) (s : State) : Result :=
  withAddress (eaM s m) fun ma => skipIf (holds (dmRead s .first ma)) s

end Sys2Proof.Machine
end

