-- ==== Sys2Proof/Machine/Add.lean ====
section
/-! DEFINITION. The addition instructions (40_add.md). -/

namespace Sys2Proof.Machine

/-- `ADD r, m` (R204). -/
def execAddRM (r : BitVec 4) (m : BitVec 7) (s : State) : Result := arithRM aluAdd false r m s

/-- `ADD m, #n4` (R205). -/
def execAddMI (m : BitVec 7) (n4 : BitVec 4) (s : State) : Result := arithMI aluAdd false m n4 s

/-- `ADDC r, m` (R206). -/
def execAddcRM (r : BitVec 4) (m : BitVec 7) (s : State) : Result := arithRM aluAdd s.psw.cy r m s

/-- `ADDC m, #n4` (R207). -/
def execAddcMI (m : BitVec 7) (n4 : BitVec 4) (s : State) : Result := arithMI aluAdd s.psw.cy m n4 s

/-- `INC AR` (R208): modulo 1024, no flag. -/
def execIncAR (s : State) : Result := .next { s with ar := s.ar + 1 }

/-- `INC IX` (R243): modulo 128, no flag, MPE stays. -/
def execIncIX (s : State) : Result := .next { s with ix := s.ix + 1 }

end Sys2Proof.Machine
end

