-- ==== Sys2Proof/Machine/Branch.lean ====
section
/-! DEFINITION. The branch and subroutine instructions (46_branch_subroutine.md). The pc of the state is already that of
the next word (30_encoding.md R141). -/

namespace Sys2Proof.Machine

/-- The low 10 bits of an address field (R270, R272). -/
def target (addr : BitVec 11) : RomAddr := addr.extractLsb' 0 10

/-- Push the return address and go to a subroutine, or raise the internal reset (R272, R273). -/
def callTo (s : State) (a : RomAddr) : State :=
  match push s s.pc with
  | none => internalReset s
  | some t => { t with pc := a }

/-- Pop the return address into pc, or raise the internal reset (R274). -/
def returnTo (s : State) : State :=
  match pop s with
  | none => internalReset s
  | some (v, t) => { t with pc := v }

/-- `BR addr` (R270). -/
def execBr (addr : BitVec 11) (s : State) : Result := .next { s with pc := target addr }

/-- `BR @AR` (R271). -/
def execBrAR (s : State) : Result := .next { s with pc := s.ar }

/-- `CALL addr` (R272). -/
def execCall (addr : BitVec 11) (s : State) : Result := .next (callTo s (target addr))

/-- `CALL @AR` (R273). -/
def execCallAR (s : State) : Result := .next (callTo s s.ar)

/-- `RET` (R274). -/
def execRet (s : State) : Result := .next (returnTo s)

/-- `RETSK` (R275); the internal reset abandons the skip (60_exceptions.md R402). -/
def execRetsk (s : State) : Result :=
  match pop s with
  | none => .next (internalReset s)
  | some (v, t) => .next (skipNext { t with pc := v })

/-- `RETI` (R276). -/
def execReti (s : State) : Result := .next (returnFromInterrupt s)

end Sys2Proof.Machine
end

