-- ==== Sys2Proof/Machine/Logic.lean ====
section
/-! DEFINITION. The logical instructions (42_logic.md). -/

namespace Sys2Proof.Machine

/-- `OR r, m` (R226). -/
def execOrRM (r : BitVec 4) (m : BitVec 7) (s : State) : Result := logicRM (fun a b => a ||| b) r m s

/-- `OR m, #n4` (R227). -/
def execOrMI (m : BitVec 7) (n4 : BitVec 4) (s : State) : Result := logicMI (fun a b => a ||| b) m n4 s

/-- `AND r, m` (R228). -/
def execAndRM (r : BitVec 4) (m : BitVec 7) (s : State) : Result := logicRM (fun a b => a &&& b) r m s

/-- `AND m, #n4` (R229). -/
def execAndMI (m : BitVec 7) (n4 : BitVec 4) (s : State) : Result := logicMI (fun a b => a &&& b) m n4 s

/-- `XOR r, m` (R230). -/
def execXorRM (r : BitVec 4) (m : BitVec 7) (s : State) : Result := logicRM (fun a b => a ^^^ b) r m s

/-- `XOR m, #n4` (R231). -/
def execXorMI (m : BitVec 7) (n4 : BitVec 4) (s : State) : Result := logicMI (fun a b => a ^^^ b) m n4 s

end Sys2Proof.Machine
end

