-- ==== Sys2Proof/Machine/Rotate.lean ====
section
/-! DEFINITION. The rotation (44_rotate.md). -/

namespace Sys2Proof.Machine

/-- `RORC r` (R240): CY first, the store last, so that a store to PSW wins (D12). -/
def execRorc (r : BitVec 4) (s : State) : Result :=
  let a := dmRead s .first (eaR s r)
  .next (dmWrite { s with psw := { s.psw with cy := a.getLsbD 0 } } (eaR s r)
    (BitVec.ofBool s.psw.cy ++ a.extractLsb' 1 3))

end Sys2Proof.Machine
end

