-- ==== Sys2Proof/Machine/Subtract.lean ====
section
/-! DEFINITION. The subtraction instructions (41_subtract.md). -/

namespace Sys2Proof.Machine

/-- `SUB r, m` (R216). -/
def execSubRM (r : BitVec 4) (m : BitVec 7) (s : State) : Result := arithRM aluSub false r m s

/-- `SUB m, #n4` (R217). -/
def execSubMI (m : BitVec 7) (n4 : BitVec 4) (s : State) : Result := arithMI aluSub false m n4 s

/-- `SUBC r, m` (R218). -/
def execSubcRM (r : BitVec 4) (m : BitVec 7) (s : State) : Result := arithRM aluSub s.psw.cy r m s

/-- `SUBC m, #n4` (R219). -/
def execSubcMI (m : BitVec 7) (n4 : BitVec 4) (s : State) : Result := arithMI aluSub s.psw.cy m n4 s

end Sys2Proof.Machine
end

