-- ==== Sys2Proof/Machine/System.lean ====
section
/-! DEFINITION. The interrupt and standby instructions and NOP (47_interrupt_other.md). -/

namespace Sys2Proof.Machine

/-- `EI` (R285). -/
def execEi (s : State) : Result := .next { s with inte := true, eiHold := true }

/-- `DI` (R286). -/
def execDi (s : State) : Result := .next { s with inte := false }

/-- `STOP s` (R287, R293); bits 2 to 0 of the operand are fixed at 0. -/
def execStop (v : BitVec 4) (s : State) : Result :=
  if v.extractLsb' 0 3 ≠ 0 then .fault (.stopOperandFixedBit v) else .next (stopLegal s v)

/-- `HALT h` (R288, R292); bits 2 and 0 of the operand are fixed at 0. -/
def execHalt (h : BitVec 4) (s : State) : Result :=
  if h.getLsbD 2 || h.getLsbD 0 then .fault (.haltOperandFixedBit h) else .next (haltLegal s h)

/-- `NOP` (R289). -/
def execNop (s : State) : Result := .next s

end Sys2Proof.Machine
end

