-- ==== Sys2Proof/Machine/TestCompare.lean ====
section
/-! DEFINITION. The bit tests and the comparisons (43_test_compare.md). -/

namespace Sys2Proof.Machine

/-- `SKT m, #n` (R234). -/
def execSkt (m : BitVec 7) (n : BitVec 4) (s : State) : Result := bitTest (fun v => v &&& n == n) m s

/-- `SKF m, #n` (R245). -/
def execSkf (m : BitVec 7) (n : BitVec 4) (s : State) : Result := bitTest (fun v => v &&& n == 0) m s

/-- `SKE m, #n4` (R246). -/
def execSke (m : BitVec 7) (n4 : BitVec 4) (s : State) : Result := compareSkip (fun v => v == n4) m s

/-- `SKNE m, #n4` (R247). -/
def execSkne (m : BitVec 7) (n4 : BitVec 4) (s : State) : Result := compareSkip (fun v => v != n4) m s

/-- `SKGE m, #n4` (R248). -/
def execSkge (m : BitVec 7) (n4 : BitVec 4) (s : State) : Result :=
  compareSkip (fun v => decide (n4.toNat ≤ v.toNat)) m s

/-- `SKLT m, #n4` (R249). -/
def execSklt (m : BitVec 7) (n4 : BitVec 4) (s : State) : Result :=
  compareSkip (fun v => decide (v.toNat < n4.toNat)) m s

end Sys2Proof.Machine
end

