-- ==== Sys2Proof/Machine/Transfer.lean ====
section
/-! DEFINITION. The transfer instructions (45_transfer.md). -/

namespace Sys2Proof.Machine

/-- `LD r, m` (R250). -/
def execLd (r : BitVec 4) (m : BitVec 7) (s : State) : Result :=
  withAddress (eaM s m) fun ma => dmWrite s (eaR s r) (dmRead s .second ma)

/-- `ST m, r` (R251). -/
def execSt (m : BitVec 7) (r : BitVec 4) (s : State) : Result :=
  withAddress (eaM s m) fun ma => dmWrite s ma (dmRead s .first (eaR s r))

/-- `MOV @r, m` (R252). -/
def execMovToInd (r : BitVec 4) (m : BitVec 7) (s : State) : Result :=
  match eaM s m with
  | .ok ma => withAddress (eaInd s m r) fun da => dmWrite s da (dmRead s .second ma)
  | .error f => .fault f

/-- `MOV m, @r` (R253). -/
def execMovFromInd (m : BitVec 7) (r : BitVec 4) (s : State) : Result :=
  match eaM s m with
  | .ok ma => withAddress (eaInd s m r) fun sa => dmWrite s ma (dmRead s .second sa)
  | .error f => .fault f

/-- `MOV m, #n4` (R254). -/
def execMovMI (m : BitVec 7) (n4 : BitVec 4) (s : State) : Result := withAddress (eaM s m) fun ma => dmWrite s ma n4

/-- `MOVT DBF, @AR` (R258). Without a stack level it raises the internal reset and transfers nothing. -/
def execMovt (s : State) : Result :=
  match push s s.pc with
  | none => .next (internalReset s)
  | some t =>
    match pop (setDbf t (romRead s s.ar)) with
    | none => .next (internalReset s)
    | some (v, u) => .next { u with pc := v }

/-- `PUSH AR` (R259). -/
def execPushAR (s : State) : Result := .next ((push s s.ar).getD (internalReset s))

/-- `POP AR` (R264). -/
def execPopAR (s : State) : Result :=
  match pop s with
  | none => .next (internalReset s)
  | some (v, t) => .next { t with ar := v }

/-- `PEEK WR, rf` (R255). -/
def execPeek (rf : BitVec 7) (s : State) : Result := .next { s with wr := rfRead s rf }

/-- `POKE rf, WR` (R263). -/
def execPoke (rf : BitVec 7) (s : State) : Result :=
  .next (rfWrite { s with irqStale := staleAfterPoke s rf } rf s.wr)

/-- `GET DBF, p` (R256). -/
def execGet (p : BitVec 7) (s : State) : Result :=
  match periphGet s p with
  | .byte v => .next (setDbfLow s v)
  | .word v => .next (setDbf s v)

/-- `PUT p, DBF` (R257). -/
def execPut (p : BitVec 7) (s : State) : Result := .next (periphPut s p (dbf s))

end Sys2Proof.Machine
end

