-- ==== Sys2Proof/Machine/Boundary.lean ====
section
/-! DEFINITION. The instruction boundary: interrupt check, fetch, decode, execute, advance (60_exceptions.md R420,
30_encoding.md R141), and one step in each of the other modes. -/

namespace Sys2Proof.Machine

/-- The fetch's effect: pc on to the next word, IRQ_STALE sampled and ended (30_encoding.md R141); EI_HOLD ended
(60_exceptions.md R420). -/
def fetched (s : State) : State :=
  { s with pc := s.pc + 1, eiHold := false, staleView := s.irqStale, irqStale := none }

/-- The instruction cycles of an instruction (70_reset_and_hazards.md R475): two for a `MOVT` that completes, one for
every other and for a `MOVT` that the internal reset abandons (log 23). -/
def instructionCycles (i : Instr) (s : State) : Nat :=
  if i = .movt ∧ (push s s.pc).isSome then 2 else 1

/-- `AdvancePeripherals` once or twice (50_peripherals.md R300). The two cycles of a `MOVT` take one record of the
environment each; a reset that the first of them alone applies passes unseen (DESIGN CHOICE, log 35). -/
def advanceBy (n : Nat) (s : State) : State := if n = 2 then advanceCycle (advanceCycle s) else advanceCycle s

/-- Execute an instruction at the state its fetch leaves, then advance the peripherals (R420). An internal reset that it
raises adds no cycle (DESIGN CHOICE, log 23). -/
def executeAt (i : Instr) (s : State) : Result :=
  match exec i s with
  | .next t => .next (advanceBy (instructionCycles i s) t)
  | .fault f => .fault f
  | .refused r => .refused r

/-- `FetchExecute()` and the cycle it takes (30_encoding.md R141): a word to be skipped is not decoded. -/
def fetchExecute (s : State) : Result :=
  if s.skip then .next (advanceCycle { fetched s with skip := false })
  else
    match decode (romRead s s.pc) with
    | .ok i => executeAt i (fetched s)
    | .error _ => .refused (.unassignedWord (romRead s s.pc))

/-- The source whose interrupt is accepted at this boundary (R420, R422, R423). -/
def acceptable (s : State) : Option RequestFlag :=
  if s.inte && !s.skip && !s.eiHold then highestPending s else none

/-- `Boundary()` (R420): the INT cycle of an accepted interrupt, or an instruction. An internal reset that the acceptance
raises adds no cycle (DESIGN CHOICE, log 23). -/
def boundary (s : State) : Result :=
  match acceptable s with
  | some src => .next (advanceCycle (acceptInterrupt s src))
  | none => fetchExecute s

/-- One step: a reset overrides all; else what the mode does in a cycle (R420, R432, R435; 70_reset_and_hazards.md R461).
The reset line is looked at when a step starts, by the levels of the cycle before (DESIGN CHOICE, log 35). -/
def stepBody (s : State) : Result :=
  match resetRequest s with
  | some kind => .next (resetCycle kind s)
  | none =>
    match s.mode with
    | .run => boundary s
    | .halt h => .next (haltCycle h s)
    | .stop v => .next (stopCycle v s)
    | .stopWait => .next (stopWaitCycle s)
    | .resetWait kind left => .next (resetWaitCycle kind left s)

/-- The address the next instruction is fetched from once a word is placed there: pc, or 000H where the part has no
program memory at pc. -/
def placeAddress (s : State) : RomAddr := if s.pc.toNat < romWords s.part then s.pc else 0

/-- Put a word where the next step fetches and clear what would keep that step from running it: a reset, a standby mode or
wait, a pending skip, an interrupt about to be accepted (log 31). -/
def placeWord (s : State) (w : ProgWord) : State :=
  { s with
    pc := placeAddress s
    rom := cellsWrite s.rom (placeAddress s).toNat w
    mode := .run
    skip := false
    eiHold := s.eiHold || s.inte && (highestPending s).isSome
    env := { s.env with reset := .inactive } }

end Sys2Proof.Machine
end

