-- ==== Sys2Proof/Machine/Step.lean ====
section
/-! DEFINITION. One step of the machine, and a word placed where the next step fetches. -/

namespace Sys2Proof.Machine

/-- One step (60_exceptions.md R420, R432; 70_reset_and_hazards.md R461). -/
def step (s : State) : Host.Outcome State Fault Refusal := stepBody s

/-- `s` with an instruction word, numbered as spec/opcode_table.json numbers its bits, where the next step fetches. -/
def State.withFetchWord (s : State) (nbits w : Nat) : State := placeWord s (BitVec.ofNat 16 (w % 2 ^ nbits))

end Sys2Proof.Machine
end

