-- ==== Sys2Proof/Safety.lean ====
section
/-! DEFINITION. The terms in which claims are made: the invariant that every step keeps, and what it means that a state
differs from another in one data memory nibble only. -/

namespace Sys2Proof.Machine

/-! ### The invariant -/

/-- The comparator is idle, or runs on a part that has one with its remaining cycles in range (50_peripherals.md R343,
10_state.md R64). -/
def comparatorLegal (p : Part) (c : Comparator) : Prop :=
  if c.cmpstrt then hasCmp p = true ∧ 1 ≤ c.remaining ∧ c.remaining ≤ cmpCycles p + 1
  else c.remaining = 0 ∧ c.tainted = false

/-- The mode is one the instructions and the resets can leave (47_interrupt_other.md R292, R293; 70_reset_and_hazards.md
R461): legal release conditions, a wait within its length. -/
def modeLegal (m : Mode) : Prop :=
  match m with
  | .run => True
  | .halt h => h.getLsbD 2 = false ∧ h.getLsbD 0 = false
  | .stop v => v = 0 ∨ v = 8
  | .stopWait => True
  | .resetWait _ left => 1 ≤ left ∧ left ≤ resetWaitCycles

/-- Outside Run mode nothing is pending that only an instruction boundary could use up: no skip, no EI_HOLD, no
IRQ_STALE (10_state.md R60, 60_exceptions.md R431, 10_state.md R68). -/
def idleLegal (s : State) : Prop :=
  s.mode = .run ∨ (s.skip = false ∧ s.eiHold = false ∧ s.irqStale = none)

/-- The invariant of the machine. -/
structure Inv (s : State) : Prop where
  /-- Data memory is in canonical form and lists implemented nibbles only (20_memory.md R111). -/
  ram : cellsWf (ramNibbles s.part) s.ram
  /-- Program memory likewise (20_memory.md R104). -/
  rom : cellsWf (romWords s.part) s.rom
  /-- The stack pointer is at most 5: 6 and 7 reset the machine (10_state.md R32). -/
  sp : s.sp.toNat ≤ 5
  /-- Fewer than eight serial clocks are counted: the eighth ends the transfer (50_peripherals.md R354). -/
  cnt : s.serial.cnt < 8
  comparator : comparatorLegal s.part s.comparator
  mode : modeLegal s.mode
  idle : idleLegal s
  /-- A timer that runs with TMM = 00H is marked irregular (50_peripherals.md R336). -/
  timer : s.timer.tmen = true → s.timer.tmm = 0 → s.timer.irregular = true

/-! ### Words -/

/-- An instruction word of a format with a data memory operand, as the rules print it: the base word plus the address shifted
left by 4 plus the low field (30_encoding.md R143). -/
def wordOf (base : ProgWord) (m : DmAddr) (low : BitVec 4) : ProgWord := base + (m.setWidth 16 <<< 4) + low.setWidth 16

/-! ### Frames -/

/-- The state without data memory, system registers and port latches (with the mark that the shifter changed one). -/
def besidesData (s : State) : State :=
  { s with
    ram := []
    ar := 0
    wr := 0
    mpe := false
    ix := 0
    rp := 0
    psw := .clear
    ports := { s.ports with poaL := 0, pobL := 0, pocL := 0, podL := 0, poeL := 0, soUsed := false } }

/-- The bits of a data memory nibble that a write changes (10_state.md R44, R52, R53; 20_memory.md R111). -/
def writableBits (p : Part) (a : DmAddr) : Nibble :=
  match dmCell p a with
  | .ram _ => 0b1111
  | .unmapped => 0
  | .poe => 0b0011
  | .poa => 0b1111
  | .pob => 0b1111
  | .poc => 0b1111
  | .pod => 0b1111
  | .ar3 => 0
  | .ar2 => 0b0011
  | .ar1 => 0b1111
  | .ar0 => 0b1111
  | .wr => 0b1111
  | .bank => 0
  | .ixh => 0b1000
  | .ixm => 0b0111
  | .ixl => 0b1111
  | .rph => 0
  | .rpl => 0b1111
  | .psw => 0b1111

/-- What the machine holds at a data memory address: the latch for a port register, 0 for an unimplemented nibble, and
what a read returns for every other. -/
def heldNibble (s : State) (a : DmAddr) : Nibble :=
  match dmCell s.part a with
  | .ram n => cellsRead s.ram n
  | .unmapped => 0
  | .poe => 0#2 ++ s.ports.poeL
  | .poa => s.ports.poaL
  | .pob => s.ports.pobL
  | .poc => s.ports.pocL
  | .pod => s.ports.podL
  | _ => dmRead s .first a

/-- `t` is `s` with `v` stored at data memory address `a` and nothing else changed: the writable bits of the nibble at `a`
are those of `v`, the nibble held at every other address is as it was, so is what a read of any other address gives, and
so is everything outside data memory. -/
structure StoredAt (s t : State) (a : DmAddr) (v : Nibble) : Prop where
  here : heldNibble t a = v &&& writableBits s.part a
  elsewhere : ∀ b, b ≠ a → heldNibble t b = heldNibble s b
  reads : ∀ slot b, b ≠ a → dmRead t slot b = dmRead s slot b
  besides : besidesData t = besidesData s

/-- `t` is what an arithmetic instruction with result `x` and destination `dest` leaves of `s` (40_add.md R203): CY is the
carry or borrow, Z is cleared by a nonzero result and otherwise set unless CMP = 1; with CMP = 1 nothing else changes,
with CMP = 0 the result is stored after the flags. -/
structure ArithResult (s t : State) (dest : DmAddr) (x : AluResult) : Prop where
  compared : s.psw.cmp = true → t = { s with psw := { s.psw with cy := x.cy, z := decide (x.res = 0) && s.psw.z } }
  stored : s.psw.cmp = false →
    StoredAt { s with psw := { s.psw with cy := x.cy, z := decide (x.res = 0) } } t dest x.res
  reads : ∀ slot b, b ≠ dest → b ≠ 0x7F → dmRead t slot b = dmRead s slot b

/-- `t` holds `d` in the data buffer and is `s` everywhere else (20_memory.md R103, R130). -/
structure DbfLoaded (s t : State) (d : BitVec 16) : Prop where
  dbf3 : ∀ slot, dmRead t slot 0x0C = d.extractLsb' 12 4
  dbf2 : ∀ slot, dmRead t slot 0x0D = d.extractLsb' 8 4
  dbf1 : ∀ slot, dmRead t slot 0x0E = d.extractLsb' 4 4
  dbf0 : ∀ slot, dmRead t slot 0x0F = d.extractLsb' 0 4
  reads : ∀ slot (b : DmAddr), b.toNat < 0x0C ∨ 0x0F < b.toNat → dmRead t slot b = dmRead s slot b
  others : { t with ram := [] } = { s with ram := [] }

/-- `t` holds `d` in DBF1 and DBF0 and is `s` everywhere else, DBF3 and DBF2 included (20_memory.md R126). -/
structure DbfLowLoaded (s t : State) (d : BitVec 8) : Prop where
  dbf1 : ∀ slot, dmRead t slot 0x0E = d.extractLsb' 4 4
  dbf0 : ∀ slot, dmRead t slot 0x0F = d.extractLsb' 0 4
  reads : ∀ slot (b : DmAddr), b.toNat < 0x0E ∨ 0x0F < b.toNat → dmRead t slot b = dmRead s slot b
  others : { t with ram := [] } = { s with ram := [] }

/-- The two states agree on everything a program's instructions alone change: the CPU's registers, the stack, data memory,
the modes of the ports, and the control bits and the modulo register that no hardware writes. -/
structure SameProgramState (s t : State) : Prop where
  pc : t.pc = s.pc
  sp : t.sp = s.sp
  asr : t.asr = s.asr
  intsk : t.intsk = s.intsk
  ram : t.ram = s.ram
  ar : t.ar = s.ar
  wr : t.wr = s.wr
  mpe : t.mpe = s.mpe
  ix : t.ix = s.ix
  rp : t.rp = s.rp
  psw : t.psw = s.psw
  inte : t.inte = s.inte
  eiHold : t.eiHold = s.eiHold
  skip : t.skip = s.skip
  pdresen : t.pdresen = s.pdresen
  irqStale : t.irqStale = s.irqStale
  /-- IP, IPTM, IPSIO, IEGMD (60_exceptions.md R411, R413). -/
  permissions : { t.interrupts with irq := false, irqtm := false, irqsio := false, intPrev := false } =
    { s.interrupts with irq := false, irqtm := false, irqsio := false, intPrev := false }
  /-- TMEN, TMCK, TMOSEL, TMM (50_peripherals.md R331 to R337). -/
  timer : (t.timer.tmen, t.timer.tmck, t.timer.tmosel, t.timer.tmm) =
    (s.timer.tmen, s.timer.tmck, s.timer.tmosel, s.timer.tmm)
  /-- SIOEN, SIOHIZ, SIOCK (R350 to R353). -/
  serial : (t.serial.sioen, t.serial.siohiz, t.serial.siock) = (s.serial.sioen, s.serial.siohiz, s.serial.siock)
  /-- CMPCH, CMPVREF (R341, R342). -/
  comparator : (t.comparator.cmpch, t.comparator.cmpvref) = (s.comparator.cmpch, s.comparator.cmpvref)
  /-- Of the ports only SO_LATCH, bit 1 of the port OD latch, and the mark that it did may change (50_peripherals.md
  R356). -/
  ports : { t.ports with podL := 0, soUsed := false } = { s.ports with podL := 0, soUsed := false } ∧
    withBit1 t.ports.podL false = withBit1 s.ports.podL false

end Sys2Proof.Machine
end

