-- ==== Sys2Proof/Certificates/Slice0/Obligations.lean ====
section
/-! DEFINITION. The statements for the provers. A hypothesis is about the state and the operands alone; where a conclusion
has the form `exec i s = .next t`, or gives such a `t`, the instruction completes. Rules R<n> are those of spec/. -/

open Sys2Proof Sys2Proof.Machine

/-! ### Encoding (30_encoding.md) -/

/-- Words written out field by field from R142 to R144, one or more for each family, decode to their instructions. -/
def Obligations.SpecWordsDecode : Prop :=
  decode 0b0000011000010011 = .ok (.addRM 3 0x61) ∧
  decode 0b1000001011110101 = .ok (.addMI 0x2F 5) ∧
  decode 0b0011100010010000 = .ok .incAR ∧
  decode 0b0001101011110011 = .ok (.subcRM 3 0x2F) ∧
  decode 0b1010101011111010 = .ok (.xorMI 0x2F 10) ∧
  decode 0b1111011111110010 = .ok (.skt 0x7F 2) ∧
  decode 0b1101101011111000 = .ok (.sklt 0x2F 8) ∧
  decode 0b0011100001110001 = .ok (.rorc 1) ∧
  decode 0b1100011101110000 = .ok (.st 0x77 0) ∧
  decode 0b0011110010110000 = .ok (.get 0x40) ∧
  decode 0b0011100100100001 = .ok (.poke 0x11) ∧
  decode 0b0110001111111111 = .ok (.br 0x3FF) ∧
  decode 0b1110000000100000 = .ok (.call 0x20) ∧
  decode 0b0011110011100000 = .ok .reti ∧
  decode 0b0011101111111000 = .ok (.halt 8)

/-- Every instruction with a word of its own is read back from that word. -/
def Obligations.DecodeInvertsEncode : Prop :=
  ∀ i : Instr, i.wellFormed = true → decode (encode i) = .ok i

/-- A word that decodes is the word of the instruction it decodes to: no word has two meanings, no bit is ignored. -/
def Obligations.EncodeInvertsDecode : Prop :=
  ∀ (w : ProgWord) (i : Instr), decode w = .ok i → i.wellFormed = true ∧ encode i = w

/-- The words that are no instruction are those of R146, by its five items; executing one stops the machine, it is
neither a NOP nor an exception; FFFFH and 0000H are instructions. That executing one stops, and that bit 10 of an
address makes a word unassigned, is the spec's decision (D8, D9; log 11). -/
def Obligations.UnassignedWords : Prop :=
  (∀ w : ProgWord,
      (∃ e, decode w = .error e) ↔
        (opField w ∈ [0b01101, 0b01110, 0b01111, 0b10111] ∨
          (opField w = 0b00111 ∧ subField w ∈ [0b0000, 0b0110]) ∨
          (opField w = 0b00111 ∧
            ((subField w ∈ [0b0001, 0b0100, 0b0101, 0b0111, 0b1000, 0b1001, 0b1100, 0b1101] ∧ g3Field w ≠ 0) ∨
              (subField w = 0b1110 ∧ g3Field w ∉ [0b000, 0b001, 0b100]) ∨
              (subField w = 0b1111 ∧ g3Field w ∈ [0b101, 0b110, 0b111]))) ∨
          (opField w = 0b00111 ∧ lowField w ≠ 0 ∧
            ((subField w ∈ [0b0001, 0b0100, 0b0101, 0b1000, 0b1001, 0b1100, 0b1101] ∧ g3Field w = 0) ∨
              (subField w = 0b1110 ∧ g3Field w ∈ [0b000, 0b001, 0b100]) ∨
              (subField w = 0b1111 ∧ g3Field w ∈ [0b000, 0b001, 0b100]))) ∨
          (opField w ∈ [0b01100, 0b11100] ∧ w.getLsbD 10 = true))) ∧
    (∀ (s : State) (e : DecodeError), s.mode = .run → resetRequest s = none → acceptable s = none → s.skip = false →
      decode (romRead s s.pc) = .error e → step s = .refused (.unassignedWord (romRead s s.pc))) ∧
    decode 0xFFFF = .ok (.skf 0x7F 0b1111) ∧ decode 0x0000 = .ok (.addRM 0 0x00)

/-! ### The step (60_exceptions.md R420, 30_encoding.md R141) -/

/-- In Run mode, with no reset, no interrupt to accept and no skip pending, a step executes the instruction that the
word at pc decodes to: pc already incremented, EI_HOLD ended, IRQ_STALE sampled and ended; afterwards the peripherals
advance by one instruction cycle, by two for a `MOVT` that completes. The place of the peripherals' cycle after the
effect, and one cycle for a `MOVT` that the internal reset abandons, are choices (D7, D18; logs 12, 23).

That cycle (50_peripherals.md R300) takes the next inputs, then runs the timer, the serial interface, in Run mode the
comparator, and the INT sample, which counts a falling edge for TMCK = 11B (R333, 60_exceptions.md R413), once each; in STOP
mode only the external serial clock and the INT sample act. The order is the spec's decision (D18), the count at INT too (D17;
log 12). A timer that R336 leaves unspecified ends the cycle with any TMC, IRQTM and TMOUT (U8; log 10). The record of inputs
and the cycle counter are the model's (logs 8, 10). -/
def Obligations.StepRunsDecodedInstruction : Prop :=
  (∀ (s : State) (i : Instr),
    s.mode = .run → resetRequest s = none → acceptable s = none → s.skip = false →
    decode (romRead s s.pc) = .ok i →
    ∀ u : State, u = { s with pc := s.pc + 1, eiHold := false, staleView := s.irqStale, irqStale := none } →
      (∀ t, exec i u = .next t →
        step s = .next
          (if i = .movt ∧ (push u u.pc).isSome = true then advanceCycle (advanceCycle t) else advanceCycle t)) ∧
      (∀ f, exec i u = .fault f → step s = .fault f)) ∧
  ∀ s n : State,
    (s.pending = [] → n = { s with env := { s.env with
      sckWave := if s.env.sckWave.getLsbD 15 then 0xFFFF else 0
      siWave := if s.env.siWave.getLsbD 15 then 0xFFFF else 0 } }) →
    (∀ e rest, s.pending = e :: rest → n = { s with env := e, pending := rest }) →
    (∀ v w u : State,
      v = sioCycle (timerCycle n) →
      w = (if s.mode = .run then comparatorCycle v else v) →
      u = intEdge (if w.timer.tmck = 3 ∧ w.timer.tmen = true ∧ w.interrupts.intPrev = true ∧ w.env.int = false
        then timerCount w else w) →
      (s.mode = .run ∨ ∃ h, s.mode = .halt h) →
      ∃ c o r,
        advanceCycle s = { u with
          cycle := u.cycle + 1
          timer := { u.timer with tmc := c, tmoutFf := o }
          interrupts := { u.interrupts with irqtm := r } } ∧
        (u.timer.irregular = false → c = u.timer.tmc ∧ o = u.timer.tmoutFf ∧ r = u.interrupts.irqtm)) ∧
    ((∃ v, s.mode = .stop v) → ∀ u, u = intEdge (sioStopped n) → advanceCycle s = { u with cycle := u.cycle + 1 })

/-- A word to be skipped is consumed as a NOP whatever it is: pc moves on, SKIP ends, one instruction cycle passes,
and no interrupt is accepted, whatever is pending (R141, 10_state.md R60, R422). That this holds after `RETSK` and for
a skipped `MOVT` is the spec's decision (D13, D19; log 12). -/
def Obligations.SkippedWordIsNop : Prop :=
  ∀ s : State, s.mode = .run → resetRequest s = none → s.skip = true →
    step s = .next (advanceCycle
      { s with pc := s.pc + 1, eiHold := false, staleView := s.irqStale, irqStale := none, skip := false })

/-! ### Operand addresses (20_memory.md R112 to R114) -/

/-- The effective address of an operand `m`: the OR with IX for IXE = 1, else `m` (R112). That IXE = 1 with MPE = 1 stops
there is the meaning of `Unpredictable` (60_exceptions.md R404), a choice (log 11). -/
def Obligations.EffectiveAddress : Prop :=
  ∀ (s : State) (m : DmAddr),
    eaM s m =
      if s.psw.ixe = true ∧ s.mpe = true then .error .prohibitedIndexMode
      else if s.psw.ixe = true then .ok (m ||| s.ix)
      else .ok m

/-- The indirect address: its column is the content of general register `r` (row RP, column `r`), its row comes from the
memory pointer (MPE = 1), from `m` OR the index register (IXE = 1), or from `m` (R113, R114). That IXE = 1 with MPE = 1
stops there is the meaning of `Unpredictable` (60_exceptions.md R404), a choice (log 11). -/
def Obligations.IndirectAddress : Prop :=
  ∀ (s : State) (m : DmAddr) (r : BitVec 4),
    eaR s r = s.rp ++ r ∧
    eaInd s m r =
      if s.psw.ixe = true ∧ s.mpe = true then .error .prohibitedIndexMode
      else if s.mpe = true then .ok (s.ix.extractLsb' 4 3 ++ dmRead s .pointer (s.rp ++ r))
      else if s.psw.ixe = true then
        .ok ((m.extractLsb' 4 3 ||| s.ix.extractLsb' 4 3) ++ dmRead s .pointer (s.rp ++ r))
      else .ok (m.extractLsb' 4 3 ++ dmRead s .pointer (s.rp ++ r))

/-- With IXE = 1 and MPE = 1 every instruction that takes a data memory operand stops (R112, 60_exceptions.md R404).
That the model stops there is the meaning of `Unpredictable` (log 11). -/
def Obligations.ProhibitedIndexSettingStops : Prop :=
  ∀ (s : State) (i : Instr) (m : DmAddr) (x : BitVec 4), s.psw.ixe = true → s.mpe = true →
    i ∈ [.addRM x m, .addMI m x, .addcRM x m, .addcMI m x, .subRM x m, .subMI m x, .subcRM x m, .subcMI m x,
      .orRM x m, .orMI m x, .andRM x m, .andMI m x, .xorRM x m, .xorMI m x, .skt m x, .skf m x, .ske m x, .skne m x,
      .skge m x, .sklt m x, .ld x m, .st m x, .movToInd x m, .movFromInd m x, .movMI m x] →
    exec i s = .fault .prohibitedIndexMode

/-! ### Arithmetic (40_add.md, 41_subtract.md) -/

/-- The binary adder and subtracter as sums (R201): the result modulo 16 and the carry or borrow. -/
def Obligations.BinaryArithmetic : Prop :=
  ∀ (a b : Nibble) (c : Bool),
    (aluAdd false a b c).res.toNat = (a.toNat + b.toNat + c.toNat) % 16 ∧
    ((aluAdd false a b c).cy = true ↔ 16 ≤ a.toNat + b.toNat + c.toNat) ∧
    (aluSub false a b c).res.toNat = (a.toNat + 32 - b.toNat - c.toNat) % 16 ∧
    ((aluSub false a b c).cy = true ↔ a.toNat < b.toNat + c.toNat)

/-- Decimal arithmetic where the operands are such that the result is a decimal number (R202): a sum of 0 to 19 gives
the decimal digit and carry, a difference of -10 to 9 the decimal digit and borrow. Everywhere else CY is set and the
result is 1010B or more (the shaded rows). The statement describes the table; it does not repeat it. -/
def Obligations.DecimalArithmetic : Prop :=
  ∀ (a b : Nibble) (c : Bool),
    (a.toNat + b.toNat + c.toNat ≤ 19 →
      (aluAdd true a b c).res.toNat = (a.toNat + b.toNat + c.toNat) % 10 ∧
      ((aluAdd true a b c).cy = true ↔ 10 ≤ a.toNat + b.toNat + c.toNat)) ∧
    (19 < a.toNat + b.toNat + c.toNat → (aluAdd true a b c).cy = true ∧ 10 ≤ (aluAdd true a b c).res.toNat) ∧
    (b.toNat + c.toNat ≤ a.toNat + 10 → a.toNat ≤ b.toNat + c.toNat + 9 →
      (aluSub true a b c).res.toNat = (a.toNat + 10 - b.toNat - c.toNat) % 10 ∧
      ((aluSub true a b c).cy = true ↔ a.toNat < b.toNat + c.toNat)) ∧
    (a.toNat + 10 < b.toNat + c.toNat ∨ b.toNat + c.toNat + 9 < a.toNat →
      (aluSub true a b c).cy = true ∧ 10 ≤ (aluSub true a b c).res.toNat)

/-- The four additions (R204 to R207): operands, carry in, destination, flags, store, frame (R203, R209). -/
def Obligations.AdditionResults : Prop :=
  ∀ (s : State) (m ma : DmAddr) (x : BitVec 4), eaM s m = .ok ma →
    decode (wordOf 0x0000 m x) = .ok (.addRM x m) ∧
    decode (wordOf 0x8000 m x) = .ok (.addMI m x) ∧
    decode (wordOf 0x1000 m x) = .ok (.addcRM x m) ∧
    decode (wordOf 0x9000 m x) = .ok (.addcMI m x) ∧
    (∃ t, exec (.addRM x m) s = .next t ∧
      ArithResult s t (s.rp ++ x) (aluAdd s.psw.bcd (dmRead s .first (s.rp ++ x)) (dmRead s .second ma) false)) ∧
    (∃ t, exec (.addMI m x) s = .next t ∧ ArithResult s t ma (aluAdd s.psw.bcd (dmRead s .first ma) x false)) ∧
    (∃ t, exec (.addcRM x m) s = .next t ∧
      ArithResult s t (s.rp ++ x) (aluAdd s.psw.bcd (dmRead s .first (s.rp ++ x)) (dmRead s .second ma) s.psw.cy)) ∧
    (∃ t, exec (.addcMI m x) s = .next t ∧ ArithResult s t ma (aluAdd s.psw.bcd (dmRead s .first ma) x s.psw.cy))

/-- The four subtractions (R216 to R219). -/
def Obligations.SubtractionResults : Prop :=
  ∀ (s : State) (m ma : DmAddr) (x : BitVec 4), eaM s m = .ok ma →
    decode (wordOf 0x0800 m x) = .ok (.subRM x m) ∧
    decode (wordOf 0x8800 m x) = .ok (.subMI m x) ∧
    decode (wordOf 0x1800 m x) = .ok (.subcRM x m) ∧
    decode (wordOf 0x9800 m x) = .ok (.subcMI m x) ∧
    (∃ t, exec (.subRM x m) s = .next t ∧
      ArithResult s t (s.rp ++ x) (aluSub s.psw.bcd (dmRead s .first (s.rp ++ x)) (dmRead s .second ma) false)) ∧
    (∃ t, exec (.subMI m x) s = .next t ∧ ArithResult s t ma (aluSub s.psw.bcd (dmRead s .first ma) x false)) ∧
    (∃ t, exec (.subcRM x m) s = .next t ∧
      ArithResult s t (s.rp ++ x) (aluSub s.psw.bcd (dmRead s .first (s.rp ++ x)) (dmRead s .second ma) s.psw.cy)) ∧
    (∃ t, exec (.subcMI m x) s = .next t ∧ ArithResult s t ma (aluSub s.psw.bcd (dmRead s .first ma) x s.psw.cy))

/-- `INC AR` counts modulo 1024, `INC IX` modulo 128; no flag changes, nor MPE, nor anything else (R208, R243). That
no flag changes is the spec's decision (D10; log 12). -/
def Obligations.IncrementResults : Prop :=
  ∀ s : State,
    (∃ t, exec .incAR s = .next t ∧ t = { s with ar := t.ar } ∧ t.ar.toNat = (s.ar.toNat + 1) % 1024) ∧
    (∃ t, exec .incIX s = .next t ∧ t = { s with ix := t.ix } ∧ t.ix.toNat = (s.ix.toNat + 1) % 128)

/-! ### Logic, tests, comparisons, rotation (42_logic.md, 43_test_compare.md, 44_rotate.md) -/

/-- The six logical instructions store always, whatever BCD and CMP are, and change no flag but by the store (R225 to
R231). -/
def Obligations.LogicResults : Prop :=
  ∀ (s : State) (m ma : DmAddr) (x : BitVec 4), eaM s m = .ok ma →
    decode (wordOf 0x3000 m x) = .ok (.orRM x m) ∧
    decode (wordOf 0xB000 m x) = .ok (.orMI m x) ∧
    decode (wordOf 0x2000 m x) = .ok (.andRM x m) ∧
    decode (wordOf 0xA000 m x) = .ok (.andMI m x) ∧
    decode (wordOf 0x2800 m x) = .ok (.xorRM x m) ∧
    decode (wordOf 0xA800 m x) = .ok (.xorMI m x) ∧
    (∃ t, exec (.orRM x m) s = .next t ∧
      StoredAt s t (s.rp ++ x) (dmRead s .first (s.rp ++ x) ||| dmRead s .second ma)) ∧
    (∃ t, exec (.orMI m x) s = .next t ∧ StoredAt s t ma (dmRead s .first ma ||| x)) ∧
    (∃ t, exec (.andRM x m) s = .next t ∧
      StoredAt s t (s.rp ++ x) (dmRead s .first (s.rp ++ x) &&& dmRead s .second ma)) ∧
    (∃ t, exec (.andMI m x) s = .next t ∧ StoredAt s t ma (dmRead s .first ma &&& x)) ∧
    (∃ t, exec (.xorRM x m) s = .next t ∧
      StoredAt s t (s.rp ++ x) (dmRead s .first (s.rp ++ x) ^^^ dmRead s .second ma)) ∧
    (∃ t, exec (.xorMI m x) s = .next t ∧ StoredAt s t ma (dmRead s .first ma ^^^ x))

/-- `SKT` and `SKF` skip by the nibble as it was, clear CMP, and change nothing else, in data memory or outside (R234,
R245, R239). That the nibble is tested as it was before CMP is cleared is the spec's decision (D11; log 12). -/
def Obligations.BitTestResults : Prop :=
  ∀ (s : State) (m ma : DmAddr) (n : BitVec 4), eaM s m = .ok ma →
    (∃ t, exec (.skt m n) s = .next t ∧
      t = { s with psw := { s.psw with cmp := false }, skip := s.skip || decide (dmRead s .first ma &&& n = n) } ∧
      ∀ slot a, a ≠ 0x7F → dmRead t slot a = dmRead s slot a) ∧
    (∃ t, exec (.skf m n) s = .next t ∧
      t = { s with psw := { s.psw with cmp := false }, skip := s.skip || decide (dmRead s .first ma &&& n = 0) } ∧
      ∀ slot a, a ≠ 0x7F → dmRead t slot a = dmRead s slot a)

/-- The four comparisons change nothing but SKIP; the order is that of unsigned numbers (R235, R246 to R249). -/
def Obligations.CompareResults : Prop :=
  ∀ (s : State) (m ma : DmAddr) (n : BitVec 4), eaM s m = .ok ma →
    exec (.ske m n) s = .next { s with skip := s.skip || decide (dmRead s .first ma = n) } ∧
    exec (.skne m n) s = .next { s with skip := s.skip || decide (dmRead s .first ma ≠ n) } ∧
    exec (.skge m n) s = .next { s with skip := s.skip || decide (n.toNat ≤ (dmRead s .first ma).toNat) } ∧
    exec (.sklt m n) s = .next { s with skip := s.skip || decide ((dmRead s .first ma).toNat < n.toNat) }

/-- `RORC r`: CY enters bit 3, bit 0 leaves into CY, the store comes last; no other flag changes (R240). That the
store comes last is the spec's decision (D12; log 12). -/
def Obligations.RotateResult : Prop :=
  ∀ (s : State) (r : BitVec 4), ∃ t a, exec (.rorc r) s = .next t ∧ a = dmRead s .first (s.rp ++ r) ∧
    StoredAt { s with psw := { s.psw with cy := a.getLsbD 0 } } t (s.rp ++ r)
      (nibbleOf s.psw.cy (a.getLsbD 3) (a.getLsbD 2) (a.getLsbD 1)) ∧
    ∀ slot b, b ≠ s.rp ++ r → b ≠ 0x7F → dmRead t slot b = dmRead s slot b

/-! ### Transfers (45_transfer.md) -/

/-- `LD`, `ST` and `MOV m, #n4` store one nibble and change nothing else (R250, R251, R254). -/
def Obligations.LoadStoreResults : Prop :=
  ∀ (s : State) (m ma : DmAddr) (x : BitVec 4), eaM s m = .ok ma →
    decode (wordOf 0x4000 m x) = .ok (.ld x m) ∧
    decode (wordOf 0xC000 m x) = .ok (.st m x) ∧
    decode (wordOf 0xE800 m x) = .ok (.movMI m x) ∧
    (∃ t, exec (.ld x m) s = .next t ∧ StoredAt s t (s.rp ++ x) (dmRead s .second ma)) ∧
    (∃ t, exec (.st m x) s = .next t ∧ StoredAt s t ma (dmRead s .first (s.rp ++ x))) ∧
    (∃ t, exec (.movMI m x) s = .next t ∧ StoredAt s t ma x)

/-- `MOV @r, m` and `MOV m, @r` move one nibble to or from the indirect address and change nothing else (R252, R253). -/
def Obligations.IndirectMoveResults : Prop :=
  ∀ (s : State) (m ma ia : DmAddr) (r : BitVec 4), eaM s m = .ok ma → eaInd s m r = .ok ia →
    decode (wordOf 0x5000 m r) = .ok (.movToInd r m) ∧
    decode (wordOf 0xD000 m r) = .ok (.movFromInd m r) ∧
    (∃ t, exec (.movToInd r m) s = .next t ∧ StoredAt s t ia (dmRead s .second ma)) ∧
    (∃ t, exec (.movFromInd m r) s = .next t ∧ StoredAt s t ma (dmRead s .second ia))

/-- `PEEK WR, rf` changes WR only, and the control registers read as 10_state.md R54 lists their bits (R255, 20_memory.md
R120); the comparator's four exist on parts that have it.

The data memory behind 40H-7FH, and all of data memory for the other instructions, is the map of R44 (10_state.md), R110 and
R111 (20_memory.md): general-purpose memory at 00H-3FH and, but for the uPD17120 and 17121, at 40H-6EH; there nothing holds a
write and a read does not come from data memory (its value is free: U2, log 10); the port registers at 6FH-73H hold their
latches (what they read as: PortReads); then the system registers, bit by bit, and which of their bits a write changes. -/
def Obligations.PeekResults : Prop :=
  (∀ (s : State) (slot : ReadSlot) (a : DmAddr),
    (a.toNat < 0x40 ∨ (a.toNat < 0x6F ∧ s.part ≠ .u17120 ∧ s.part ≠ .u17121) →
      dmRead s slot a = cellsRead s.ram a.toNat ∧ heldNibble s a = cellsRead s.ram a.toNat ∧
        writableBits s.part a = 0b1111) ∧
    (0x40 ≤ a.toNat → a.toNat < 0x6F → s.part = .u17120 ∨ s.part = .u17121 →
      (∀ ram, dmRead { s with ram := ram } slot a = dmRead s slot a) ∧ heldNibble s a = 0 ∧ writableBits s.part a = 0)) ∧
  (∀ (s : State) (slot : ReadSlot),
    dmRead s slot 0x74 = 0 ∧ writableBits s.part 0x74 = 0 ∧
    dmRead s slot 0x75 = nibbleOf false false (s.ar.getLsbD 9) (s.ar.getLsbD 8) ∧ writableBits s.part 0x75 = 0b0011 ∧
    dmRead s slot 0x76 = nibbleOf (s.ar.getLsbD 7) (s.ar.getLsbD 6) (s.ar.getLsbD 5) (s.ar.getLsbD 4) ∧
    writableBits s.part 0x76 = 0b1111 ∧
    dmRead s slot 0x77 = nibbleOf (s.ar.getLsbD 3) (s.ar.getLsbD 2) (s.ar.getLsbD 1) (s.ar.getLsbD 0) ∧
    writableBits s.part 0x77 = 0b1111 ∧
    dmRead s slot 0x78 = s.wr ∧ writableBits s.part 0x78 = 0b1111 ∧
    dmRead s slot 0x79 = 0 ∧ writableBits s.part 0x79 = 0 ∧
    dmRead s slot 0x7A = nibbleOf s.mpe false false false ∧ writableBits s.part 0x7A = 0b1000 ∧
    dmRead s slot 0x7B = nibbleOf false (s.ix.getLsbD 6) (s.ix.getLsbD 5) (s.ix.getLsbD 4) ∧
    writableBits s.part 0x7B = 0b0111 ∧
    dmRead s slot 0x7C = nibbleOf (s.ix.getLsbD 3) (s.ix.getLsbD 2) (s.ix.getLsbD 1) (s.ix.getLsbD 0) ∧
    writableBits s.part 0x7C = 0b1111 ∧
    dmRead s slot 0x7D = 0 ∧ writableBits s.part 0x7D = 0 ∧
    dmRead s slot 0x7E = nibbleOf (s.rp.getLsbD 2) (s.rp.getLsbD 1) (s.rp.getLsbD 0) s.psw.bcd ∧
    writableBits s.part 0x7E = 0b1111 ∧
    dmRead s slot 0x7F = nibbleOf s.psw.cmp s.psw.cy s.psw.z s.psw.ixe ∧ writableBits s.part 0x7F = 0b1111 ∧
    (∀ a : DmAddr, 0x74 ≤ a.toNat → heldNibble s a = dmRead s slot a) ∧
    heldNibble s 0x6F = 0#2 ++ s.ports.poeL ∧ writableBits s.part 0x6F = 0b0011 ∧
    heldNibble s 0x70 = s.ports.poaL ∧ writableBits s.part 0x70 = 0b1111 ∧
    heldNibble s 0x71 = s.ports.pobL ∧ writableBits s.part 0x71 = 0b1111 ∧
    heldNibble s 0x72 = s.ports.pocL ∧ writableBits s.part 0x72 = 0b1111 ∧
    heldNibble s 0x73 = s.ports.podL ∧ writableBits s.part 0x73 = 0b1111) ∧
  ∀ s : State,
    (∀ rf, exec (.peek rf) s = .next { s with wr := rfRead s rf }) ∧
    (∀ rf : DmAddr, 0x40 ≤ rf.toNat → rfRead s rf = dmRead s .first rf) ∧
    rfRead s 0x01 = 0#1 ++ s.sp ∧
    rfRead s 0x0A = nibbleOf false false false s.serial.sioen ∧
    rfRead s 0x0F = nibbleOf false false false s.env.int ∧
    rfRead s 0x10 = nibbleOf false false false s.pdresen ∧
    rfRead s 0x11 = nibbleOf s.timer.tmen false (s.timer.tmck.getLsbD 1) (s.timer.tmck.getLsbD 0) ∧
    rfRead s 0x12 = nibbleOf false false false s.timer.tmosel ∧
    rfRead s 0x1A =
      nibbleOf s.serial.siots s.serial.siohiz (s.serial.siock.getLsbD 1) (s.serial.siock.getLsbD 0) ∧
    rfRead s 0x1F = 0#2 ++ s.interrupts.iegmd ∧
    rfRead s 0x24 = nibbleOf false false false s.ports.pobgio ∧
    rfRead s 0x2F = nibbleOf false s.interrupts.ipsio s.interrupts.iptm s.interrupts.ip ∧
    rfRead s 0x32 = 0#2 ++ s.ports.poebio ∧
    rfRead s 0x33 = s.ports.podbio ∧
    rfRead s 0x34 = s.ports.pocbio ∧
    rfRead s 0x35 = s.ports.poabio ∧
    rfRead s 0x3D = nibbleOf false false false s.interrupts.irqsio ∧
    rfRead s 0x3E = nibbleOf false false false s.interrupts.irqtm ∧
    rfRead s 0x3F = nibbleOf false false false s.interrupts.irq ∧
    (hasCmp s.part = true →
      rfRead s 0x1C = 0#2 ++ s.comparator.cmpch ∧
      rfRead s 0x1D = s.comparator.cmpvref ∧
      rfRead s 0x1E = nibbleOf false false s.comparator.cmpstrt s.comparator.cmprslt ∧
      rfRead s 0x23 = s.ports.pocidi)

/-- `POKE rf, WR` stores WR in data memory for `rf` in 40H-7FH; into a control register that only holds bits it writes those
bits and nothing else; into a read-only or unused register nothing at all (R263, 10_state.md R54, 20_memory.md R120). -/
def Obligations.PokePlainRegisters : Prop :=
  ∀ s : State,
    (∀ rf : DmAddr, 0x40 ≤ rf.toNat → ∃ t, exec (.poke rf) s = .next t ∧ StoredAt s t rf s.wr) ∧
    exec (.poke 0x0A) s = .next { s with serial := { s.serial with sioen := s.wr.getLsbD 0 } } ∧
    exec (.poke 0x0F) s = .next s ∧
    exec (.poke 0x10) s = .next { s with pdresen := s.wr.getLsbD 0 } ∧
    exec (.poke 0x12) s = .next { s with timer := { s.timer with tmosel := s.wr.getLsbD 0 } } ∧
    exec (.poke 0x1F) s = .next { s with interrupts := { s.interrupts with iegmd := s.wr.extractLsb' 0 2 } } ∧
    exec (.poke 0x24) s = .next { s with ports := { s.ports with pobgio := s.wr.getLsbD 0 } } ∧
    exec (.poke 0x2F) s = .next { s with interrupts :=
      { s.interrupts with ip := s.wr.getLsbD 0, iptm := s.wr.getLsbD 1, ipsio := s.wr.getLsbD 2 } } ∧
    exec (.poke 0x32) s = .next { s with ports := { s.ports with poebio := s.wr.extractLsb' 0 2 } } ∧
    exec (.poke 0x33) s = .next { s with ports := { s.ports with podbio := s.wr } } ∧
    exec (.poke 0x34) s = .next { s with ports := { s.ports with pocbio := s.wr } } ∧
    exec (.poke 0x35) s = .next { s with ports := { s.ports with poabio := s.wr } } ∧
    (hasCmp s.part = true → exec (.poke 0x23) s = .next { s with ports := { s.ports with pocidi := s.wr } }) ∧
    (hasCmp s.part = false → ∀ rf ∈ [0x1C, 0x1D, 0x1E, 0x23], exec (.poke rf) s = .next s) ∧
    (∀ rf : DmAddr, rf.toNat < 0x40 →
      rf ∉ [0x01, 0x0A, 0x0F, 0x10, 0x11, 0x12, 0x1A, 0x1C, 0x1D, 0x1E, 0x1F, 0x23, 0x24, 0x2F, 0x32, 0x33, 0x34, 0x35,
        0x3D, 0x3E, 0x3F] →
      exec (.poke rf) s = .next s)

/-- `POKE` of a request flag forces or cancels the request and leaves the old flag for a `HALT` or `STOP` that follows
at once (R263, 10_state.md R68, 60_exceptions.md R410). IRQ_STALE is the spec's decision (D22; log 12). -/
def Obligations.PokeRequestFlags : Prop :=
  ∀ s : State,
    exec (.poke 0x3F) s = .next { s with
      interrupts := { s.interrupts with irq := s.wr.getLsbD 0 }, irqStale := some (.irq, s.interrupts.irq) } ∧
    exec (.poke 0x3E) s = .next { s with
      interrupts := { s.interrupts with irqtm := s.wr.getLsbD 0 }, irqStale := some (.irqtm, s.interrupts.irqtm) } ∧
    exec (.poke 0x3D) s = .next { s with
      interrupts := { s.interrupts with irqsio := s.wr.getLsbD 0 }, irqStale := some (.irqsio, s.interrupts.irqsio) }

/-- `POKE` of the timer mode register 11H (50_peripherals.md R331 to R334): the bits TMEN, TMCK are those of WR; TMRES = 1
clears TMC and IRQTM and sets the output flip-flop; a start while the selected pulse is low is itself the first count, any
other write counts nothing. An internal pulse, fx/256, fx/32 or fx/2048, is low in the first half of its period (R334), the
pulse of TMCK = 11B while the INT pin is. That a start with TMRES = 1 counts nothing is read from the bound of R339 (1) (log
19). What R336 leaves unspecified begins when the timer runs with TMM = 00H; that it ends by TMRES with another TMM, and not
before, is the model's reading (U8; log 18), so a timer that is regular stays so with every TMM but 00H. -/
def Obligations.PokeTimerMode : Prop :=
  ∀ (s u : State) (n : Nat) (low : Prop),
    n = (if s.wr.extractLsb' 0 2 = 0 then 256 else if s.wr.extractLsb' 0 2 = 1 then 32 else 2048) →
    (low ↔ if s.wr.extractLsb' 0 2 = 3 then s.env.int = false else s.timer.presc.toNat % n < n / 2) →
    u = { s with
      timer := { s.timer with
        tmen := s.wr.getLsbD 3
        tmck := s.wr.extractLsb' 0 2
        tmc := if s.wr.getLsbD 2 then 0 else s.timer.tmc
        tmoutFf := s.wr.getLsbD 2 || s.timer.tmoutFf
        irregular := decide ((s.timer.irregular = true ∧ ¬(s.wr.getLsbD 2 = true ∧ s.timer.tmm ≠ 0)) ∨
          (s.wr.getLsbD 3 = true ∧ s.timer.tmm = 0)) }
      interrupts := { s.interrupts with irqtm := s.interrupts.irqtm && !s.wr.getLsbD 2 } } →
    (s.timer.tmen = false ∧ s.wr.getLsbD 3 = true ∧ s.wr.getLsbD 2 = false ∧ low →
      exec (.poke 0x11) s = .next (timerCount u)) ∧
    (¬(s.timer.tmen = false ∧ s.wr.getLsbD 3 = true ∧ s.wr.getLsbD 2 = false ∧ low) →
      exec (.poke 0x11) s = .next u)

/-- `POKE` of the serial mode register 1AH (50_peripherals.md R351 to R354): a start clears IRQSIO, a start or a stop
begins with no serial clock counted; SIOSFR and the latch stay. The serial clock is remembered as high for an internal clock,
whose first edge is then a falling one (R354), and at the level of the SCK pin for the external one; the remembered level is
the model's own (log 21). -/
def Obligations.PokeSerialMode : Prop :=
  ∀ s : State, exec (.poke 0x1A) s = .next { s with
      serial := { s.serial with
        siots := s.wr.getLsbD 3
        siohiz := s.wr.getLsbD 2
        siock := s.wr.extractLsb' 0 2
        cnt := 0
        sck := if s.wr.extractLsb' 0 2 = 0 then sckLevel s 15 else true }
      interrupts := { s.interrupts with irqsio := s.interrupts.irqsio && !s.wr.getLsbD 3 } }

/-- The comparator's registers (50_peripherals.md R341 to R343): channel and reference are written unless a comparison
runs, a 1 in CMPSTRT starts one unless one runs, a 0 does nothing. That a write during a comparison is ignored is the
spec's choice (R343; log 12). -/
def Obligations.PokeComparator : Prop :=
  ∀ s : State, hasCmp s.part = true →
    (s.comparator.cmpstrt = true → ∀ rf ∈ [0x1C, 0x1D, 0x1E], exec (.poke rf) s = .next s) ∧
    (s.comparator.cmpstrt = false →
      exec (.poke 0x1C) s = .next { s with comparator := { s.comparator with cmpch := s.wr.extractLsb' 0 2 } } ∧
      exec (.poke 0x1D) s = .next { s with comparator := { s.comparator with cmpvref := s.wr } } ∧
      (s.wr.getLsbD 1 = false → exec (.poke 0x1E) s = .next s) ∧
      (s.wr.getLsbD 1 = true → exec (.poke 0x1E) s = .next { s with comparator :=
        { s.comparator with cmpstrt := true, remaining := cmpCycles s.part + 1, tainted := false } }))

/-- `POKE` of the stack pointer: bits 2 to 0 of WR, and no address stack register changes; 6 and 7 raise the internal
reset (10_state.md R31, R32). That a `POKE` of 6 or 7 resets is the spec's inference (R32). -/
def Obligations.PokeStackPointer : Prop :=
  ∀ s : State,
    ((s.wr.extractLsb' 0 3).toNat < 6 → exec (.poke 0x01) s = .next { s with sp := s.wr.extractLsb' 0 3 }) ∧
    (6 ≤ (s.wr.extractLsb' 0 3).toNat → exec (.poke 0x01) s = .next (internalReset s))

/-- `GET DBF, p` (R256, 20_memory.md R125 to R127): an 8-bit register goes to DBF1, DBF0 with DBF3, DBF2 unchanged, AR
to all of DBF; TMM and the addresses the manual does not describe give some value. Nothing else changes. What an
address the manual does not describe does is the spec's decision (D6; log 12). -/
def Obligations.GetResults : Prop :=
  ∀ s : State,
    (∃ t, exec (.get 0x01) s = .next t ∧ DbfLowLoaded s t s.serial.sfr) ∧
    (∃ t, exec (.get 0x02) s = .next t ∧ DbfLowLoaded s t s.timer.tmc) ∧
    (∃ t v, exec (.get 0x03) s = .next t ∧ DbfLowLoaded s t v) ∧
    (∃ t, exec (.get 0x40) s = .next t ∧ DbfLoaded s t (0#6 ++ s.ar)) ∧
    (∀ p, p ∉ [0x01, 0x02, 0x03, 0x40] → ∃ t v, exec (.get p) s = .next t ∧ DbfLoaded s t v)

/-- `PUT p, DBF` (R257, 20_memory.md R125 to R127): SIOSFR and TMM take DBF1, DBF0, AR the low 10 bits; TMC and the
addresses the manual does not describe take nothing. DBF does not change. What an address the manual does not describe
does is the spec's decision (D6; log 12). The mark that R336 leaves a timer unspecified is set by TMM = 00H while TMEN = 1 and
by no other TMM (U8; log 18). -/
def Obligations.PutResults : Prop :=
  ∀ (s : State) (d : BitVec 16),
    d = dmRead s .first 0x0C ++ dmRead s .first 0x0D ++ dmRead s .first 0x0E ++ dmRead s .first 0x0F →
    exec (.put 0x01) s = .next { s with serial := { s.serial with sfr := d.extractLsb' 0 8 } } ∧
    exec (.put 0x03) s = .next { s with timer := { s.timer with
      tmm := d.extractLsb' 0 8
      irregular := decide (s.timer.irregular = true ∨ (s.timer.tmen = true ∧ d.extractLsb' 0 8 = 0)) } } ∧
    exec (.put 0x40) s = .next { s with ar := d.extractLsb' 0 10 } ∧
    (∀ p, p ∉ [0x01, 0x03, 0x40] → exec (.put p) s = .next s)

/-- `MOVT DBF, @AR` with a free stack level (R258): DBF takes the word at AR, the level it used is left holding the
address of the next word, and pc, SP and all else are as before. What AR beyond the program memory reads is the spec's
decision (D5; log 12). -/
def Obligations.MovtResult : Prop :=
  ∀ s : State, 1 ≤ s.sp.toNat → s.sp.toNat ≤ 5 →
    ∃ t, exec .movt s = .next t ∧ asrRead t.asr (s.sp.toNat - 1) = s.pc ∧
      (∀ i < 5, i ≠ s.sp.toNat - 1 → asrRead t.asr i = asrRead s.asr i) ∧
      DbfLoaded { s with asr := t.asr } t (romRead s s.ar)

/-- `PUSH AR` with a free level and `POP AR` with a level in use (R259, R264, 10_state.md R33, R34). -/
def Obligations.PushPopResults : Prop :=
  ∀ s : State,
    (1 ≤ s.sp.toNat → s.sp.toNat ≤ 5 →
      ∃ t, exec .pushAR s = .next t ∧ t = { s with sp := s.sp - 1, asr := t.asr } ∧
        asrRead t.asr (s.sp.toNat - 1) = s.ar ∧
        ∀ i < 5, i ≠ s.sp.toNat - 1 → asrRead t.asr i = asrRead s.asr i) ∧
    (s.sp.toNat ≤ 4 → exec .popAR s = .next { s with sp := s.sp + 1, ar := asrRead s.asr s.sp.toNat })

/-! ### Branches and subroutines (46_branch_subroutine.md) -/

/-- `BR addr`, the word 6000H + addr with bit 10 of addr at 0, loads pc with addr, `BR @AR`, the word 3840H, with AR; no flag,
no stack register, nothing else changes (R270, R271). -/
def Obligations.BranchResults : Prop :=
  (∀ (s : State) (addr : RomAddr), decode (0x6000 + (0#6 ++ addr)) = .ok (.br (0#1 ++ addr)) ∧
      exec (.br (0#1 ++ addr)) s = .next { s with pc := addr }) ∧
    decode 0x3840 = .ok .brAR ∧ ∀ s : State, exec .brAR s = .next { s with pc := s.ar }

/-- `CALL addr` and `CALL @AR` with a free level (R272, R273): the return address is pushed, pc is loaded, nothing else
changes. -/
def Obligations.CallResults : Prop :=
  ∀ (s : State) (addr : RomAddr), 1 ≤ s.sp.toNat → s.sp.toNat ≤ 5 →
    (∃ t, exec (.call (0#1 ++ addr)) s = .next t ∧ t = { s with sp := s.sp - 1, asr := t.asr, pc := addr } ∧
      asrRead t.asr (s.sp.toNat - 1) = s.pc ∧
      ∀ i < 5, i ≠ s.sp.toNat - 1 → asrRead t.asr i = asrRead s.asr i) ∧
    (∃ t, exec .callAR s = .next t ∧ t = { s with sp := s.sp - 1, asr := t.asr, pc := s.ar } ∧
      asrRead t.asr (s.sp.toNat - 1) = s.pc ∧
      ∀ i < 5, i ≠ s.sp.toNat - 1 → asrRead t.asr i = asrRead s.asr i)

/-- `RET`, `RETSK` and `RETI` with a level in use (R274 to R276): pc is popped; `RETSK` also skips; `RETI` also restores the
five flags from INTSK and leaves INTE and INTSK alone. -/
def Obligations.ReturnResults : Prop :=
  ∀ s : State, s.sp.toNat ≤ 4 →
    exec .ret s = .next { s with pc := asrRead s.asr s.sp.toNat, sp := s.sp + 1 } ∧
    exec .retsk s = .next { s with pc := asrRead s.asr s.sp.toNat, sp := s.sp + 1, skip := true } ∧
    exec .reti s = .next { s with pc := asrRead s.asr s.sp.toNat, sp := s.sp + 1, psw := s.intsk }

/-- What the stack pointer guard does to each user of the stack (10_state.md R32 to R34): a push at SP = 0, that of an
accepted interrupt (60_exceptions.md R402, R420 to R422) among them, and a pop at SP = 5 raise the internal reset and have
none of their own effects. Which stack users besides `CALL`, `MOVT` and interrupts it reaches is the spec's inference (R32).
That the step of an acceptance so ended takes the INT cycle and no further one is the model's choice (DESIGN CHOICE, log 23;
vector P7 of 95_test_vectors.md leaves it open). -/
def Obligations.StackGuard : Prop :=
  ∀ (s : State) (addr : BitVec 11),
    (s.sp = 0 → ∀ src, s.mode = .run → resetRequest s = none → acceptable s = some src →
      step s = .next (advanceCycle (internalReset s))) ∧
    (s.sp = 0 → ∀ i ∈ [Instr.call addr, .callAR, .pushAR, .movt], exec i s = .next (internalReset s)) ∧
    (s.sp = 5 → ∀ i ∈ [Instr.ret, .retsk, .reti, .popAR], exec i s = .next (internalReset s))

/-- The state after the internal reset (60_exceptions.md R402, 70_reset_and_hazards.md R462 column (e)): the values
the table gives, IRQTM = 1 and TMEN = 1, the other control registers kept; what it calls undefined has some value. That
IRQTM and TMEN are set and not kept is the ruling of 90_conflicts.md C13 (log 36), the undefined values are free (log
10), the hidden state is a choice (log 24). -/
def Obligations.InternalResetState : Prop :=
  ∀ s t : State, t = internalReset s →
    t.pc = 0 ∧ t.sp = 5 ∧ t.ar = 0 ∧ t.mpe = false ∧ t.ix = 0 ∧ t.rp = 0 ∧ t.psw = .clear ∧ t.timer.tmm = 0xFF ∧
    t.inte = false ∧ t.mode = .run ∧ t.skip = false ∧ t.eiHold = false ∧ t.irqStale = none ∧
    t.interrupts = { s.interrupts with irqtm := true } ∧ t.comparator = s.comparator ∧ t.pdresen = s.pdresen ∧
    t.serial = { s.serial with sfr := t.serial.sfr } ∧
    t.timer = { s.timer with tmen := true, tmc := t.timer.tmc, tmm := 0xFF } ∧
    t.ports = { s.ports with
      poaL := t.ports.poaL, pobL := t.ports.pobL, pocL := t.ports.pocL, podL := t.ports.podL, poeL := t.ports.poeL
      soUsed := t.ports.soUsed } ∧
    t.rom = s.rom ∧ t.env = s.env ∧ cellsWf (ramNibbles s.part) t.ram

/-! ### Interrupts (60_exceptions.md) -/

/-- `EI`, `DI` and `NOP` (47_interrupt_other.md R285, R286, R289). -/
def Obligations.InterruptControlResults : Prop :=
  ∀ s : State,
    exec .ei s = .next { s with inte := true, eiHold := true } ∧
    exec .di s = .next { s with inte := false } ∧
    exec .nop s = .next s

/-- The source accepted at a boundary: none while INTE = 0, SKIP = 1 or EI_HOLD = 1; else the INT pin before the timer
before the serial interface, each only with its request and its permission (R420, R422, R423, R425). No acceptance
between `RETSK` and the skipped word is the spec's decision (D13; log 12). -/
def Obligations.AcceptancePriority : Prop :=
  ∀ s : State,
    (s.inte = false ∨ s.skip = true ∨ s.eiHold = true → acceptable s = none) ∧
    (s.inte = true → s.skip = false → s.eiHold = false →
      (s.interrupts.irq = true → s.interrupts.ip = true → acceptable s = some .irq) ∧
      (s.interrupts.irq = false ∨ s.interrupts.ip = false →
        (s.interrupts.irqtm = true → s.interrupts.iptm = true → acceptable s = some .irqtm) ∧
        (s.interrupts.irqtm = false ∨ s.interrupts.iptm = false →
          (s.interrupts.irqsio = true → s.interrupts.ipsio = true → acceptable s = some .irqsio) ∧
          (s.interrupts.irqsio = false ∨ s.interrupts.ipsio = false → acceptable s = none))))

/-- Taking an interrupt (R421): a step pushes pc, saves the five flags in INTSK and clears them, clears the accepted request
and INTE, goes to the vector, changes nothing else, and one instruction cycle passes. -/
def Obligations.InterruptAcceptance : Prop :=
  ∀ (s : State) (src : RequestFlag), s.mode = .run → resetRequest s = none → acceptable s = some src →
    1 ≤ s.sp.toNat → s.sp.toNat ≤ 5 →
    ∃ t, step s = .next (advanceCycle t) ∧
      asrRead t.asr (s.sp.toNat - 1) = s.pc ∧
      (∀ i < 5, i ≠ s.sp.toNat - 1 → asrRead t.asr i = asrRead s.asr i) ∧
      t = { s with
        sp := s.sp - 1
        asr := t.asr
        intsk := s.psw
        psw := .clear
        inte := false
        interrupts := { s.interrupts with
          irq := s.interrupts.irq && decide (src ≠ .irq)
          irqtm := s.interrupts.irqtm && decide (src ≠ .irqtm)
          irqsio := s.interrupts.irqsio && decide (src ≠ .irqsio) }
        pc := match src with
          | .irq => 0x003
          | .irqtm => 0x002
          | .irqsio => 0x001 }

/-- `RETI` right after an acceptance restores pc, SP and the five flags; INTE stays cleared (R426, R421). That the
interrupt stack needs no counter is the spec's decision (D3; log 12). -/
def Obligations.InterruptReturnRestores : Prop :=
  ∀ (s : State) (src : RequestFlag), 1 ≤ s.sp.toNat → s.sp.toNat ≤ 5 →
    ∃ t, exec .reti (acceptInterrupt s src) = .next t ∧ t.pc = s.pc ∧ t.sp = s.sp ∧ t.psw = s.psw ∧ t.inte = false ∧
      t.ram = s.ram ∧ t.wr = s.wr ∧ t.ar = s.ar ∧ t.ix = s.ix ∧ t.mpe = s.mpe ∧ t.rp = s.rp

/-- No interrupt is accepted at the boundary that directly follows an `EI`, whatever happens in its cycle (R423).
EI_HOLD is the spec's way of saying that `EI` takes effect one instruction later (R423). -/
def Obligations.EiDelaysAcceptance : Prop :=
  ∀ (s : State), ∃ t, exec .ei s = .next t ∧ (advanceCycle t).inte = true ∧ acceptable (advanceCycle t) = none

/-- The edge detector (R413): rising for IEGMD = 00B, falling for 01B, both for 10B; for 11B the open parameter; a
request once set stays; the pin's level is remembered. IEGMD = 11B is open (D16; log 12), sampling once a cycle a
decision (D20). -/
def Obligations.IntEdgeDetection : Prop :=
  ∀ s : State,
    (intEdge s).interrupts.intPrev = s.env.int ∧
    ((intEdge s).interrupts.irq = true ↔ s.interrupts.irq = true ∨
      (s.interrupts.iegmd = 0 ∧ s.interrupts.intPrev = false ∧ s.env.int = true) ∨
      (s.interrupts.iegmd = 1 ∧ s.interrupts.intPrev = true ∧ s.env.int = false) ∨
      (s.interrupts.iegmd = 2 ∧ s.interrupts.intPrev ≠ s.env.int) ∨
      (s.interrupts.iegmd = 3 ∧ Config.iegmd11 s.interrupts.intPrev s.env.int = true)) ∧
    intEdge s = { s with interrupts :=
      { s.interrupts with irq := (intEdge s).interrupts.irq, intPrev := s.env.int } }

/-! ### Standby (47_interrupt_other.md, 60_exceptions.md) -/

/-- A standby operand with a bit that is fixed at 0 set stops the machine (R292, R293). The spec's decision (D15; log
11). -/
def Obligations.StandbyFixedBitsStop : Prop :=
  ∀ (s : State) (x : BitVec 4),
    (x.getLsbD 2 = true ∨ x.getLsbD 0 = true → exec (.halt x) s = .fault (.haltOperandFixedBit x)) ∧
    (x.getLsbD 2 = true ∨ x.getLsbD 1 = true ∨ x.getLsbD 0 = true → exec (.stop x) s = .fault (.stopOperandFixedBit x))

/-- `HALT h` with a legal operand (R288, R433, R434): a NOP where its release condition already holds for the flags as
the preceding instruction left them to be seen, else HALT mode, a running comparison being interrupted. The stale view
and the fate of a running comparison are the spec's decisions (D22, D25; log 12). -/
def Obligations.HaltResults : Prop :=
  ∀ (s : State) (h : BitVec 4) (v : RequestFlag → Bool), h.getLsbD 2 = false → h.getLsbD 0 = false →
    (∀ f, v f = match s.staleView with
      | some (g, old) => if g = f then old else requestFlag s f
      | none => requestFlag s f) →
    (((h.getLsbD 3 = true ∧ ((v .irq = true ∧ s.interrupts.ip = true) ∨ (v .irqtm = true ∧ s.interrupts.iptm = true) ∨
          (v .irqsio = true ∧ s.interrupts.ipsio = true))) ∨ (h.getLsbD 1 = true ∧ v .irqtm = true)) →
      exec (.halt h) s = .next s) ∧
    (¬((h.getLsbD 3 = true ∧ ((v .irq = true ∧ s.interrupts.ip = true) ∨ (v .irqtm = true ∧ s.interrupts.iptm = true) ∨
          (v .irqsio = true ∧ s.interrupts.ipsio = true))) ∨ (h.getLsbD 1 = true ∧ v .irqtm = true)) →
      exec (.halt h) s = .next { s with
        mode := .halt h
        comparator := { s.comparator with tainted := s.comparator.tainted || s.comparator.cmpstrt } })

/-- `STOP 1000B` (R287, R433, R434): a NOP where its release condition already holds, else STOP mode with IRQTM and
TMC cleared and a running comparison abandoned. When these effects happen, and the stale view, are the spec's
decisions (D22, D23; log 12). -/
def Obligations.StopResults : Prop :=
  ∀ (s : State) (v : RequestFlag → Bool),
    (∀ f, v f = match s.staleView with
      | some (g, old) => if g = f then old else requestFlag s f
      | none => requestFlag s f) →
    ((v .irq = true ∧ s.interrupts.ip = true) ∨ (v .irqsio = true ∧ s.interrupts.ipsio = true) →
      exec (.stop 8) s = .next s) ∧
    (¬((v .irq = true ∧ s.interrupts.ip = true) ∨ (v .irqsio = true ∧ s.interrupts.ipsio = true)) →
      exec (.stop 8) s = .next { s with
        mode := .stop 8
        interrupts := { s.interrupts with irqtm := false }
        timer := { s.timer with tmc := 0 }
        comparator := { s.comparator with cmpstrt := false, remaining := 0, tainted := false } })

/-- `STOP 0000B` (R436): STOP mode over the state right after reset, every pin an input. What is initialised and when
is the spec's decision (D23; logs 12, 25). -/
def Obligations.StopInitialises : Prop :=
  ∀ s : State, ∃ t, exec (.stop 0) s = .next t ∧ t.mode = .stop 0 ∧ t.ports = State.reset.ports ∧ t.sp = 5 ∧
    t.ar = 0 ∧ t.mpe = false ∧ t.ix = 0 ∧ t.rp = 0 ∧ t.psw = .clear ∧ t.inte = false ∧ t.skip = false ∧
    t.eiHold = false ∧ t.pdresen = false ∧
    t.timer = { State.reset.timer with presc := s.timer.presc } ∧
    t.serial = { State.reset.serial with sfr := t.serial.sfr, divider := t.serial.divider, sck := t.serial.sck } ∧
    t.comparator = State.reset.comparator ∧
    t.interrupts = { State.reset.interrupts with intPrev := s.interrupts.intPrev } ∧
    t.part = s.part ∧ t.rom = s.rom ∧ t.env = s.env ∧ t.pc = s.pc

/-- Outside Run mode, with no reset applied, a step always answers and executes no instruction: registers, stack, data
memory, flags, port modes, the control registers that only instructions write and TMM keep their state (R432, R435,
70_reset_and_hazards.md R461). What goes on during the waits is the model's reading (logs 15, 17). -/
def Obligations.StandbyKeepsProgramState : Prop :=
  ∀ s : State, s.mode ≠ .run → resetRequest s = none → ∃ t, step s = .next t ∧ SameProgramState s t

/-- With operand 0000B only a reset ends HALT or STOP mode; and no request of the timer ends STOP mode (R430). -/
def Obligations.StandbyReleasedOnlyByReset : Prop :=
  ∀ s : State, resetRequest s = none →
    (s.mode = .halt 0 → ∃ t, step s = .next t ∧ t.mode = .halt 0) ∧
    (s.mode = .stop 0 → ∃ t, step s = .next t ∧ t.mode = .stop 0) ∧
    (∀ v, s.mode = .stop v → s.interrupts.ip = false → s.interrupts.ipsio = false →
      ∃ t, step s = .next t ∧ t.mode = .stop v)

/-- A permitted interrupt request, or IRQTM under operand bit 1, ends HALT mode at the end of the cycle; INTE plays no
part (R430 to R432). The order of the events of a cycle is the spec's decision (D7, D18; log 12). -/
def Obligations.HaltRelease : Prop :=
  ∀ (s : State) (h : BitVec 4), s.mode = .halt h → resetRequest s = none →
    ∃ t u, step s = .next t ∧ u = advanceCycle s ∧
      (((h.getLsbD 3 = true ∧ ((u.interrupts.irq = true ∧ u.interrupts.ip = true) ∨
            (u.interrupts.irqtm = true ∧ u.interrupts.iptm = true) ∨
            (u.interrupts.irqsio = true ∧ u.interrupts.ipsio = true))) ∨
          (h.getLsbD 1 = true ∧ u.interrupts.irqtm = true)) → t = { u with mode := .run }) ∧
      (¬((h.getLsbD 3 = true ∧ ((u.interrupts.irq = true ∧ u.interrupts.ip = true) ∨
            (u.interrupts.irqtm = true ∧ u.interrupts.iptm = true) ∨
            (u.interrupts.irqsio = true ∧ u.interrupts.ipsio = true))) ∨
          (h.getLsbD 1 = true ∧ u.interrupts.irqtm = true)) → t = u)

/-- STOP 1000B ends at IRQ with IP or IRQSIO with IPSIO, at the end of the cycle in which that holds, into a wait that
starts from TMC = 00H (R430, R435). In the wait no other program state changes (StandbyKeepsProgramState); each count
pulse counts, TMM of them change TMC only, the next ends the wait with IRQTM and TMC at some value (U7). With TMEN = 1 a
pulse comes in a cycle in which the clock that TMCK selects falls. The length, the clock and what runs in the wait are the
spec's decisions and the model's reading (D24; logs 12, 17), with TMM = 00H, which R336 leaves unspecified, a choice (log 17). -/
def Obligations.StopRelease : Prop :=
  (∀ (s : State) (v : BitVec 4), s.mode = .stop v → v.getLsbD 3 = true → resetRequest s = none →
    ∃ u, u = advanceCycle s ∧
      ((u.interrupts.irq = true ∧ u.interrupts.ip = true) ∨ (u.interrupts.irqsio = true ∧ u.interrupts.ipsio = true) →
        step s = .next { u with mode := .stopWait, timer := { u.timer with tmc := 0 } }) ∧
      (¬((u.interrupts.irq = true ∧ u.interrupts.ip = true) ∨
          (u.interrupts.irqsio = true ∧ u.interrupts.ipsio = true)) → step s = .next u)) ∧
  (∀ (s i : State), s.mode = .stopWait → resetRequest s = none → s.timer.tmen = true → i = nextInputs s →
    (pulseFalls s = true ∨ (s.timer.tmck = 3 ∧ s.interrupts.intPrev = true ∧ i.env.int = false) →
      step s = .next (tick (waitCount (waitAdvance i)))) ∧
    (¬(pulseFalls s = true ∨ (s.timer.tmck = 3 ∧ s.interrupts.intPrev = true ∧ i.env.int = false)) →
      ∃ t, step s = .next t ∧ t.mode = .stopWait ∧ t.timer.tmc = s.timer.tmc)) ∧
  ∀ s : State, s.mode = .stopWait → s.timer.tmc = 0 →
    (∀ k, k ≤ s.timer.tmm.toNat → waitCount^[k] s = { s with timer := { s.timer with tmc := BitVec.ofNat 8 k } }) ∧
    ∃ t, waitCount^[s.timer.tmm.toNat + 1] s = t ∧ t = { s with
      mode := .run
      timer := { s.timer with tmc := t.timer.tmc }
      interrupts := { s.interrupts with irqtm := t.interrupts.irqtm } }

/-! ### Peripherals (50_peripherals.md) -/

/-- The timer's part of an instruction cycle is sixteen system clocks of R300 and R334. It justifies the coarser step
that R300 allows (log 7). A system clock advances the prescaler and, with TMEN = 1, counts where an internal pulse falls, which
is where the prescaler reaches a multiple of its period: 256, 32 or 2048 system clocks for TMCK = 00B, 01B, 10B (R333, R334);
the pulse is low in the first half of the period. TMCK = 11B counts at the INT pin, outside this part, and is low with it. -/
def Obligations.TimerCycleIsSixteenClocks : Prop :=
  (∀ s : State, timerCycle s = timerClock^[16] s) ∧
  ∀ (s u : State) (n : Nat), u = { s with timer := { s.timer with presc := s.timer.presc + 1 } } →
    n = (if s.timer.tmck = 0 then 256 else if s.timer.tmck = 1 then 32 else 2048) →
    (s.timer.tmck ≠ 3 →
      timerClock s = (if s.timer.tmen = true ∧ (s.timer.presc.toNat + 1) % n = 0 then timerCount u else u) ∧
      (pulseLow s = true ↔ s.timer.presc.toNat % n < n / 2) ∧
      (pulseFalls s = true ↔ ∃ k < 16, (s.timer.presc.toNat + (k + 1)) % n = 0)) ∧
    (s.timer.tmck = 3 → timerClock s = u ∧ (pulseLow s = true ↔ s.env.int = false) ∧ pulseFalls s = false)

/-- The match comes every TMM + 1 counts (R334): from TMC = 00H the first TMM counts only count, the next clears TMC,
sets IRQTM and inverts the output flip-flop. Counting at falling edges is the spec's inference (R334). -/
def Obligations.TimerPeriod : Prop :=
  ∀ s : State, s.timer.tmc = 0 →
    (∀ k, k ≤ s.timer.tmm.toNat → timerCount^[k] s = { s with timer := { s.timer with tmc := BitVec.ofNat 8 k } }) ∧
    timerCount^[s.timer.tmm.toNat + 1] s = { s with
      timer := { s.timer with tmc := 0, tmoutFf := !s.timer.tmoutFf }
      interrupts := { s.interrupts with irqtm := true } }

/-- A serial transfer (R354): at the falling edges the bits of SIOSFR come out most significant first; after eight
rising edges SIOSFR holds the eight bits received, the first in bit 7, SIOTS = 0 and IRQSIO = 1. SO_LATCH keeps the last
bit (R356, vector SIO1 of 95_test_vectors.md); the mark that a port read of POD1 is undefined from then on is the model's
(R315, U5; log 22), so is the remembered clock level (log 21).

The edges are those of the clock that SIOCK selects (R351, R352, vector SIO4), at their own system clocks and with the level
of SI there: with SIOEN = 0 or SIOTS = 0 nothing shifts whatever the clock does; an internal clock, of 16, 128 or 1024 system
clocks, is high until its divider first ends a period (R354), falls there and rises once before the next end; the external clock
acts at each change of the SCK pin; in STOP mode only the external clock acts. The rising edge comes less than one instruction
cycle before the end of the period, so that the eighth is 8 periods after the first falling edge (R354, vector SIO3); its
place within that cycle is open (log 20). The pins SCK and SI are at their external levels, high through a pull-up where
nothing outside drives them (R302, 10_state.md R66; log 27). -/
def Obligations.SerialTransfer : Prop :=
  (∀ s : State,
    (s.serial.sioen = false ∨ s.serial.siots = false →
      ∃ c, sioCycle s = { s with serial := { s.serial with divider := s.serial.divider + 16, sck := c } } ∧
        (s.serial.siock = 0 → c = sckLevel s 15) ∧ (s.serial.siock ≠ 0 → s.serial.siots = false → c = true) ∧
        sioStopped s = { s with serial := { s.serial with
          sck := if s.serial.siock = 0 then sckLevel s 15 else s.serial.sck } }) ∧
    (s.serial.sioen = true → s.serial.siots = true → s.serial.siock = 0 →
      sioStopped s = (List.range 16).foldl externalClock s ∧
      ∀ t, t = (List.range 16).foldl externalClock s →
        sioCycle s = { t with serial := { t.serial with divider := t.serial.divider + 16 } }) ∧
    ∀ k, externalClock s k =
      if sckLevel s k = s.serial.sck then s
      else if s.serial.sioen = true ∧ s.serial.siots = true then
        (if sckLevel s k then sioRising s (siLevel s k) else sioFalling s)
      else { s with serial := { s.serial with sck := sckLevel s k } }) ∧
  (∃ rise : Nat → Nat, (∀ n, 16 ≤ n → 0 < rise n ∧ n < rise n + 16 ∧ rise n < n) ∧
    ∀ (s : State) (n d : Nat), s.serial.sioen = true → s.serial.siots = true → s.serial.siock ≠ 0 →
      n = (if s.serial.siock = 1 then 16 else if s.serial.siock = 2 then 128 else 1024) →
      d = s.serial.divider.toNat % n →
      sioStopped s = s ∧
      (∀ t, t = (List.range 16).foldl internalClock s →
        sioCycle s = { t with serial := { t.serial with divider := t.serial.divider + 16 } }) ∧
      (s.serial.sck = true → ∀ k ≤ 16, (List.range k).foldl internalClock s =
        if d + k < n then s
        else if d + k < n + rise n then sioFalling s
        else sioRising (sioFalling s) (siLevel s (n + rise n - d - 1))) ∧
      (s.serial.sck = false → d < rise n → ∀ r, r = sioRising s (siLevel s (rise n - d - 1)) → ∀ k ≤ 16,
        (List.range k).foldl internalClock s =
          if d + k < rise n then s else if d + k < n ∨ r.serial.siots = false then r else sioFalling r)) ∧
  (∀ (s : State) (n : Nat), s.serial.sioen = true → s.serial.siots = true → s.serial.siock ≠ 0 →
    n = (if s.serial.siock = 1 then 16 else if s.serial.siock = 2 then 128 else 1024) →
    s.serial.sck = true → s.serial.cnt = 0 → s.serial.divider.toNat % n + 16 = n →
    (∀ j < n / 2, (sioCycle^[j + 1] s).serial.siots = true) ∧
    (sioCycle^[n / 2 + 1] s).serial.siots = false ∧ (sioCycle^[n / 2 + 1] s).interrupts.irqsio = true) ∧
  (∀ (s : State) (k : Nat),
    sckLevel s k = (s.env.sckWave.getLsbD k || (s.env.podOpen.getLsbD 0 && !isProm s.part && s.mask.pod.getLsbD 0)) ∧
    siLevel s k = (s.env.siWave.getLsbD k || (s.env.podOpen.getLsbD 2 && !isProm s.part && s.mask.pod.getLsbD 2))) ∧
  ∀ (s : State) (b : Fin 8 → Bool), s.serial.cnt = 0 → s.serial.siots = true →
    (∀ k : Fin 8,
      (sioFalling (((List.finRange 8).take k).foldl (fun u j => sioRising (sioFalling u) (b j)) s)).ports.podL.getLsbD 1
        = s.serial.sfr.getLsbD (7 - k)) ∧
    ∀ t, t = (List.finRange 8).foldl (fun u j => sioRising (sioFalling u) (b j)) s →
      (∀ k : Fin 8, t.serial.sfr.getLsbD (7 - k) = b k) ∧ t.serial.siots = false ∧ t.serial.cnt = 0 ∧
        t.interrupts = { s.interrupts with irqsio := true } ∧
        t.serial = { s.serial with sfr := t.serial.sfr, siots := false, cnt := 0, sck := true } ∧
        { t with serial := s.serial, interrupts := s.interrupts, ports := s.ports } = s ∧
        t.ports = { s.ports with podL := withBit1 s.ports.podL (s.serial.sfr.getLsbD 0), soUsed := true }

/-- A comparison takes the cycle of the starting `POKE` and CMP_CYCLES more (R343), 2 on the uPD17132 and 17P132, 6 on the
uPD17133 and 17P133: before that CMPSTRT reads 1 and CMPRSLT keeps its value, then CMPSTRT reads 0. For different voltages the
result says whether the analog input that CMPCH selects, Cin0 to Cin3 (R341), is above the reference, the voltage on Vref for
CMPVREF = 0000B, else CMPVREF sixteenths of VDD (R342, R344). Counting from the end of the `POKE` is the spec's inference (R300,
R343; log 12). -/
def Obligations.ComparisonDuration : Prop :=
  (∀ p : Part, cmpCycles p =
    if p = .u17132 ∨ p = .u17P132 then 2 else if p = .u17133 ∨ p = .u17P133 then 6 else 0) ∧
  ∀ (s : State) (input reference16 : Nat),
    s.comparator.cmpstrt = true → s.comparator.remaining = cmpCycles s.part + 1 → s.comparator.tainted = false →
    input = (if s.comparator.cmpch = 0 then s.env.cin0 else if s.comparator.cmpch = 1 then s.env.cin1
      else if s.comparator.cmpch = 2 then s.env.cin2 else s.env.cin3) →
    reference16 = (if s.comparator.cmpvref = 0 then 16 * s.env.vref else s.comparator.cmpvref.toNat * s.env.vdd) →
    (∀ k, k ≤ cmpCycles s.part →
      comparatorCycle^[k] s = { s with comparator := { s.comparator with remaining := cmpCycles s.part + 1 - k } }) ∧
    ∃ t, t = comparatorCycle^[cmpCycles s.part + 1] s ∧
      t = { s with comparator :=
        { s.comparator with cmprslt := t.comparator.cmprslt, cmpstrt := false, remaining := 0 } } ∧
      (reference16 < 16 * input → t.comparator.cmprslt = true) ∧
      (16 * input < reference16 → t.comparator.cmprslt = false)

/-- What a read of each port register gives, bit by bit: ports OA, OB and OC the latch of an output and the pin of an
input (R304, R308, R310, R311); port OD likewise for a pin that is a port, SCK the latch for an internal and the pin for
an external clock, SI and the input POD1 of SIOHIZ = 1 the pin, TMOUT the latch (R314, R315, R353); port OE always the
pin, pulled low by the chip for an output at 0 (R318). The pin is the external level, high through a pull-up where
nothing outside drives it. Nothing is said of what the manual calls undefined: SO, POD1 as an output once the shifter has
changed its latch (R315, U5; log 22), an analog input. SCK is the spec's decision (D21; log 12), that POE1 as Vref is not
pulled low is read from R318 and R342 (log 26), what a pin nothing drives reads is the model's choice (log 27).

And what the chip drives on each pin (R301, R302): a CMOS output its latch, an open-drain output low for a latch of 0 and
nothing else, an input nothing; POD1 as SO its latch, which SIOHIZ = 1 takes off the pin, POD2 as SI nothing (R353); POD3 as
TMOUT the flip-flop, whatever PODBIO3 is (R337); POE1 as Vref nothing. POD0 as SCK is not driven for the external clock and
without a transfer; for an internal clock it shows the clock whose edges shift: low from the end of a period of its divider to
the rising edge in the next, until the eighth bit is in; without a system clock it stands still (R351, R354). Where in the last
instruction cycle of the period it rises is open (log 20); the levels are those of the state and, for SCK, of the system clocks
of the cycle it begins (DESIGN CHOICE, log 9). -/
def Obligations.PortReads : Prop :=
  (∀ (s : State) (slot : ReadSlot) (n : Nat) (podPin poePin : Bool), n < 4 →
    podPin = (s.env.pod.getLsbD n || (s.env.podOpen.getLsbD n && !isProm s.part && s.mask.pod.getLsbD n)) →
    poePin = (s.env.poe.getLsbD n || (s.env.poeOpen.getLsbD n && !isProm s.part && s.mask.poe.getLsbD n)) →
    (dmRead s slot 0x70).getLsbD n = (if s.ports.poabio.getLsbD n then s.ports.poaL.getLsbD n else s.env.poa.getLsbD n) ∧
    (dmRead s slot 0x71).getLsbD n = (if s.ports.pobgio then s.ports.pobL.getLsbD n else s.env.pob.getLsbD n) ∧
    (s.ports.pocbio.getLsbD n = true → (dmRead s slot 0x72).getLsbD n = s.ports.pocL.getLsbD n) ∧
    (s.ports.pocbio.getLsbD n = false → hasCmp s.part = false ∨ s.ports.pocidi.getLsbD n = false →
      (dmRead s slot 0x72).getLsbD n = s.env.poc.getLsbD n) ∧
    ((n < 3 ∧ s.serial.sioen = false) ∨ (n = 3 ∧ s.timer.tmosel = false) →
      (s.ports.podbio.getLsbD n = true → n ≠ 1 ∨ s.ports.soUsed = false →
        (dmRead s slot 0x73).getLsbD n = s.ports.podL.getLsbD n) ∧
      (s.ports.podbio.getLsbD n = false → (dmRead s slot 0x73).getLsbD n = podPin)) ∧
    (s.serial.sioen = true →
      (n = 0 → s.serial.siock ≠ 0 → (dmRead s slot 0x73).getLsbD n = s.ports.podL.getLsbD n) ∧
      (n = 0 → s.serial.siock = 0 → (dmRead s slot 0x73).getLsbD n = podPin) ∧
      (n = 1 → s.serial.siohiz = true → (dmRead s slot 0x73).getLsbD n = podPin) ∧
      (n = 2 → (dmRead s slot 0x73).getLsbD n = podPin)) ∧
    (s.timer.tmosel = true → n = 3 → (dmRead s slot 0x73).getLsbD n = s.ports.podL.getLsbD n) ∧
    (2 ≤ n → (dmRead s slot 0x6F).getLsbD n = false) ∧
    (n < 2 → n = 1 ∧ hasCmp s.part = true ∧ s.comparator.cmpvref = 0 → (dmRead s slot 0x6F).getLsbD n = poePin) ∧
    (n < 2 → ¬(n = 1 ∧ hasCmp s.part = true ∧ s.comparator.cmpvref = 0) →
      (dmRead s slot 0x6F).getLsbD n =
        (if s.ports.poebio.getLsbD n && !s.ports.poeL.getLsbD n then false else poePin))) ∧
  (∀ (s : State) (n : Fin 4),
    poaDrive s n = (if s.ports.poabio.getLsbD n then (if s.ports.poaL.getLsbD n then .high else .low) else .released) ∧
    pobDrive s n = (if s.ports.pobgio then (if s.ports.pobL.getLsbD n then .high else .low) else .released) ∧
    pocDrive s n = (if s.ports.pocbio.getLsbD n then (if s.ports.pocL.getLsbD n then .high else .low) else .released)) ∧
  (∀ s : State,
    (s.serial.sioen = false →
      (∀ k, pod0Drive s k = if s.ports.podbio.getLsbD 0 ∧ s.ports.podL.getLsbD 0 = false then .low else .released) ∧
      (s.ports.soUsed = false →
        pod1Drive s = if s.ports.podbio.getLsbD 1 ∧ s.ports.podL.getLsbD 1 = false then .low else .released) ∧
      (s.ports.podbio.getLsbD 1 = false → pod1Drive s = .released) ∧
      pod2Drive s = if s.ports.podbio.getLsbD 2 ∧ s.ports.podL.getLsbD 2 = false then .low else .released) ∧
    (s.serial.sioen = true →
      pod1Drive s = (if s.serial.siohiz = false ∧ s.ports.podL.getLsbD 1 = false then .low else .released) ∧
      pod2Drive s = .released ∧
      (s.serial.siock = 0 ∨ s.serial.siots = false → ∀ k, pod0Drive s k = .released)) ∧
    pod3Drive s = (if s.timer.tmosel then (if s.timer.tmoutFf then .released else .low)
      else if s.ports.podbio.getLsbD 3 ∧ s.ports.podL.getLsbD 3 = false then .low else .released) ∧
    ∀ n : Fin 2, poeDrive s n =
      if s.ports.poebio.getLsbD n ∧ s.ports.poeL.getLsbD n = false ∧
          ¬(n = 1 ∧ hasCmp s.part = true ∧ s.comparator.cmpvref = 0) then .low else .released) ∧
  ∃ rise : Nat → Nat, (∀ n, 16 ≤ n → 0 < rise n ∧ n < rise n + 16 ∧ rise n < n) ∧
    ∀ (s : State) (n d : Nat), s.serial.sioen = true → s.serial.siots = true → s.serial.siock ≠ 0 →
      n = (if s.serial.siock = 1 then 16 else if s.serial.siock = 2 then 128 else 1024) →
      d = s.serial.divider.toNat % n →
      (s.mode = .run ∨ (∃ h, s.mode = .halt h) → ∀ k : Fin 16,
        (pod0Drive s k = if ((List.range (k + 1)).foldl internalClock s).serial.sck then .released else .low) ∧
        (s.serial.sck = true →
          pod0Drive s k = if n ≤ d + (k + 1) ∧ d + (k + 1) < n + rise n then .low else .released) ∧
        (s.serial.sck = false → d < rise n →
          pod0Drive s k =
            if d + (k + 1) < rise n ∨ (n ≤ d + (k + 1) ∧ s.serial.cnt ≠ 7) then .low else .released)) ∧
      ((∃ v, s.mode = .stop v) ∨ s.mode = .stopWait →
        ∀ k, pod0Drive s k = if s.serial.sck then .released else .low)

/-! ### Reset (70_reset_and_hazards.md) -/

/-- The reset state (10_state.md R67), for the part the model's reset state takes; the values of data memory, WR,
SIOSFR and the stacks are the model's choice (logs 5, 6) and not stated here. The part is the model's choice (log 1). -/
def Obligations.ResetState : Prop :=
  State.reset.pc = 0 ∧ State.reset.sp = 5 ∧ State.reset.ar = 0 ∧ State.reset.mpe = false ∧ State.reset.ix = 0 ∧
  State.reset.rp = 0 ∧ State.reset.psw = .clear ∧
  dmRead State.reset .first 0x79 = 0 ∧
  rfRead State.reset 0x01 = 0b0101 ∧ rfRead State.reset 0x0A = 0 ∧ rfRead State.reset 0x10 = 0 ∧
  rfRead State.reset 0x11 = 0b1000 ∧ rfRead State.reset 0x12 = 0 ∧ rfRead State.reset 0x1A = 0 ∧
  rfRead State.reset 0x1C = 0 ∧ rfRead State.reset 0x1D = 0b1000 ∧ rfRead State.reset 0x1E = 0b0001 ∧
  rfRead State.reset 0x1F = 0 ∧ rfRead State.reset 0x23 = 0 ∧ rfRead State.reset 0x24 = 0 ∧
  rfRead State.reset 0x2F = 0 ∧ rfRead State.reset 0x32 = 0 ∧ rfRead State.reset 0x33 = 0 ∧
  rfRead State.reset 0x34 = 0 ∧ rfRead State.reset 0x35 = 0 ∧ rfRead State.reset 0x3D = 0 ∧
  rfRead State.reset 0x3E = 1 ∧ rfRead State.reset 0x3F = 0 ∧
  State.reset.ports.poaL = 0 ∧ State.reset.ports.pobL = 0 ∧ State.reset.ports.pocL = 0 ∧ State.reset.ports.podL = 0 ∧
  State.reset.ports.poeL = 0 ∧ State.reset.timer.tmc = 0 ∧ State.reset.timer.tmm = 0xFF ∧
  State.reset.timer.tmoutFf = true ∧ State.reset.inte = false ∧ State.reset.eiHold = false ∧
  State.reset.skip = false ∧ State.reset.mode = .run ∧ State.reset.irqStale = none

/-- The resets from outside (R461, R462 columns (a) to (d), and a true power-on): what every one of them sets, the
control registers of the serial interface, SIO_CNT and the port modes included, and what is kept of data memory other
than DBF, WR and SIOSFR: nothing by a RESET input during operation or a power-on, all of it by the others. A reset in the wait
of another is a new one, during operation, since R461 sets Run mode before the wait. A reset applied in the cycle before that
still holds is the same reset: its whole wait starts again and INT_PREV follows the pin. That 4096 cycles are the wait, that
consecutive cycles are one reset, the columns in the wait after STOP mode and the supply levels are the model's reading (logs
14, 15, 16).

When one is applied (R461, R464 to R466): RESET low, which a pin that nothing outside drives is not on a mask ROM part with the
pull-up (10_state.md R66); a supply below the detect level with PDRESEN = 1, or while the reset it caused lasts, and not
otherwise; a supply below 2.7 V (log 16).

And the wait: each cycle counts down, no request flag, INT_PREV or TMC changes, and the last cycle ends in Run mode. So 4096
cycles after the reset, and no sooner, the machine is at the boundary of the first instruction, at 0000H with TMC = 00H,
IRQTM = 1, IRQ = 0 and the rest as the reset left it (R461, 50_peripherals.md R338 (a), 10_state.md R67). -/
def Obligations.ExternalReset : Prop :=
  (∀ s : State,
    (s.env.reset = .inactive → resetRequest s = none) ∧
    (s.env.reset = .resetLow → resetRequest s =
      if s.env.resetOpen = true ∧ s.mask.resetPin = true ∧ s.part ≠ .u17P132 ∧ s.part ≠ .u17P133 then none
      else some .resetPin) ∧
    (s.env.reset = .supplyLow → resetRequest s =
      if s.pdresen = true ∨ s.mode = .resetWait .powerDown 4096 then some .powerDown else none) ∧
    (s.env.reset = .supplyLost → resetRequest s = some .powerOn)) ∧
  (∀ (s : State) (kind : ResetKind) (left : Nat), s.mode = .resetWait kind left → resetRequest s = none →
    ∃ t, step s = .next t ∧ t.mode = (if left ≤ 1 then .run else .resetWait kind (left - 1)) ∧
      t.interrupts = s.interrupts ∧ t.timer = { s.timer with presc := s.timer.presc + 16 }) ∧
  ∀ (s : State) (kind : ResetKind), resetRequest s = some kind →
    (s.mode ≠ .resetWait kind 4096 →
      ∃ t u, step s = .next t ∧ t = tick (nextInputs u) ∧
        u.pc = 0 ∧ u.sp = 5 ∧ u.ar = 0 ∧ u.mpe = false ∧ u.ix = 0 ∧ u.rp = 0 ∧ u.psw = .clear ∧ u.inte = false ∧
        u.skip = false ∧ u.eiHold = false ∧ u.irqStale = none ∧ u.pdresen = false ∧ u.ports = State.reset.ports ∧
        u.timer = { State.reset.timer with presc := u.timer.presc } ∧
        u.serial = { State.reset.serial with sfr := u.serial.sfr, divider := u.serial.divider, sck := u.serial.sck } ∧
        u.comparator = State.reset.comparator ∧
        u.interrupts = { State.reset.interrupts with intPrev := s.env.int } ∧
        u.mode = .resetWait kind 4096 ∧
        ((kind = .powerDown ∨ (kind = .resetPin ∧ ((∃ h, s.mode = .halt h) ∨ ∃ v, s.mode = .stop v))) →
          u.wr = s.wr ∧ u.serial.sfr = s.serial.sfr ∧
          ∀ a, (a < 12 ∨ 15 < a) → cellsRead u.ram a = cellsRead s.ram a) ∧
        ∀ run : Nat → State, run 0 = t →
          (∀ k < 4096, resetRequest (run k) = none ∧ step (run k) = .next (run (k + 1))) →
          (∀ k < 4096, (run k).mode ≠ .run) ∧ (run 4096).mode = .run ∧ SameProgramState u (run 4096) ∧
            (run 4096).interrupts = { State.reset.interrupts with intPrev := s.env.int } ∧
            (run 4096).timer = { State.reset.timer with presc := (run 4096).timer.presc } ∧
            (run 4096).pc = 0 ∧ (run 4096).timer.tmc = 0 ∧ (run 4096).timer.tmen = true ∧
            (run 4096).interrupts.irqtm = true ∧ (run 4096).interrupts.irq = false ∧
            (run 4096).interrupts.irqsio = false) ∧
    (s.mode = .resetWait kind 4096 →
      step s = .next (tick (nextInputs { s with interrupts := { s.interrupts with intPrev := s.env.int } })))

/-! ### The machine as a whole -/

/-- What is read from program memory is the word programmed there, FFFFH beyond its end; program memory, the part and the
mask options never change: no instruction, no interrupt, no reset writes them (20_memory.md R101, R104; 00_scope.md R4;
10_state.md R66). It ends after 768 words on the uPD17120 and 17121 and after 1024 on the others (00_scope.md R4). FFFFH for a
`MOVT` beyond the end is the spec's decision (R105, D5; log 12). -/
def Obligations.ProgramMemoryConstant : Prop :=
  (∀ (s : State) (a : RomAddr), romRead s a =
    if a.toNat < (if s.part = .u17120 ∨ s.part = .u17121 then 768 else 1024) then cellsRead s.rom a.toNat else 0xFFFF) ∧
    ∀ s t : State, step s = .next t →
      (∀ a, romRead t a = romRead s a) ∧ t.rom = s.rom ∧ t.part = s.part ∧ t.mask = s.mask

/-- The invariant holds at reset. -/
def Obligations.InvariantAtReset : Prop := Inv State.reset

/-- Every step keeps the invariant, from every state that has it: memories in canonical form, SP at most 5, a serial clock count
below 8, a comparator count within its range, legal standby operands, nothing pending outside Run mode. -/
def Obligations.InvariantKept : Prop := ∀ s t : State, Inv s → step s = .next t → Inv t
end

