-- ==== Sys2Proof/Laws/Memory.lean ====
section
/-! SUPPORT. Laws of the sparse memories: a read after a write, and the canonical form, which every memory operation keeps
and which makes memories with the same content equal. -/

namespace Sys2Proof.Machine

variable {w : Nat}

@[simp] theorem cellsRead_nil (a : Nat) : cellsRead ([] : Cells w) a = 0 := rfl

/-! ### Reads after writes -/

theorem cellsRead_put_same (mem : Cells w) (a : Nat) (v : BitVec w) : cellsRead (cellsPut mem a v) a = v := by
  induction mem with
  | nil => simp [cellsPut, cellsRead]
  | cons c rest ih =>
    simp only [cellsPut]
    split
    · simp [cellsRead]
    · split
      · simp [cellsRead]
      · have : c.1 ≠ a := fun h => by simp_all
        simp [cellsRead, this, ih]

theorem cellsRead_put_other (mem : Cells w) {a b : Nat} (v : BitVec w) (h : b ≠ a) :
    cellsRead (cellsPut mem a v) b = cellsRead mem b := by
  induction mem with
  | nil => simp [cellsPut, cellsRead, h.symm]
  | cons c rest ih =>
    simp only [cellsPut]
    split
    · simp [cellsRead, h.symm]
    · split
      · rename_i _ hc
        simp [cellsRead, h.symm, ← hc]
      · simp [cellsRead, ih]

theorem cellsRead_erase_same (mem : Cells w) (a : Nat) : cellsRead (cellsErase mem a) a = 0 := by
  induction mem with
  | nil => simp [cellsErase]
  | cons c rest ih =>
    by_cases hc : c.1 = a
    · simpa [cellsErase, hc] using ih
    · simpa [cellsErase, hc, cellsRead] using ih

theorem cellsRead_erase_other (mem : Cells w) {a b : Nat} (h : b ≠ a) :
    cellsRead (cellsErase mem a) b = cellsRead mem b := by
  induction mem with
  | nil => simp [cellsErase]
  | cons c rest ih =>
    by_cases hc : c.1 = a
    · have : c.1 ≠ b := fun e => h (e.symm.trans hc)
      simpa [cellsErase, hc, cellsRead, h.symm] using ih
    · simp only [cellsErase, List.filter_cons, bne_iff_ne, ne_eq, hc, not_false_eq_true, ↓reduceIte, cellsRead]
      split
      · rfl
      · simpa [cellsErase] using ih

/-- A read of the address written gives the value written. -/
@[simp] theorem cellsRead_write_same (mem : Cells w) (a : Nat) (v : BitVec w) :
    cellsRead (cellsWrite mem a v) a = v := by
  unfold cellsWrite
  split
  · next h => rw [cellsRead_erase_same, h]
  · exact cellsRead_put_same mem a v

/-- A write leaves every other address alone. -/
theorem cellsRead_write_other (mem : Cells w) {a b : Nat} (v : BitVec w) (h : b ≠ a) :
    cellsRead (cellsWrite mem a v) b = cellsRead mem b := by
  unfold cellsWrite
  split
  · exact cellsRead_erase_other mem h
  · exact cellsRead_put_other mem v h

/-- Both laws at once. -/
theorem cellsRead_write (mem : Cells w) (a b : Nat) (v : BitVec w) :
    cellsRead (cellsWrite mem a v) b = if b = a then v else cellsRead mem b := by
  split
  · next h => rw [h, cellsRead_write_same]
  · next h => exact cellsRead_write_other mem v h

/-! ### The canonical form -/

theorem cellsWf_nil (bound : Nat) : cellsWf bound ([] : Cells w) := by simp [cellsWf]

theorem mem_cellsPut {mem : Cells w} {a : Nat} {v : BitVec w} {c : Nat × BitVec w} (h : c ∈ cellsPut mem a v) :
    c = (a, v) ∨ c ∈ mem := by
  induction mem with
  | nil => simpa [cellsPut] using h
  | cons d rest ih =>
    simp only [cellsPut] at h
    split at h
    · simpa using h
    · split at h
      · rcases List.mem_cons.mp h with h | h
        · exact .inl h
        · exact .inr (List.mem_cons_of_mem _ h)
      · rcases List.mem_cons.mp h with h | h
        · exact .inr (h ▸ List.mem_cons_self)
        · rcases ih h with h | h
          · exact .inl h
          · exact .inr (List.mem_cons_of_mem _ h)

theorem cellsPut_rising {mem : Cells w} {a : Nat} {v : BitVec w} (h : mem.Pairwise fun c d => c.1 < d.1) :
    (cellsPut mem a v).Pairwise fun c d => c.1 < d.1 := by
  induction mem with
  | nil => simp [cellsPut]
  | cons c rest ih =>
    obtain ⟨hc, hrest⟩ := List.pairwise_cons.mp h
    simp only [cellsPut]
    split
    · next ha =>
      refine List.pairwise_cons.mpr ⟨fun d hd => ?_, h⟩
      rcases List.mem_cons.mp hd with rfl | hd
      · exact ha
      · exact Nat.lt_trans ha (hc d hd)
    · next ha =>
      split
      · next e => exact List.pairwise_cons.mpr ⟨fun d hd => by simpa [e] using hc d hd, hrest⟩
      · next e =>
        refine List.pairwise_cons.mpr ⟨fun d hd => ?_, ih hrest⟩
        rcases mem_cellsPut hd with rfl | hd
        · simp only
          omega
        · exact hc d hd

/-- A write within the bound keeps the canonical form. -/
theorem cellsWf_write {bound : Nat} {mem : Cells w} {a : Nat} (v : BitVec w) (h : cellsWf bound mem) (ha : a < bound) :
    cellsWf bound (cellsWrite mem a v) := by
  unfold cellsWrite
  split
  · exact ⟨h.1.filter _, fun c hc => h.2 c (List.mem_filter.mp hc).1⟩
  · next hv =>
    refine ⟨cellsPut_rising h.1, fun c hc => ?_⟩
    rcases mem_cellsPut hc with rfl | hc
    · exact ⟨hv, ha⟩
    · exact h.2 c hc

theorem cellsRead_of_forall_lt {mem : Cells w} {a : Nat} (h : ∀ c ∈ mem, a < c.1) : cellsRead mem a = 0 := by
  induction mem with
  | nil => rfl
  | cons c rest ih =>
    have := h c List.mem_cons_self
    rw [cellsRead, if_neg (by omega)]
    exact ih fun d hd => h d (List.mem_cons_of_mem _ hd)

/-- Canonical memories with the same content are the same list. -/
theorem cells_ext {bound : Nat} {m n : Cells w} (hm : cellsWf bound m) (hn : cellsWf bound n)
    (h : ∀ a, cellsRead m a = cellsRead n a) : m = n := by
  induction m generalizing n with
  | nil =>
    cases n with
    | nil => rfl
    | cons d rest =>
      have := h d.1
      simp only [cellsRead, ↓reduceIte] at this
      exact absurd this.symm (hn.2 d List.mem_cons_self).1
  | cons c m ih =>
    obtain ⟨hc, hm'⟩ := List.pairwise_cons.mp hm.1
    cases n with
    | nil =>
      have := h c.1
      simp only [cellsRead, ↓reduceIte] at this
      exact absurd this (hm.2 c List.mem_cons_self).1
    | cons d n =>
      obtain ⟨hd, hn'⟩ := List.pairwise_cons.mp hn.1
      have hkey : c.1 = d.1 := by
        rcases Nat.lt_trichotomy c.1 d.1 with hlt | heq | hlt
        · have hr := h c.1
          rw [cellsRead, if_pos rfl, cellsRead_of_forall_lt (mem := d :: n)] at hr
          · exact absurd hr (hm.2 c List.mem_cons_self).1
          · intro e he
            rcases List.mem_cons.mp he with rfl | he
            · exact hlt
            · exact Nat.lt_trans hlt (hd e he)
        · exact heq
        · have hr := h d.1
          rw [cellsRead_of_forall_lt (mem := c :: m), cellsRead, if_pos rfl] at hr
          · exact absurd hr.symm (hn.2 d List.mem_cons_self).1
          · intro e he
            rcases List.mem_cons.mp he with rfl | he
            · exact hlt
            · exact Nat.lt_trans hlt (hc e he)
      have hval : c.2 = d.2 := by simpa [cellsRead, hkey] using h c.1
      have hcd : c = d := Prod.ext hkey hval
      subst hcd
      congr 1
      refine ih ⟨hm', fun e he => hm.2 e (List.mem_cons_of_mem _ he)⟩
        ⟨hn', fun e he => hn.2 e (List.mem_cons_of_mem _ he)⟩ fun a => ?_
      by_cases ha : c.1 = a
      · rw [cellsRead_of_forall_lt (ha ▸ hc), cellsRead_of_forall_lt (ha ▸ hd)]
      · simpa [cellsRead, ha] using h a

/-! ### The operations on data memory -/

/-- Data memory after an event that leaves it undefined is in canonical form. -/
theorem cellsWf_freeRam (s : State) : cellsWf (ramNibbles s.part) (freeRam s) := by
  constructor
  · unfold freeRam
    refine List.Pairwise.filterMap _ ?_ List.pairwise_lt_range
    intro a b hab c hc d hd
    split at hc
    · cases hc
    · split at hd
      · cases hd
      · cases hc
        cases hd
        exact hab
  · intro c hc
    obtain ⟨a, ha, hc⟩ := List.mem_filterMap.mp hc
    split at hc
    · cases hc
    · next hv =>
      cases hc
      exact ⟨hv, List.mem_range.mp ha⟩

theorem ramNibbles_ge (p : Part) : 64 ≤ ramNibbles p := by cases p <;> decide

/-- Storing one nibble keeps the canonical form of data memory. -/
theorem cellsWf_ramWrite {s : State} {a : Nat} (v : Nibble) (h : cellsWf (ramNibbles s.part) s.ram)
    (ha : a < ramNibbles s.part) : cellsWf (ramNibbles s.part) (ramWrite s a v).ram := cellsWf_write v h ha

/-- An undefined data buffer keeps the canonical form of data memory. -/
theorem cellsWf_freeDbf {s : State} (h : cellsWf (ramNibbles s.part) s.ram) :
    cellsWf (ramNibbles s.part) (freeDbf s) := by
  have := ramNibbles_ge s.part
  unfold freeDbf
  exact cellsWf_write _ (cellsWf_write _ (cellsWf_write _ (cellsWf_write _ h (by omega)) (by omega)) (by omega)) (by omega)

theorem dmCell_ram_lt {p : Part} {a : DmAddr} {n : Nat} (h : dmCell p a = .ram n) : n < ramNibbles p := by
  unfold dmCell at h
  split at h
  · cases h
    assumption
  · split at h <;> cases h

/-- `DmWrite` keeps the canonical form of data memory, whatever the address. -/
theorem cellsWf_dmWrite {s : State} (a : DmAddr) (v : Nibble) (h : cellsWf (ramNibbles s.part) s.ram) :
    cellsWf (ramNibbles s.part) (dmWrite s a v).ram := by
  unfold dmWrite
  split
  case h_1 n hn => exact cellsWf_ramWrite v h (dmCell_ram_lt hn)
  all_goals exact h

/-- Loading DBF1 and DBF0 keeps the canonical form of data memory. -/
theorem cellsWf_setDbfLow {s : State} (v : BitVec 8) (h : cellsWf (ramNibbles s.part) s.ram) :
    cellsWf (ramNibbles s.part) (setDbfLow s v).ram := by
  have := ramNibbles_ge s.part
  unfold setDbfLow
  exact cellsWf_write _ (cellsWf_write _ h (by omega)) (by omega)

/-- Loading DBF keeps the canonical form of data memory. -/
theorem cellsWf_setDbf {s : State} (v : BitVec 16) (h : cellsWf (ramNibbles s.part) s.ram) :
    cellsWf (ramNibbles s.part) (setDbf s v).ram := by
  have := ramNibbles_ge s.part
  unfold setDbf
  exact cellsWf_setDbfLow (s := ramWrite (ramWrite s 12 _) 13 _) _
    (cellsWf_write (bound := ramNibbles s.part) _ (cellsWf_write _ h (by omega)) (by omega))

/-- The memories of the reset state are in canonical form. -/
theorem reset_cellsWf :
    cellsWf (ramNibbles State.reset.part) State.reset.ram ∧ cellsWf (romWords State.reset.part) State.reset.rom :=
  ⟨cellsWf_nil _, cellsWf_nil _⟩

/-- Placing a word to fetch keeps the canonical form of program memory. -/
theorem cellsWf_placeWord {s : State} (v : ProgWord) (h : cellsWf (romWords s.part) s.rom) :
    cellsWf (romWords s.part) (placeWord s v).rom := by
  refine cellsWf_write v h ?_
  unfold placeAddress
  split
  · assumption
  · cases s.part <;> decide

end Sys2Proof.Machine
end

