-- ==== Sys2Proof/Laws/State.lean ====
section
/-! SUPPORT. One lemma per field for each named update of the state, true by unfolding, so that no proof has to unfold a
record update. -/

namespace Sys2Proof.Machine

/-! ### `ramWrite` -/

@[simp] theorem ramWrite_part (s : State) (a : Nat) (v : Nibble) : (ramWrite s a v).part = s.part := rfl
@[simp] theorem ramWrite_mask (s : State) (a : Nat) (v : Nibble) : (ramWrite s a v).mask = s.mask := rfl
@[simp] theorem ramWrite_rom (s : State) (a : Nat) (v : Nibble) : (ramWrite s a v).rom = s.rom := rfl
@[simp] theorem ramWrite_pc (s : State) (a : Nat) (v : Nibble) : (ramWrite s a v).pc = s.pc := rfl
@[simp] theorem ramWrite_sp (s : State) (a : Nat) (v : Nibble) : (ramWrite s a v).sp = s.sp := rfl
@[simp] theorem ramWrite_asr (s : State) (a : Nat) (v : Nibble) : (ramWrite s a v).asr = s.asr := rfl
@[simp] theorem ramWrite_intsk (s : State) (a : Nat) (v : Nibble) : (ramWrite s a v).intsk = s.intsk := rfl
@[simp] theorem ramWrite_ram (s : State) (a : Nat) (v : Nibble) : (ramWrite s a v).ram = cellsWrite s.ram a v := rfl
@[simp] theorem ramWrite_ar (s : State) (a : Nat) (v : Nibble) : (ramWrite s a v).ar = s.ar := rfl
@[simp] theorem ramWrite_wr (s : State) (a : Nat) (v : Nibble) : (ramWrite s a v).wr = s.wr := rfl
@[simp] theorem ramWrite_mpe (s : State) (a : Nat) (v : Nibble) : (ramWrite s a v).mpe = s.mpe := rfl
@[simp] theorem ramWrite_ix (s : State) (a : Nat) (v : Nibble) : (ramWrite s a v).ix = s.ix := rfl
@[simp] theorem ramWrite_rp (s : State) (a : Nat) (v : Nibble) : (ramWrite s a v).rp = s.rp := rfl
@[simp] theorem ramWrite_psw (s : State) (a : Nat) (v : Nibble) : (ramWrite s a v).psw = s.psw := rfl
@[simp] theorem ramWrite_ports (s : State) (a : Nat) (v : Nibble) : (ramWrite s a v).ports = s.ports := rfl
@[simp] theorem ramWrite_timer (s : State) (a : Nat) (v : Nibble) : (ramWrite s a v).timer = s.timer := rfl
@[simp] theorem ramWrite_serial (s : State) (a : Nat) (v : Nibble) : (ramWrite s a v).serial = s.serial := rfl
@[simp] theorem ramWrite_comparator (s : State) (a : Nat) (v : Nibble) : (ramWrite s a v).comparator = s.comparator :=
    rfl
@[simp] theorem ramWrite_interrupts (s : State) (a : Nat) (v : Nibble) : (ramWrite s a v).interrupts = s.interrupts :=
    rfl
@[simp] theorem ramWrite_pdresen (s : State) (a : Nat) (v : Nibble) : (ramWrite s a v).pdresen = s.pdresen := rfl
@[simp] theorem ramWrite_inte (s : State) (a : Nat) (v : Nibble) : (ramWrite s a v).inte = s.inte := rfl
@[simp] theorem ramWrite_eiHold (s : State) (a : Nat) (v : Nibble) : (ramWrite s a v).eiHold = s.eiHold := rfl
@[simp] theorem ramWrite_skip (s : State) (a : Nat) (v : Nibble) : (ramWrite s a v).skip = s.skip := rfl
@[simp] theorem ramWrite_mode (s : State) (a : Nat) (v : Nibble) : (ramWrite s a v).mode = s.mode := rfl
@[simp] theorem ramWrite_irqStale (s : State) (a : Nat) (v : Nibble) : (ramWrite s a v).irqStale = s.irqStale := rfl
@[simp] theorem ramWrite_staleView (s : State) (a : Nat) (v : Nibble) : (ramWrite s a v).staleView = s.staleView :=
    rfl
@[simp] theorem ramWrite_env (s : State) (a : Nat) (v : Nibble) : (ramWrite s a v).env = s.env := rfl
@[simp] theorem ramWrite_pending (s : State) (a : Nat) (v : Nibble) : (ramWrite s a v).pending = s.pending := rfl
@[simp] theorem ramWrite_cycle (s : State) (a : Nat) (v : Nibble) : (ramWrite s a v).cycle = s.cycle := rfl

/-! ### `skipNext` -/

@[simp] theorem skipNext_part (s : State) : (skipNext s).part = s.part := rfl
@[simp] theorem skipNext_mask (s : State) : (skipNext s).mask = s.mask := rfl
@[simp] theorem skipNext_rom (s : State) : (skipNext s).rom = s.rom := rfl
@[simp] theorem skipNext_pc (s : State) : (skipNext s).pc = s.pc := rfl
@[simp] theorem skipNext_sp (s : State) : (skipNext s).sp = s.sp := rfl
@[simp] theorem skipNext_asr (s : State) : (skipNext s).asr = s.asr := rfl
@[simp] theorem skipNext_intsk (s : State) : (skipNext s).intsk = s.intsk := rfl
@[simp] theorem skipNext_ram (s : State) : (skipNext s).ram = s.ram := rfl
@[simp] theorem skipNext_ar (s : State) : (skipNext s).ar = s.ar := rfl
@[simp] theorem skipNext_wr (s : State) : (skipNext s).wr = s.wr := rfl
@[simp] theorem skipNext_mpe (s : State) : (skipNext s).mpe = s.mpe := rfl
@[simp] theorem skipNext_ix (s : State) : (skipNext s).ix = s.ix := rfl
@[simp] theorem skipNext_rp (s : State) : (skipNext s).rp = s.rp := rfl
@[simp] theorem skipNext_psw (s : State) : (skipNext s).psw = s.psw := rfl
@[simp] theorem skipNext_ports (s : State) : (skipNext s).ports = s.ports := rfl
@[simp] theorem skipNext_timer (s : State) : (skipNext s).timer = s.timer := rfl
@[simp] theorem skipNext_serial (s : State) : (skipNext s).serial = s.serial := rfl
@[simp] theorem skipNext_comparator (s : State) : (skipNext s).comparator = s.comparator := rfl
@[simp] theorem skipNext_interrupts (s : State) : (skipNext s).interrupts = s.interrupts := rfl
@[simp] theorem skipNext_pdresen (s : State) : (skipNext s).pdresen = s.pdresen := rfl
@[simp] theorem skipNext_inte (s : State) : (skipNext s).inte = s.inte := rfl
@[simp] theorem skipNext_eiHold (s : State) : (skipNext s).eiHold = s.eiHold := rfl
@[simp] theorem skipNext_skip (s : State) : (skipNext s).skip = true := rfl
@[simp] theorem skipNext_mode (s : State) : (skipNext s).mode = s.mode := rfl
@[simp] theorem skipNext_irqStale (s : State) : (skipNext s).irqStale = s.irqStale := rfl
@[simp] theorem skipNext_staleView (s : State) : (skipNext s).staleView = s.staleView := rfl
@[simp] theorem skipNext_env (s : State) : (skipNext s).env = s.env := rfl
@[simp] theorem skipNext_pending (s : State) : (skipNext s).pending = s.pending := rfl
@[simp] theorem skipNext_cycle (s : State) : (skipNext s).cycle = s.cycle := rfl

/-! ### `fetched` -/

@[simp] theorem fetched_part (s : State) : (fetched s).part = s.part := rfl
@[simp] theorem fetched_mask (s : State) : (fetched s).mask = s.mask := rfl
@[simp] theorem fetched_rom (s : State) : (fetched s).rom = s.rom := rfl
@[simp] theorem fetched_pc (s : State) : (fetched s).pc = s.pc + 1 := rfl
@[simp] theorem fetched_sp (s : State) : (fetched s).sp = s.sp := rfl
@[simp] theorem fetched_asr (s : State) : (fetched s).asr = s.asr := rfl
@[simp] theorem fetched_intsk (s : State) : (fetched s).intsk = s.intsk := rfl
@[simp] theorem fetched_ram (s : State) : (fetched s).ram = s.ram := rfl
@[simp] theorem fetched_ar (s : State) : (fetched s).ar = s.ar := rfl
@[simp] theorem fetched_wr (s : State) : (fetched s).wr = s.wr := rfl
@[simp] theorem fetched_mpe (s : State) : (fetched s).mpe = s.mpe := rfl
@[simp] theorem fetched_ix (s : State) : (fetched s).ix = s.ix := rfl
@[simp] theorem fetched_rp (s : State) : (fetched s).rp = s.rp := rfl
@[simp] theorem fetched_psw (s : State) : (fetched s).psw = s.psw := rfl
@[simp] theorem fetched_ports (s : State) : (fetched s).ports = s.ports := rfl
@[simp] theorem fetched_timer (s : State) : (fetched s).timer = s.timer := rfl
@[simp] theorem fetched_serial (s : State) : (fetched s).serial = s.serial := rfl
@[simp] theorem fetched_comparator (s : State) : (fetched s).comparator = s.comparator := rfl
@[simp] theorem fetched_interrupts (s : State) : (fetched s).interrupts = s.interrupts := rfl
@[simp] theorem fetched_pdresen (s : State) : (fetched s).pdresen = s.pdresen := rfl
@[simp] theorem fetched_inte (s : State) : (fetched s).inte = s.inte := rfl
@[simp] theorem fetched_eiHold (s : State) : (fetched s).eiHold = false := rfl
@[simp] theorem fetched_skip (s : State) : (fetched s).skip = s.skip := rfl
@[simp] theorem fetched_mode (s : State) : (fetched s).mode = s.mode := rfl
@[simp] theorem fetched_irqStale (s : State) : (fetched s).irqStale = none := rfl
@[simp] theorem fetched_staleView (s : State) : (fetched s).staleView = s.irqStale := rfl
@[simp] theorem fetched_env (s : State) : (fetched s).env = s.env := rfl
@[simp] theorem fetched_pending (s : State) : (fetched s).pending = s.pending := rfl
@[simp] theorem fetched_cycle (s : State) : (fetched s).cycle = s.cycle := rfl

/-! ### `tick` -/

@[simp] theorem tick_part (s : State) : (tick s).part = s.part := rfl
@[simp] theorem tick_mask (s : State) : (tick s).mask = s.mask := rfl
@[simp] theorem tick_rom (s : State) : (tick s).rom = s.rom := rfl
@[simp] theorem tick_pc (s : State) : (tick s).pc = s.pc := rfl
@[simp] theorem tick_sp (s : State) : (tick s).sp = s.sp := rfl
@[simp] theorem tick_asr (s : State) : (tick s).asr = s.asr := rfl
@[simp] theorem tick_intsk (s : State) : (tick s).intsk = s.intsk := rfl
@[simp] theorem tick_ram (s : State) : (tick s).ram = s.ram := rfl
@[simp] theorem tick_ar (s : State) : (tick s).ar = s.ar := rfl
@[simp] theorem tick_wr (s : State) : (tick s).wr = s.wr := rfl
@[simp] theorem tick_mpe (s : State) : (tick s).mpe = s.mpe := rfl
@[simp] theorem tick_ix (s : State) : (tick s).ix = s.ix := rfl
@[simp] theorem tick_rp (s : State) : (tick s).rp = s.rp := rfl
@[simp] theorem tick_psw (s : State) : (tick s).psw = s.psw := rfl
@[simp] theorem tick_ports (s : State) : (tick s).ports = s.ports := rfl
@[simp] theorem tick_timer (s : State) : (tick s).timer = s.timer := rfl
@[simp] theorem tick_serial (s : State) : (tick s).serial = s.serial := rfl
@[simp] theorem tick_comparator (s : State) : (tick s).comparator = s.comparator := rfl
@[simp] theorem tick_interrupts (s : State) : (tick s).interrupts = s.interrupts := rfl
@[simp] theorem tick_pdresen (s : State) : (tick s).pdresen = s.pdresen := rfl
@[simp] theorem tick_inte (s : State) : (tick s).inte = s.inte := rfl
@[simp] theorem tick_eiHold (s : State) : (tick s).eiHold = s.eiHold := rfl
@[simp] theorem tick_skip (s : State) : (tick s).skip = s.skip := rfl
@[simp] theorem tick_mode (s : State) : (tick s).mode = s.mode := rfl
@[simp] theorem tick_irqStale (s : State) : (tick s).irqStale = s.irqStale := rfl
@[simp] theorem tick_staleView (s : State) : (tick s).staleView = s.staleView := rfl
@[simp] theorem tick_env (s : State) : (tick s).env = s.env := rfl
@[simp] theorem tick_pending (s : State) : (tick s).pending = s.pending := rfl
@[simp] theorem tick_cycle (s : State) : (tick s).cycle = s.cycle + 1 := rfl

/-! ### `intEdge` -/

@[simp] theorem intEdge_part (s : State) : (intEdge s).part = s.part := rfl
@[simp] theorem intEdge_mask (s : State) : (intEdge s).mask = s.mask := rfl
@[simp] theorem intEdge_rom (s : State) : (intEdge s).rom = s.rom := rfl
@[simp] theorem intEdge_pc (s : State) : (intEdge s).pc = s.pc := rfl
@[simp] theorem intEdge_sp (s : State) : (intEdge s).sp = s.sp := rfl
@[simp] theorem intEdge_asr (s : State) : (intEdge s).asr = s.asr := rfl
@[simp] theorem intEdge_intsk (s : State) : (intEdge s).intsk = s.intsk := rfl
@[simp] theorem intEdge_ram (s : State) : (intEdge s).ram = s.ram := rfl
@[simp] theorem intEdge_ar (s : State) : (intEdge s).ar = s.ar := rfl
@[simp] theorem intEdge_wr (s : State) : (intEdge s).wr = s.wr := rfl
@[simp] theorem intEdge_mpe (s : State) : (intEdge s).mpe = s.mpe := rfl
@[simp] theorem intEdge_ix (s : State) : (intEdge s).ix = s.ix := rfl
@[simp] theorem intEdge_rp (s : State) : (intEdge s).rp = s.rp := rfl
@[simp] theorem intEdge_psw (s : State) : (intEdge s).psw = s.psw := rfl
@[simp] theorem intEdge_ports (s : State) : (intEdge s).ports = s.ports := rfl
@[simp] theorem intEdge_timer (s : State) : (intEdge s).timer = s.timer := rfl
@[simp] theorem intEdge_serial (s : State) : (intEdge s).serial = s.serial := rfl
@[simp] theorem intEdge_comparator (s : State) : (intEdge s).comparator = s.comparator := rfl
@[simp] theorem intEdge_interrupts (s : State) : (intEdge s).interrupts =
    { s.interrupts with irq := s.interrupts.irq || edgeSetsIrq s.interrupts.iegmd s.interrupts.intPrev s.env.int, intPrev := s.env.int } := rfl
@[simp] theorem intEdge_pdresen (s : State) : (intEdge s).pdresen = s.pdresen := rfl
@[simp] theorem intEdge_inte (s : State) : (intEdge s).inte = s.inte := rfl
@[simp] theorem intEdge_eiHold (s : State) : (intEdge s).eiHold = s.eiHold := rfl
@[simp] theorem intEdge_skip (s : State) : (intEdge s).skip = s.skip := rfl
@[simp] theorem intEdge_mode (s : State) : (intEdge s).mode = s.mode := rfl
@[simp] theorem intEdge_irqStale (s : State) : (intEdge s).irqStale = s.irqStale := rfl
@[simp] theorem intEdge_staleView (s : State) : (intEdge s).staleView = s.staleView := rfl
@[simp] theorem intEdge_env (s : State) : (intEdge s).env = s.env := rfl
@[simp] theorem intEdge_pending (s : State) : (intEdge s).pending = s.pending := rfl
@[simp] theorem intEdge_cycle (s : State) : (intEdge s).cycle = s.cycle := rfl

/-! ### `enterHalt` -/

@[simp] theorem enterHalt_part (s : State) (h : Nibble) : (enterHalt s h).part = s.part := rfl
@[simp] theorem enterHalt_mask (s : State) (h : Nibble) : (enterHalt s h).mask = s.mask := rfl
@[simp] theorem enterHalt_rom (s : State) (h : Nibble) : (enterHalt s h).rom = s.rom := rfl
@[simp] theorem enterHalt_pc (s : State) (h : Nibble) : (enterHalt s h).pc = s.pc := rfl
@[simp] theorem enterHalt_sp (s : State) (h : Nibble) : (enterHalt s h).sp = s.sp := rfl
@[simp] theorem enterHalt_asr (s : State) (h : Nibble) : (enterHalt s h).asr = s.asr := rfl
@[simp] theorem enterHalt_intsk (s : State) (h : Nibble) : (enterHalt s h).intsk = s.intsk := rfl
@[simp] theorem enterHalt_ram (s : State) (h : Nibble) : (enterHalt s h).ram = s.ram := rfl
@[simp] theorem enterHalt_ar (s : State) (h : Nibble) : (enterHalt s h).ar = s.ar := rfl
@[simp] theorem enterHalt_wr (s : State) (h : Nibble) : (enterHalt s h).wr = s.wr := rfl
@[simp] theorem enterHalt_mpe (s : State) (h : Nibble) : (enterHalt s h).mpe = s.mpe := rfl
@[simp] theorem enterHalt_ix (s : State) (h : Nibble) : (enterHalt s h).ix = s.ix := rfl
@[simp] theorem enterHalt_rp (s : State) (h : Nibble) : (enterHalt s h).rp = s.rp := rfl
@[simp] theorem enterHalt_psw (s : State) (h : Nibble) : (enterHalt s h).psw = s.psw := rfl
@[simp] theorem enterHalt_ports (s : State) (h : Nibble) : (enterHalt s h).ports = s.ports := rfl
@[simp] theorem enterHalt_timer (s : State) (h : Nibble) : (enterHalt s h).timer = s.timer := rfl
@[simp] theorem enterHalt_serial (s : State) (h : Nibble) : (enterHalt s h).serial = s.serial := rfl
@[simp] theorem enterHalt_comparator (s : State) (h : Nibble) : (enterHalt s h).comparator =
    { s.comparator with tainted := s.comparator.tainted || s.comparator.cmpstrt } := rfl
@[simp] theorem enterHalt_interrupts (s : State) (h : Nibble) : (enterHalt s h).interrupts = s.interrupts := rfl
@[simp] theorem enterHalt_pdresen (s : State) (h : Nibble) : (enterHalt s h).pdresen = s.pdresen := rfl
@[simp] theorem enterHalt_inte (s : State) (h : Nibble) : (enterHalt s h).inte = s.inte := rfl
@[simp] theorem enterHalt_eiHold (s : State) (h : Nibble) : (enterHalt s h).eiHold = s.eiHold := rfl
@[simp] theorem enterHalt_skip (s : State) (h : Nibble) : (enterHalt s h).skip = s.skip := rfl
@[simp] theorem enterHalt_mode (s : State) (h : Nibble) : (enterHalt s h).mode = .halt h := rfl
@[simp] theorem enterHalt_irqStale (s : State) (h : Nibble) : (enterHalt s h).irqStale = s.irqStale := rfl
@[simp] theorem enterHalt_staleView (s : State) (h : Nibble) : (enterHalt s h).staleView = s.staleView := rfl
@[simp] theorem enterHalt_env (s : State) (h : Nibble) : (enterHalt s h).env = s.env := rfl
@[simp] theorem enterHalt_pending (s : State) (h : Nibble) : (enterHalt s h).pending = s.pending := rfl
@[simp] theorem enterHalt_cycle (s : State) (h : Nibble) : (enterHalt s h).cycle = s.cycle := rfl

/-! ### `enterStop` -/

@[simp] theorem enterStop_part (s : State) (v : Nibble) : (enterStop s v).part = s.part := rfl
@[simp] theorem enterStop_mask (s : State) (v : Nibble) : (enterStop s v).mask = s.mask := rfl
@[simp] theorem enterStop_rom (s : State) (v : Nibble) : (enterStop s v).rom = s.rom := rfl
@[simp] theorem enterStop_pc (s : State) (v : Nibble) : (enterStop s v).pc = s.pc := rfl
@[simp] theorem enterStop_sp (s : State) (v : Nibble) : (enterStop s v).sp = s.sp := rfl
@[simp] theorem enterStop_asr (s : State) (v : Nibble) : (enterStop s v).asr = s.asr := rfl
@[simp] theorem enterStop_intsk (s : State) (v : Nibble) : (enterStop s v).intsk = s.intsk := rfl
@[simp] theorem enterStop_ram (s : State) (v : Nibble) : (enterStop s v).ram = s.ram := rfl
@[simp] theorem enterStop_ar (s : State) (v : Nibble) : (enterStop s v).ar = s.ar := rfl
@[simp] theorem enterStop_wr (s : State) (v : Nibble) : (enterStop s v).wr = s.wr := rfl
@[simp] theorem enterStop_mpe (s : State) (v : Nibble) : (enterStop s v).mpe = s.mpe := rfl
@[simp] theorem enterStop_ix (s : State) (v : Nibble) : (enterStop s v).ix = s.ix := rfl
@[simp] theorem enterStop_rp (s : State) (v : Nibble) : (enterStop s v).rp = s.rp := rfl
@[simp] theorem enterStop_psw (s : State) (v : Nibble) : (enterStop s v).psw = s.psw := rfl
@[simp] theorem enterStop_ports (s : State) (v : Nibble) : (enterStop s v).ports = s.ports := rfl
@[simp] theorem enterStop_timer (s : State) (v : Nibble) : (enterStop s v).timer = { s.timer with tmc := 0 } := rfl
@[simp] theorem enterStop_serial (s : State) (v : Nibble) : (enterStop s v).serial = s.serial := rfl
@[simp] theorem enterStop_comparator (s : State) (v : Nibble) : (enterStop s v).comparator =
    { s.comparator with cmpstrt := false, remaining := 0, tainted := false } := rfl
@[simp] theorem enterStop_interrupts (s : State) (v : Nibble) : (enterStop s v).interrupts =
    { s.interrupts with irqtm := false } := rfl
@[simp] theorem enterStop_pdresen (s : State) (v : Nibble) : (enterStop s v).pdresen = s.pdresen := rfl
@[simp] theorem enterStop_inte (s : State) (v : Nibble) : (enterStop s v).inte = s.inte := rfl
@[simp] theorem enterStop_eiHold (s : State) (v : Nibble) : (enterStop s v).eiHold = s.eiHold := rfl
@[simp] theorem enterStop_skip (s : State) (v : Nibble) : (enterStop s v).skip = s.skip := rfl
@[simp] theorem enterStop_mode (s : State) (v : Nibble) : (enterStop s v).mode = .stop v := rfl
@[simp] theorem enterStop_irqStale (s : State) (v : Nibble) : (enterStop s v).irqStale = s.irqStale := rfl
@[simp] theorem enterStop_staleView (s : State) (v : Nibble) : (enterStop s v).staleView = s.staleView := rfl
@[simp] theorem enterStop_env (s : State) (v : Nibble) : (enterStop s v).env = s.env := rfl
@[simp] theorem enterStop_pending (s : State) (v : Nibble) : (enterStop s v).pending = s.pending := rfl
@[simp] theorem enterStop_cycle (s : State) (v : Nibble) : (enterStop s v).cycle = s.cycle := rfl

end Sys2Proof.Machine
end

