-- ==== Sys2Proof/Laws/Data.lean ====
section
/-! SUPPORT. Laws of data memory: the map tells addresses apart, and `DmWrite` stores at one address and does nothing
else. -/

namespace Sys2Proof.Machine

/-- The address a cell stands at; only an unimplemented cell stands at several. -/
def cellAddress (c : DmCell) : Nat :=
  match c with
  | .ram n => n
  | .unmapped => 0
  | .poe => 0x6F
  | .poa => 0x70
  | .pob => 0x71
  | .poc => 0x72
  | .pod => 0x73
  | .ar3 => 0x74
  | .ar2 => 0x75
  | .ar1 => 0x76
  | .ar0 => 0x77
  | .wr => 0x78
  | .bank => 0x79
  | .ixh => 0x7A
  | .ixm => 0x7B
  | .ixl => 0x7C
  | .rph => 0x7D
  | .rpl => 0x7E
  | .psw => 0x7F

theorem cellAddress_dmCell {p : Part} {a : DmAddr} (h : dmCell p a ≠ .unmapped) :
    cellAddress (dmCell p a) = a.toNat := by
  unfold dmCell at h ⊢
  split
  · rfl
  · next hr =>
    rw [if_neg hr] at h
    split at h <;> first | exact absurd rfl h | simp [cellAddress, *]

/-- Distinct implemented addresses stand for distinct cells. -/
theorem dmCell_injective {p : Part} {a b : DmAddr} (h : dmCell p a = dmCell p b) (hu : dmCell p a ≠ .unmapped) :
    a = b := by
  apply BitVec.eq_of_toNat_eq
  rw [← cellAddress_dmCell hu, ← cellAddress_dmCell (h ▸ hu), h]

/-- The data buffer, and all of 00H-3FH, is general-purpose data memory on every part. -/
theorem dmCell_low {p : Part} {a : DmAddr} (h : a.toNat < 64) : dmCell p a = .ram a.toNat := by
  have := ramNibbles_ge p
  rw [dmCell, if_pos (by omega)]

/-- How many nibbles of general-purpose data memory a part has (00_scope.md R4). -/
theorem ramNibbles_eq (p : Part) : ramNibbles p = if p = .u17120 ∨ p = .u17121 then 64 else 111 := by cases p <;> rfl

/-- General-purpose data memory on the parts with 111 nibbles. -/
theorem dmCell_high {p : Part} {a : DmAddr} (h : a.toNat < 0x6F) (h0 : p ≠ .u17120) (h1 : p ≠ .u17121) :
    dmCell p a = .ram a.toNat := by
  have hn : ramNibbles p = 111 := by rw [ramNibbles_eq, if_neg (by simp [h0, h1])]
  rw [dmCell, hn, if_pos (by omega)]

/-- The hole in the map of the parts with 64 (R111). -/
theorem dmCell_hole {p : Part} {a : DmAddr} (h : 0x40 ≤ a.toNat) (h1 : a.toNat < 0x6F) (hp : p = .u17120 ∨ p = .u17121) :
    dmCell p a = .unmapped := by
  rcases hp with rfl | rfl <;> revert a <;> decide

/-- The port registers and the system registers stand at the same addresses on every part (10_state.md R44). -/
theorem dmCell_registers (p : Part) :
    dmCell p 0x6F = .poe ∧ dmCell p 0x70 = .poa ∧ dmCell p 0x71 = .pob ∧ dmCell p 0x72 = .poc ∧ dmCell p 0x73 = .pod ∧
      dmCell p 0x74 = .ar3 ∧ dmCell p 0x75 = .ar2 ∧ dmCell p 0x76 = .ar1 ∧ dmCell p 0x77 = .ar0 ∧ dmCell p 0x78 = .wr ∧
      dmCell p 0x79 = .bank ∧ dmCell p 0x7A = .ixh ∧ dmCell p 0x7B = .ixm ∧ dmCell p 0x7C = .ixl ∧ dmCell p 0x7D = .rph ∧
      dmCell p 0x7E = .rpl ∧ dmCell p 0x7F = .psw := by cases p <;> decide

theorem dmCell_psw (p : Part) : dmCell p 0x7F = .psw := by cases p <;> rfl

theorem dmWrite_part (s : State) (a : DmAddr) (v : Nibble) : (dmWrite s a v).part = s.part := by
  unfold dmWrite
  split <;> rfl

/-- `DmWrite` changes nothing outside data memory, system registers and port latches. -/
theorem dmWrite_besides (s : State) (a : DmAddr) (v : Nibble) : besidesData (dmWrite s a v) = besidesData s := by
  unfold dmWrite
  split <;> rfl

theorem dmWrite_held_same (s : State) (a : DmAddr) (v : Nibble) :
    heldNibble (dmWrite s a v) a = v &&& writableBits s.part a := by
  unfold heldNibble writableBits
  rw [dmWrite_part]
  unfold dmWrite dmRead
  cases h : dmCell s.part a <;> simp only [h, ramWrite]
  case ram n => simpa using (BitVec.and_allOnes (x := v)).symm
  all_goals
    apply BitVec.eq_of_getLsbD_eq
    intro i hi
    simp only [nibbleOf, BitVec.getLsbD_append, BitVec.getLsbD_extractLsb', BitVec.getLsbD_and]
    have : i = 0 ∨ i = 1 ∨ i = 2 ∨ i = 3 := by omega
    rcases this with rfl | rfl | rfl | rfl <;> simp

theorem append_high_low {w n : Nat} (x : BitVec n) (y : BitVec w) (i k : Nat) (h : i + k ≤ w) :
    (x ++ y).extractLsb' i k = y.extractLsb' i k := by
  apply BitVec.eq_of_getLsbD_eq
  intro j hj
  simp only [BitVec.getLsbD_append, BitVec.getLsbD_extractLsb']
  have : i + j < w := by omega
  simp [this]

theorem append_high_high {w n : Nat} (x : BitVec n) (y : BitVec w) (i k : Nat) (h : w ≤ i) :
    (x ++ y).extractLsb' i k = x.extractLsb' (i - w) k := by
  apply BitVec.eq_of_getLsbD_eq
  intro j hj
  simp only [BitVec.getLsbD_append, BitVec.getLsbD_extractLsb']
  have : ¬i + j < w := by omega
  have e : i + j - w = i - w + j := by omega
  simp [this, e]

theorem extractLsb_extractLsb {w : Nat} (x : BitVec w) (i k j l : Nat) (h : j + l ≤ k) :
    (x.extractLsb' i k).extractLsb' j l = x.extractLsb' (i + j) l := by
  apply BitVec.eq_of_getLsbD_eq
  intro m hm
  simp only [BitVec.getLsbD_extractLsb']
  have : j + m < k := by omega
  simp [hm, this, Nat.add_assoc]

/-- A write of one nibble leaves what a read of every other address gives. -/
theorem dmWrite_read_other (s : State) {a b : DmAddr} (v : Nibble) (slot : ReadSlot) (h : b ≠ a) :
    dmRead (dmWrite s a v) slot b = dmRead s slot b := by
  have hne : dmCell s.part a = dmCell s.part b → dmCell s.part a = .unmapped := fun e => by
    by_contra hu
    exact h (dmCell_injective e hu).symm
  unfold dmRead
  rw [dmWrite_part]
  unfold dmWrite
  cases ha : dmCell s.part a <;> cases hb : dmCell s.part b <;> simp only [ha, hb] at hne ⊢ <;>
    first
    | rfl
    | exact nomatch hne trivial
    | (refine cellsRead_write_other _ _ fun e => ?_
       subst e
       exact nomatch hne rfl)
    | simp (disch := omega) only [append_high_low, append_high_high, extractLsb_extractLsb]

/-- A write of one nibble leaves what the machine holds at every other address. -/
theorem dmWrite_held_other (s : State) {a b : DmAddr} (v : Nibble) (h : b ≠ a) :
    heldNibble (dmWrite s a v) b = heldNibble s b := by
  have hr := dmWrite_read_other s v .first h
  have hne : dmCell s.part a = dmCell s.part b → dmCell s.part a = .unmapped := fun e => by
    by_contra hu
    exact h (dmCell_injective e hu).symm
  unfold heldNibble
  unfold dmRead at hr
  rw [dmWrite_part] at hr ⊢
  cases hb : dmCell s.part b <;> simp only [hb] at hr hne ⊢
  case poe | poa | pob | poc | pod =>
    unfold dmWrite
    cases ha : dmCell s.part a <;> simp only [ha] at hne ⊢ <;>
      first
      | rfl
      | exact nomatch hne trivial
  all_goals
    first
    | exact hr
    | (unfold dmRead
       simp only [hb, dmWrite_part] <;> exact hr)

/-- What `DmWrite` does, once: the nibble is stored, and nothing else changes (20_memory.md R110). -/
theorem dmWrite_storedAt (s : State) (a : DmAddr) (v : Nibble) : StoredAt s (dmWrite s a v) a v where
  here := dmWrite_held_same s a v
  elsewhere _ h := dmWrite_held_other s v h
  reads slot _ h := dmWrite_read_other s v slot h
  besides := dmWrite_besides s a v

end Sys2Proof.Machine
end

