-- ==== Sys2Proof/Laws/Operands.lean ====
section
/-! SUPPORT. Laws of the operand forms and of the shared bodies of the data instructions: what each answers, once. -/

namespace Sys2Proof.Machine

@[simp] theorem withAddress_ok (a : DmAddr) (k : DmAddr → State) : withAddress (.ok a) k = .next (k a) := rfl

@[simp] theorem withAddress_error (f : Fault) (k : DmAddr → State) : withAddress (.error f) k = .fault f := rfl

/-- A next state comes from an address. -/
theorem withAddress_elim {a : Except Fault DmAddr} {k : DmAddr → State} {t : State} (h : withAddress a k = .next t) :
    ∃ x, a = .ok x ∧ t = k x := by
  cases a with
  | ok x => exact ⟨x, rfl, by simpa using h.symm⟩
  | error f => simp at h

/-- Skipping on a condition changes SKIP only. -/
theorem skipIf_eq (c : Bool) (s : State) : skipIf c s = { s with skip := s.skip || c } := by
  unfold skipIf skipNext
  cases c <;> simp

/-- A read of data memory does not depend on CY, CMP, Z or SKIP, but at the address of PSW. -/
theorem dmRead_flags (s : State) (cmp cy z sk : Bool) (slot : ReadSlot) {a : DmAddr} (h : a ≠ 0x7F) :
    dmRead { s with psw := { s.psw with cmp := cmp, cy := cy, z := z }, skip := sk } slot a = dmRead s slot a := by
  have hp : dmCell s.part a ≠ .psw := fun e =>
    h (dmCell_injective (e.trans (dmCell_psw s.part).symm) (by rw [e]; nofun))
  unfold dmRead
  cases hc : dmCell s.part a <;> first | rfl | exact absurd hc hp

/-- What an arithmetic instruction leaves, once (40_add.md R203). -/
theorem arithCommit_result (s : State) (dest : DmAddr) (x : AluResult) :
    ArithResult s (arithCommit s dest x) dest x where
  compared h := by
    simp only [arithCommit, zAfter, h, if_true]
    by_cases hx : x.res = 0 <;> simp [hx]
  stored h := by
    have := dmWrite_storedAt { s with psw := { s.psw with cy := x.cy, z := zAfter s.psw x.res } } dest x.res
    simp only [arithCommit, zAfter, h, if_false, Bool.false_eq_true] at this ⊢
    by_cases hx : x.res = 0 <;> simpa [hx] using this
  reads slot b hb hp := by
    have key : dmRead { s with psw := { s.psw with cy := x.cy, z := zAfter s.psw x.res } } slot b = dmRead s slot b :=
      dmRead_flags s s.psw.cmp x.cy (zAfter s.psw x.res) s.skip slot hp
    unfold arithCommit
    split
    · exact key
    · rw [dmWrite_read_other _ _ _ hb, key]

/-- An arithmetic instruction of form `r, m` with an operand address. -/
theorem arithRM_next (alu : Bool → Nibble → Nibble → Bool → AluResult) (c : Bool) (r : BitVec 4) {s : State}
    {m ma : DmAddr} (h : eaM s m = .ok ma) :
    arithRM alu c r m s =
      .next (arithCommit s (s.rp ++ r) (alu s.psw.bcd (dmRead s .first (s.rp ++ r)) (dmRead s .second ma) c)) := by
  rw [arithRM, h]
  rfl

/-- An arithmetic instruction of form `m, #n4` with an operand address. -/
theorem arithMI_next (alu : Bool → Nibble → Nibble → Bool → AluResult) (c : Bool) (n4 : Nibble) {s : State}
    {m ma : DmAddr} (h : eaM s m = .ok ma) :
    arithMI alu c m n4 s = .next (arithCommit s ma (alu s.psw.bcd (dmRead s .first ma) n4 c)) := by
  rw [arithMI, h]
  rfl

/-- A logical instruction of form `r, m` with an operand address. -/
theorem logicRM_next (op : Nibble → Nibble → Nibble) (r : BitVec 4) {s : State} {m ma : DmAddr}
    (h : eaM s m = .ok ma) :
    logicRM op r m s = .next (dmWrite s (s.rp ++ r) (op (dmRead s .first (s.rp ++ r)) (dmRead s .second ma))) := by
  rw [logicRM, h]
  rfl

/-- A logical instruction of form `m, #n4` with an operand address. -/
theorem logicMI_next (op : Nibble → Nibble → Nibble) (n4 : Nibble) {s : State} {m ma : DmAddr} (h : eaM s m = .ok ma) :
    logicMI op m n4 s = .next (dmWrite s ma (op (dmRead s .first ma) n4)) := by
  rw [logicMI, h]
  rfl

/-- A bit test with an operand address: CMP and SKIP only. -/
theorem bitTest_next (holds : Nibble → Bool) {s : State} {m ma : DmAddr} (h : eaM s m = .ok ma) :
    bitTest holds m s = .next
      { s with psw := { s.psw with cmp := false }, skip := s.skip || holds (dmRead s .first ma) } := by
  rw [bitTest, h, withAddress_ok, skipIf_eq]

/-- A comparison with an operand address: SKIP only. -/
theorem compareSkip_next (holds : Nibble → Bool) {s : State} {m ma : DmAddr} (h : eaM s m = .ok ma) :
    compareSkip holds m s = .next { s with skip := s.skip || holds (dmRead s .first ma) } := by
  rw [compareSkip, h, withAddress_ok, skipIf_eq]

/-! ### The data buffer -/

/-- The data buffer as `GET` and `PUT` see it, and as an instruction reads it. -/
theorem dbf_eq_reads (s : State) (slot : ReadSlot) :
    dbf s = dmRead s slot 0x0C ++ dmRead s slot 0x0D ++ dmRead s slot 0x0E ++ dmRead s slot 0x0F := by
  have h (a : DmAddr) (ha : a.toNat < 64) : dmRead s slot a = cellsRead s.ram a.toNat := by
    unfold dmRead
    rw [dmCell_low ha]
  rw [h 0x0C (by decide), h 0x0D (by decide), h 0x0E (by decide), h 0x0F (by decide)]
  rfl

/-- A store into general-purpose data memory, seen by a read. -/
theorem dmRead_ramWrite (s : State) (a : Nat) (v : Nibble) (slot : ReadSlot) (b : DmAddr) (h : a < 64) :
    dmRead (ramWrite s a v) slot b = if b.toNat = a then v else dmRead s slot b := by
  by_cases hb : b.toNat = a
  · rw [if_pos hb]
    unfold dmRead
    rw [ramWrite_part, dmCell_low (by omega)]
    simp [hb]
  · rw [if_neg hb]
    unfold dmRead
    rw [ramWrite_part]
    cases hc : dmCell s.part b <;> first | rfl | skip
    next n =>
      have : b.toNat = n := by
        have := cellAddress_dmCell (p := s.part) (a := b) (by rw [hc]; nofun)
        rw [hc] at this
        exact this.symm
      exact cellsRead_write_other _ _ (by omega)

/-- Loading DBF1 and DBF0. -/
theorem setDbfLow_loaded (s : State) (v : BitVec 8) : DbfLowLoaded s (setDbfLow s v) v where
  dbf1 slot := by simp [setDbfLow, dmRead_ramWrite]
  dbf0 slot := by simp [setDbfLow, dmRead_ramWrite]
  reads slot b hb := by
    rw [setDbfLow, dmRead_ramWrite _ _ _ _ _ (by decide), if_neg (by omega), dmRead_ramWrite _ _ _ _ _ (by decide),
      if_neg (by omega)]
  others := rfl

/-- The state with the upper half of DBF loaded. -/
def setDbfHigh (s : State) (v : BitVec 16) : State :=
  ramWrite (ramWrite s 12 (v.extractLsb' 12 4)) 13 (v.extractLsb' 8 4)

theorem setDbfHigh_read (s : State) (v : BitVec 16) (slot : ReadSlot) (b : DmAddr) :
    dmRead (setDbfHigh s v) slot b =
      if b.toNat = 13 then v.extractLsb' 8 4 else if b.toNat = 12 then v.extractLsb' 12 4 else dmRead s slot b := by
  rw [setDbfHigh, dmRead_ramWrite _ _ _ _ _ (by decide), dmRead_ramWrite _ _ _ _ _ (by decide)]

/-- Loading all of DBF. -/
theorem setDbf_loaded (s : State) (v : BitVec 16) : DbfLoaded s (setDbf s v) v := by
  have h := setDbfLow_loaded (setDbfHigh s v) (v.extractLsb' 0 8)
  have e : setDbf s v = setDbfLow (setDbfHigh s v) (v.extractLsb' 0 8) := rfl
  rw [e]
  refine ⟨fun slot => ?_, fun slot => ?_, fun slot => ?_, fun slot => ?_, fun slot b hb => ?_, h.others⟩
  · rw [h.reads slot 0x0C (by decide), setDbfHigh_read]
    rfl
  · rw [h.reads slot 0x0D (by decide), setDbfHigh_read]
    rfl
  · rw [h.dbf1, extractLsb_extractLsb _ _ _ _ _ (by decide)]
  · rw [h.dbf0, extractLsb_extractLsb _ _ _ _ _ (by decide)]
  · rw [h.reads slot b (by omega), setDbfHigh_read, if_neg (by omega), if_neg (by omega)]

end Sys2Proof.Machine
end

