-- ==== Sys2Proof/Laws/Stack.lean ====
section
/-! SUPPORT. Laws of the address stack: what a push and a pop answer, once for each (10_state.md R30 to R34). -/

namespace Sys2Proof.Machine

theorem asrRead_write_same (t : AddressStack) {i : Nat} (v : RomAddr) (h : i < 5) : asrRead (asrWrite t i v) i = v := by
  have : i = 0 ∨ i = 1 ∨ i = 2 ∨ i = 3 ∨ i = 4 := by omega
  rcases this with rfl | rfl | rfl | rfl | rfl <;> rfl

theorem asrRead_write_other (t : AddressStack) {i j : Nat} (v : RomAddr) (hj : j < 5) (h : j ≠ i) :
    asrRead (asrWrite t i v) j = asrRead t j := by
  unfold asrWrite
  have : j = 0 ∨ j = 1 ∨ j = 2 ∨ j = 3 ∨ j = 4 := by omega
  split <;> rcases this with rfl | rfl | rfl | rfl | rfl <;> first | rfl | exact absurd rfl h

theorem sp_sub_one {x : BitVec 3} (h1 : 1 ≤ x.toNat) (h5 : x.toNat ≤ 5) : (x - 1).toNat = x.toNat - 1 := by
  bv_omega

/-- A push with a free level: the value stands one level lower, and nothing else changes. -/
theorem push_eq_some {s : State} (v : RomAddr) (h1 : 1 ≤ s.sp.toNat) (h5 : s.sp.toNat ≤ 5) :
    push s v = some { s with sp := s.sp - 1, asr := asrWrite s.asr (s.sp.toNat - 1) v } := by
  rw [push, if_neg (by rw [sp_sub_one h1 h5]; omega), sp_sub_one h1 h5]

/-- A push raises the internal reset exactly where it would leave SP at 6 or 7. -/
theorem push_eq_none_iff {s : State} (v : RomAddr) : push s v = none ↔ s.sp = 0 ∨ s.sp = 7 := by
  rw [push]
  split <;> simp <;> bv_omega

/-- Everything a push that answers can do. -/
theorem push_some_elim {s t : State} {v : RomAddr} (h : push s v = some t) :
    t = { s with sp := s.sp - 1, asr := asrWrite s.asr (s.sp - 1).toNat v } ∧ (s.sp - 1).toNat ≤ 5 := by
  unfold push at h
  split at h
  · cases h
  · next hn => exact ⟨(Option.some.inj h).symm, by omega⟩

/-- A pop with a level in use: the value it stood at, SP one higher, and nothing else changes. -/
theorem pop_eq_some {s : State} (h : s.sp.toNat ≤ 4) :
    pop s = some (asrRead s.asr s.sp.toNat, { s with sp := s.sp + 1 }) := by
  rw [pop, if_neg (by omega)]

/-- A pop raises the internal reset exactly where SP is 5 or more. -/
theorem pop_eq_none_iff {s : State} : pop s = none ↔ 5 ≤ s.sp.toNat := by
  rw [pop]
  split <;> simp_all

/-- Everything a pop that answers can do. -/
theorem pop_some_elim {s t : State} {v : RomAddr} (h : pop s = some (v, t)) :
    v = asrRead s.asr s.sp.toNat ∧ t = { s with sp := s.sp + 1 } ∧ s.sp.toNat ≤ 4 := by
  unfold pop at h
  split at h
  · cases h
  · next hn =>
    cases h
    exact ⟨rfl, rfl, by omega⟩

end Sys2Proof.Machine
end

