-- ==== Sys2Proof/Laws/Chip.lean ====
section
/-! SUPPORT. What no operation touches: the part, the mask options and program memory (00_scope.md R4, 20_memory.md R101).
One lemma per shared operation. -/

namespace Sys2Proof.Machine

/-- The part, the mask options and program memory. -/
def chip (s : State) : Part × MaskOptions × Cells 16 := (s.part, s.mask, s.rom)

theorem chip_eq_iff {s t : State} : chip t = chip s ↔ t.part = s.part ∧ t.mask = s.mask ∧ t.rom = s.rom := by
  simp [chip]

/-! ### Memory and registers -/

@[simp] theorem chip_dmWrite (s : State) (a : DmAddr) (v : Nibble) : chip (dmWrite s a v) = chip s := by
  unfold dmWrite
  split <;> rfl

@[simp] theorem chip_setDbfLow (s : State) (v : BitVec 8) : chip (setDbfLow s v) = chip s := rfl

@[simp] theorem chip_setDbf (s : State) (v : BitVec 16) : chip (setDbf s v) = chip s := rfl

@[simp] theorem chip_skipIf (c : Bool) (s : State) : chip (skipIf c s) = chip s := by
  unfold skipIf
  split <;> rfl

@[simp] theorem chip_arithCommit (s : State) (a : DmAddr) (x : AluResult) : chip (arithCommit s a x) = chip s := by
  unfold arithCommit
  dsimp only
  split
  · rfl
  · rw [chip_dmWrite]
    rfl

@[simp] theorem chip_internalReset (s : State) : chip (internalReset s) = chip s := rfl

theorem chip_push {s t : State} {v : RomAddr} (h : push s v = some t) : chip t = chip s := by
  rw [(push_some_elim h).1]
  rfl

theorem chip_pop {s t : State} {v : RomAddr} (h : pop s = some (v, t)) : chip t = chip s := by
  rw [(pop_some_elim h).2.1]
  rfl

@[simp] theorem chip_setRequest (s : State) (f : RequestFlag) (b : Bool) : chip (setRequest s f b) = chip s := by
  cases f <;> rfl

@[simp] theorem chip_timerCount (s : State) : chip (timerCount s) = chip s := by
  unfold timerCount
  split <;> rfl

@[simp] theorem chip_timerReset (s : State) : chip (timerReset s) = chip s := rfl

@[simp] theorem chip_markIrregular (s : State) : chip (markIrregular s) = chip s := rfl

@[simp] theorem chip_writeTimerMode (s : State) (v : Nibble) : chip (writeTimerMode s v) = chip s := by
  have key : chip (timerModeBits s v) = chip s := by
    unfold timerModeBits
    dsimp only
    split <;> rfl
  unfold writeTimerMode
  rw [chip_markIrregular]
  split <;> simp [key]

@[simp] theorem chip_writeTmm (s : State) (v : BitVec 8) : chip (writeTmm s v) = chip s := rfl

@[simp] theorem chip_rfWrite (s : State) (a : DmAddr) (v : Nibble) : chip (rfWrite s a v) = chip s := by
  unfold rfWrite writeSp writeCmpChannel writeCmpReference writeCmpStart
  split <;> first | rfl | exact chip_setRequest .. | exact chip_writeTimerMode .. | exact chip_dmWrite .. | (split <;> rfl)

@[simp] theorem chip_periphPut (s : State) (p : BitVec 7) (d : BitVec 16) : chip (periphPut s p d) = chip s := by
  unfold periphPut
  split <;> rfl

@[simp] theorem chip_acceptInterrupt (s : State) (src : RequestFlag) : chip (acceptInterrupt s src) = chip s := by
  unfold acceptInterrupt
  split
  · rfl
  · next h =>
    rw [chip_setRequest, ← chip_push h]
    rfl

@[simp] theorem chip_stopLegal (s : State) (v : Nibble) : chip (stopLegal s v) = chip s := by
  unfold stopLegal
  split
  · rfl
  · split <;> rfl

@[simp] theorem chip_haltLegal (s : State) (h : Nibble) : chip (haltLegal s h) = chip s := by
  unfold haltLegal
  split <;> rfl

/-! ### An instruction cycle -/

@[simp] theorem chip_nextInputs (s : State) : chip (nextInputs s) = chip s := by
  unfold nextInputs
  split <;> rfl

@[simp] theorem chip_timerCycle (s : State) : chip (timerCycle s) = chip s := by
  unfold timerCycle
  dsimp only
  split
  · rw [chip_timerCount]
    rfl
  · rfl

@[simp] theorem chip_sioFalling (s : State) : chip (sioFalling s) = chip s := rfl

@[simp] theorem chip_sioRising (s : State) (b : Bool) : chip (sioRising s b) = chip s := by
  unfold sioRising
  dsimp only
  split <;> rfl

/-- What one system clock of the serial interface keeps, any number of them keep. -/
theorem clocks_keeps {P : State → Prop} {clock : State → Nat → State} (h : ∀ s k, P s → P (clock s k)) {s : State} (hs : P s)
    (k : Nat) : P (clocks clock k s) := by
  unfold clocks
  induction List.range k generalizing s with
  | nil => exact hs
  | cons j rest ih => exact ih (h s j hs)

/-- The first `k + 1` system clocks are the first `k` and one more. -/
theorem clocks_succ (clock : State → Nat → State) (k : Nat) (s : State) :
    clocks clock (k + 1) s = clock (clocks clock k s) k := by
  simp [clocks, List.range_succ]

@[simp] theorem chip_clockEdge (s : State) (level si : Bool) : chip (clockEdge s level si) = chip s := by
  unfold clockEdge
  repeat' split
  all_goals first | rfl | simp

@[simp] theorem chip_externalClock (s : State) (k : Nat) : chip (externalClock s k) = chip s :=
  chip_clockEdge s _ _

@[simp] theorem chip_internalClock (s : State) (k : Nat) : chip (internalClock s k) = chip s :=
  chip_clockEdge s _ _

@[simp] theorem chip_sioExternal (s : State) : chip (sioExternal s) = chip s := by
  unfold sioExternal
  split
  · exact clocks_keeps (P := fun t => chip t = chip s) (fun t k h => (chip_externalClock t k).trans h) rfl 16
  · rfl

@[simp] theorem chip_sioInternal (s : State) : chip (sioInternal s) = chip s := by
  unfold sioInternal
  split
  · exact clocks_keeps (P := fun t => chip t = chip s) (fun t k h => (chip_internalClock t k).trans h) rfl 16
  · rfl

@[simp] theorem chip_sioCycle (s : State) : chip (sioCycle s) = chip s := by
  have key (t : State) :
      chip { t with serial := { t.serial with divider := t.serial.divider + 16 } } = chip t := rfl
  unfold sioCycle
  dsimp only
  rw [key]
  split <;> simp

@[simp] theorem chip_sioStopped (s : State) : chip (sioStopped s) = chip s := by
  unfold sioStopped
  split <;> simp

@[simp] theorem chip_comparatorCycle (s : State) : chip (comparatorCycle s) = chip s := by
  unfold comparatorCycle
  repeat' split
  all_goals rfl

@[simp] theorem chip_intEdge (s : State) : chip (intEdge s) = chip s := rfl

@[simp] theorem chip_intPinSample (s : State) : chip (intPinSample s) = chip s := by
  unfold intPinSample
  dsimp only
  rw [chip_intEdge]
  split <;> simp

@[simp] theorem chip_timerIrregular (s : State) : chip (timerIrregular s) = chip s := by
  unfold timerIrregular
  split <;> rfl

@[simp] theorem chip_tick (s : State) : chip (tick s) = chip s := rfl

@[simp] theorem chip_advanceRunning (s : State) : chip (advanceRunning s) = chip s := by
  unfold advanceRunning
  dsimp only
  rw [chip_tick, chip_timerIrregular, chip_intPinSample]
  split <;> simp

@[simp] theorem chip_advanceStopped (s : State) : chip (advanceStopped s) = chip s := by
  simp [advanceStopped]

@[simp] theorem chip_advanceCycle (s : State) : chip (advanceCycle s) = chip s := by
  unfold advanceCycle
  split <;> simp

@[simp] theorem chip_advanceBy (n : Nat) (s : State) : chip (advanceBy n s) = chip s := by
  unfold advanceBy
  split <;> simp

@[simp] theorem chip_haltCycle (h : Nibble) (s : State) : chip (haltCycle h s) = chip s := by
  unfold haltCycle
  dsimp only
  split
  · exact chip_advanceCycle s
  · simp

@[simp] theorem chip_stopCycle (v : Nibble) (s : State) : chip (stopCycle v s) = chip s := by
  unfold stopCycle
  dsimp only
  split
  · exact chip_advanceCycle s
  · simp

@[simp] theorem chip_waitAdvance (s : State) : chip (waitAdvance s) = chip s := by
  rw [waitAdvance, chip_intEdge, chip_sioStopped]
  rfl

@[simp] theorem chip_waitCount (s : State) : chip (waitCount s) = chip s := by
  unfold waitCount
  split <;> rfl

@[simp] theorem chip_stopWaitCycle (s : State) : chip (stopWaitCycle s) = chip s := by
  unfold stopWaitCycle
  dsimp only
  rw [chip_tick]
  split <;> simp

@[simp] theorem chip_resetWaitCycle (kind : ResetKind) (left : Nat) (s : State) :
    chip (resetWaitCycle kind left s) = chip s := chip_nextInputs s

@[simp] theorem chip_applyReset (kind : ResetKind) (s : State) : chip (applyReset kind s) = chip s := by
  unfold applyReset
  dsimp only
  split <;> rfl

@[simp] theorem chip_takeReset (kind : ResetKind) (s : State) : chip (takeReset kind s) = chip s := by
  unfold takeReset
  split
  · rfl
  · simp

@[simp] theorem chip_resetCycle (kind : ResetKind) (s : State) : chip (resetCycle kind s) = chip s := by
  simp [resetCycle]

@[simp] theorem chip_fetched (s : State) : chip (fetched s) = chip s := rfl

end Sys2Proof.Machine
end

