-- ==== Sys2Proof/Laws/Cycle.lean ====
section
/-! SUPPORT. What an instruction cycle of the peripherals leaves alone: everything a program's instructions alone change, and
the mode. One lemma per shared operation. -/

namespace Sys2Proof.Machine

/-- Everything `SameProgramState` speaks of, as data. -/
def programView (s : State) :=
  ((s.pc, s.sp, s.asr, s.intsk, s.ram, s.ar, s.wr), (s.mpe, s.ix, s.rp, s.psw, s.inte, s.eiHold, s.skip),
    s.pdresen, s.irqStale,
    ({ s.interrupts with irq := false, irqtm := false, irqsio := false, intPrev := false },
      (s.timer.tmen, s.timer.tmck, s.timer.tmosel, s.timer.tmm), (s.serial.sioen, s.serial.siohiz, s.serial.siock),
      s.comparator.cmpch, s.comparator.cmpvref),
    { s.ports with podL := 0, soUsed := false }, withBit1 s.ports.podL false)

theorem sameProgramState_iff {s t : State} : SameProgramState s t ↔ programView t = programView s := by
  constructor
  · rintro ⟨h1, h2, h3, h4, h5, h6, h7, h8, h9, h10, h11, h12, h13, h14, h15, h16, h17, h18, h19, h20, h21, h22⟩
    simp only [Prod.mk.injEq] at h18 h19 h20
    simp only [programView, h1, h2, h3, h4, h5, h6, h7, h8, h9, h10, h11, h12, h13, h14, h15, h16, h17, h18, h19, h20,
      h21, h22]
  · intro h
    simp only [programView, Prod.mk.injEq] at h
    obtain ⟨⟨h1, h2, h3, h4, h5, h6, h7⟩, ⟨h8, h9, h10, h11, h12, h13, h14⟩, h15, h16, ⟨h17, h18, h19, h20⟩, h21, h22⟩ := h
    exact ⟨h1, h2, h3, h4, h5, h6, h7, h8, h9, h10, h11, h12, h13, h14, h15, h16, h17, by simp [h18], by simp [h19],
      by simp [h20], h21, h22⟩

/-- The program's state and the mode. -/
def cpuView (s : State) := (programView s, s.mode)

@[simp] theorem cpu_nextInputs (s : State) : cpuView (nextInputs s) = cpuView s := by
  unfold nextInputs
  split <;> rfl

@[simp] theorem cpu_timerCount (s : State) : cpuView (timerCount s) = cpuView s := by
  unfold timerCount
  split <;> rfl

@[simp] theorem cpu_timerCycle (s : State) : cpuView (timerCycle s) = cpuView s := by
  unfold timerCycle
  dsimp only
  split
  · rw [cpu_timerCount]
    rfl
  · rfl

theorem withBit1_withBit1 (v : Nibble) (b c : Bool) : withBit1 (withBit1 v b) c = withBit1 v c := by
  revert v b c
  decide

@[simp] theorem cpu_sioFalling (s : State) : cpuView (sioFalling s) = cpuView s := by
  simp [cpuView, programView, sioFalling, withBit1_withBit1]

@[simp] theorem cpu_sioRising (s : State) (b : Bool) : cpuView (sioRising s b) = cpuView s := by
  unfold sioRising
  dsimp only
  split <;> rfl

@[simp] theorem cpu_clockEdge (s : State) (level si : Bool) : cpuView (clockEdge s level si) = cpuView s := by
  unfold clockEdge
  repeat' split
  all_goals first | rfl | simp

@[simp] theorem cpu_externalClock (s : State) (k : Nat) : cpuView (externalClock s k) = cpuView s :=
  cpu_clockEdge s _ _

@[simp] theorem cpu_internalClock (s : State) (k : Nat) : cpuView (internalClock s k) = cpuView s :=
  cpu_clockEdge s _ _

@[simp] theorem cpu_sioExternal (s : State) : cpuView (sioExternal s) = cpuView s := by
  unfold sioExternal
  split
  · exact clocks_keeps (P := fun t => cpuView t = cpuView s) (fun t k h => (cpu_externalClock t k).trans h) rfl 16
  · rfl

@[simp] theorem cpu_sioInternal (s : State) : cpuView (sioInternal s) = cpuView s := by
  unfold sioInternal
  split
  · exact clocks_keeps (P := fun t => cpuView t = cpuView s) (fun t k h => (cpu_internalClock t k).trans h) rfl 16
  · rfl

@[simp] theorem cpu_sioCycle (s : State) : cpuView (sioCycle s) = cpuView s := by
  have key (t : State) :
      cpuView { t with serial := { t.serial with divider := t.serial.divider + 16 } } = cpuView t := rfl
  unfold sioCycle
  dsimp only
  rw [key]
  split <;> simp

@[simp] theorem cpu_sioStopped (s : State) : cpuView (sioStopped s) = cpuView s := by
  unfold sioStopped
  split <;> simp

@[simp] theorem cpu_comparatorCycle (s : State) : cpuView (comparatorCycle s) = cpuView s := by
  unfold comparatorCycle
  repeat' split
  all_goals rfl

@[simp] theorem cpu_intEdge (s : State) : cpuView (intEdge s) = cpuView s := rfl

@[simp] theorem cpu_intPinSample (s : State) : cpuView (intPinSample s) = cpuView s := by
  unfold intPinSample
  dsimp only
  rw [cpu_intEdge]
  split <;> simp

@[simp] theorem cpu_timerIrregular (s : State) : cpuView (timerIrregular s) = cpuView s := by
  unfold timerIrregular
  split <;> rfl

@[simp] theorem cpu_tick (s : State) : cpuView (tick s) = cpuView s := rfl

@[simp] theorem cpu_advanceRunning (s : State) : cpuView (advanceRunning s) = cpuView s := by
  unfold advanceRunning
  dsimp only
  rw [cpu_tick, cpu_timerIrregular, cpu_intPinSample]
  split <;> simp

@[simp] theorem cpu_advanceStopped (s : State) : cpuView (advanceStopped s) = cpuView s := by simp [advanceStopped]

/-- The peripherals' cycle changes neither the mode nor anything an instruction alone changes. -/
@[simp] theorem cpu_advanceCycle (s : State) : cpuView (advanceCycle s) = cpuView s := by
  unfold advanceCycle
  split <;> simp

theorem advanceCycle_mode (s : State) : (advanceCycle s).mode = s.mode := congrArg Prod.snd (cpu_advanceCycle s)

theorem advanceCycle_same (s : State) : SameProgramState s (advanceCycle s) :=
  sameProgramState_iff.mpr (congrArg Prod.fst (cpu_advanceCycle s))

/-- A cycle of HALT mode changes at most the mode of the CPU's state. -/
theorem haltCycle_same (h : Nibble) (s : State) : SameProgramState s (haltCycle h s) := by
  have key := sameProgramState_iff.mp (advanceCycle_same s)
  rw [sameProgramState_iff]
  unfold haltCycle
  dsimp only
  split <;> exact key

/-- Likewise a cycle of STOP mode. -/
theorem stopCycle_same (v : Nibble) (s : State) : SameProgramState s (stopCycle v s) := by
  have key := sameProgramState_iff.mp (advanceCycle_same s)
  rw [sameProgramState_iff]
  unfold stopCycle
  dsimp only
  split <;> exact key

@[simp] theorem cpu_waitAdvance (s : State) : cpuView (waitAdvance s) = cpuView s := by
  rw [waitAdvance, cpu_intEdge, cpu_sioStopped]
  rfl

theorem program_waitCount (s : State) : programView (waitCount s) = programView s := by
  unfold waitCount
  split <;> rfl

/-- Likewise a cycle of the wait after a STOP release. -/
theorem stopWaitCycle_same (s : State) : SameProgramState s (stopWaitCycle s) := by
  have key : programView (waitAdvance (nextInputs s)) = programView s :=
    congrArg Prod.fst ((cpu_waitAdvance _).trans (cpu_nextInputs s))
  rw [sameProgramState_iff]
  unfold stopWaitCycle
  dsimp only
  split
  · exact (program_waitCount _).trans key
  · exact key

/-- A cycle of the wait after a reset counts down and leaves the timer, but for its prescaler, and the requests alone. -/
theorem resetWaitCycle_effect (kind : ResetKind) (left : Nat) (s : State) :
    (resetWaitCycle kind left s).mode = (if left ≤ 1 then .run else .resetWait kind (left - 1)) ∧
      (resetWaitCycle kind left s).interrupts = s.interrupts ∧
      (resetWaitCycle kind left s).timer = { s.timer with presc := s.timer.presc + 16 } := by
  unfold resetWaitCycle nextInputs
  split <;> exact ⟨rfl, rfl, rfl⟩

/-- Likewise a cycle of the wait after a reset. -/
theorem resetWaitCycle_same (kind : ResetKind) (left : Nat) (s : State) :
    SameProgramState s (resetWaitCycle kind left s) :=
  sameProgramState_iff.mpr (congrArg Prod.fst (cpu_nextInputs s))

end Sys2Proof.Machine
end

