-- ==== Sys2Proof/Laws/Encoding.lean ====
section
/-! SUPPORT. Laws of the instruction word: each field of a word put together is the field it was put together from, and a
word is put together from its fields (30_encoding.md R142). -/

namespace Sys2Proof

open Machine (append_high_low append_high_high)

theorem extractLsb'_all {w : Nat} (x : BitVec w) : x.extractLsb' 0 w = x := by
  apply BitVec.eq_of_getLsbD_eq
  intro i hi
  simp [hi]

/-- The high part of two bit vectors put together. -/
theorem append_slice_high {w n : Nat} (x : BitVec n) (y : BitVec w) : (x ++ y).extractLsb' w n = x := by
  rw [append_high_high _ _ _ _ (Nat.le_refl w), Nat.sub_self, extractLsb'_all]

/-- The low part of two bit vectors put together. -/
theorem append_slice_low {w n : Nat} (x : BitVec n) (y : BitVec w) : (x ++ y).extractLsb' 0 w = y := by
  rw [append_high_low _ _ _ _ (by omega), extractLsb'_all]

/-- A slice of the high part. -/
theorem append_slice_mid {w n k : Nat} (x : BitVec n) (y : BitVec w) (i : Nat) :
    (x ++ y).extractLsb' (w + i) k = x.extractLsb' i k := by
  rw [append_high_high _ _ _ _ (by omega), Nat.add_sub_cancel_left]

/-! ### Fields of a word put together -/

theorem opField_encodeM (op : BitVec 5) (m : BitVec 7) (low : BitVec 4) : opField (encodeM op m low) = op :=
  (append_slice_mid (op ++ m) low 7).trans (append_slice_high op m)

theorem mField_encodeM (op : BitVec 5) (m : BitVec 7) (low : BitVec 4) : mField (encodeM op m low) = m :=
  (append_slice_mid (op ++ m) low 0).trans (append_slice_low op m)

theorem lowField_encodeM (op : BitVec 5) (m : BitVec 7) (low : BitVec 4) :
    lowField (encodeM op m low) = low := append_slice_low (op ++ m) low

theorem opField_encodeA (op : BitVec 5) (a : BitVec 11) : opField (encodeA op a) = op :=
  append_slice_high op a

theorem addrField_encodeA (op : BitVec 5) (a : BitVec 11) : addrField (encodeA op a) = a :=
  append_slice_low op a

theorem opField_encodeG (g3 : BitVec 3) (sub g4 : BitVec 4) : opField (encodeG g3 sub g4) = 0b00111 :=
  (append_slice_mid (0b00111#5 ++ g3 ++ sub) g4 7).trans
    ((append_slice_mid (0b00111#5 ++ g3) sub 3).trans (append_slice_high 0b00111#5 g3))

theorem g3Field_encodeG (g3 : BitVec 3) (sub g4 : BitVec 4) : g3Field (encodeG g3 sub g4) = g3 :=
  (append_slice_mid (0b00111#5 ++ g3 ++ sub) g4 4).trans
    ((append_slice_mid (0b00111#5 ++ g3) sub 0).trans (append_slice_low 0b00111#5 g3))

theorem subField_encodeG (g3 : BitVec 3) (sub g4 : BitVec 4) : subField (encodeG g3 sub g4) = sub :=
  (append_slice_mid (0b00111#5 ++ g3 ++ sub) g4 0).trans (append_slice_low (0b00111#5 ++ g3) sub)

theorem lowField_encodeG (g3 : BitVec 3) (sub g4 : BitVec 4) : lowField (encodeG g3 sub g4) = g4 :=
  append_slice_low (0b00111#5 ++ g3 ++ sub) g4

theorem opField_encodeSplit (sub : BitVec 4) (a : BitVec 7) : opField (encodeSplit sub a) = 0b00111 :=
  opField_encodeG ..

theorem subField_encodeSplit (sub : BitVec 4) (a : BitVec 7) : subField (encodeSplit sub a) = sub :=
  subField_encodeG ..

/-- Neighbouring slices of a word, put together. -/
theorem extractLsb'_append_extractLsb' {w : Nat} (x : BitVec w) (i k l : Nat) :
    x.extractLsb' (i + l) k ++ x.extractLsb' i l = x.extractLsb' i (k + l) := by
  apply BitVec.eq_of_getLsbD_eq
  intro j hj
  simp only [BitVec.getLsbD_append, BitVec.getLsbD_extractLsb']
  by_cases h : j < l
  · have : j < k + l := by omega
    simp [h, this]
  · have h1 : j - l < k := by omega
    have h2 : j < k + l := by omega
    have h3 : i + l + (j - l) = i + j := by omega
    simp [h, h1, h2, h3]

theorem splitField_encodeSplit (sub : BitVec 4) (a : BitVec 7) : splitField (encodeSplit sub a) = a := by
  simp only [splitField, encodeSplit, g3Field_encodeG, lowField_encodeG]
  exact (extractLsb'_append_extractLsb' a 0 3 4).trans (extractLsb'_all a)

/-! ### A word from its fields -/

theorem encodeM_fields (w : ProgWord) : encodeM (opField w) (mField w) (lowField w) = w := by
  have h1 : opField w ++ mField w = w.extractLsb' 4 12 := extractLsb'_append_extractLsb' w 4 5 7
  have h2 : w.extractLsb' 4 12 ++ lowField w = w.extractLsb' 0 16 := extractLsb'_append_extractLsb' w 0 12 4
  rw [encodeM, h1]
  exact h2.trans (extractLsb'_all w)

theorem encodeA_fields (w : ProgWord) : encodeA (opField w) (addrField w) = w := by
  have h : opField w ++ addrField w = w.extractLsb' 0 16 := extractLsb'_append_extractLsb' w 0 5 11
  exact h.trans (extractLsb'_all w)

theorem encodeG_fields {w : ProgWord} (h : opField w = 0b00111) :
    encodeG (g3Field w) (subField w) (lowField w) = w := by
  have h1 : opField w ++ g3Field w = w.extractLsb' 8 8 := extractLsb'_append_extractLsb' w 8 5 3
  have h2 : w.extractLsb' 8 8 ++ subField w = w.extractLsb' 4 12 := extractLsb'_append_extractLsb' w 4 8 4
  have h3 : w.extractLsb' 4 12 ++ lowField w = w.extractLsb' 0 16 := extractLsb'_append_extractLsb' w 0 12 4
  have h4 : encodeG (g3Field w) (subField w) (lowField w) =
      opField w ++ g3Field w ++ subField w ++ lowField w := by
    rw [h]
    rfl
  rw [h4, h1, h2]
  exact h3.trans (extractLsb'_all w)

theorem encodeSplit_fields {w : ProgWord} (h : opField w = 0b00111) : encodeSplit (subField w) (splitField w) = w := by
  have h1 : (splitField w).extractLsb' 4 3 = g3Field w := by
    rw [splitField, append_high_high _ _ _ _ (Nat.le_refl 4)]
    exact extractLsb'_all _
  have h2 : (splitField w).extractLsb' 0 4 = lowField w := by
    rw [splitField, append_high_low _ _ _ _ (Nat.le_refl 4)]
    exact extractLsb'_all _
  rw [encodeSplit, h1, h2]
  exact encodeG_fields h

/-- The word of a format with a data memory operand, as the rules print it. -/
theorem encodeM_eq_wordOf (op : BitVec 5) (m : BitVec 7) (low : BitVec 4) :
    encodeM op m low = Machine.wordOf (op ++ 0#11) m low := by
  apply BitVec.eq_of_toNat_eq
  have h1 := op.isLt
  have h2 := m.isLt
  have h3 := low.isLt
  have e : (encodeM op m low).toNat = op.toNat * 2048 + m.toNat * 16 + low.toNat := by
    show (op ++ m ++ low).toNat = _
    rw [BitVec.toNat_append, BitVec.toNat_append, ← Nat.shiftLeft_add_eq_or_of_lt h3, ← Nat.shiftLeft_add_eq_or_of_lt h2,
      Nat.shiftLeft_eq, Nat.shiftLeft_eq]
    omega
  have e0 : (op ++ 0#11 : BitVec 16).toNat = op.toNat * 2048 := by
    show (op ++ 0#11).toNat = _
    rw [BitVec.toNat_append, ← Nat.shiftLeft_add_eq_or_of_lt (by decide), Nat.shiftLeft_eq]
    simp
  rw [e, Machine.wordOf]
  simp only [BitVec.toNat_add, BitVec.toNat_shiftLeft, BitVec.toNat_setWidth, e0, Nat.shiftLeft_eq]
  omega

end Sys2Proof
end

