-- ==== Sys2Proof/Laws/Invariant.lean ====
section
/-! SUPPORT. Each shared operation keeps the invariant of the machine. -/

namespace Sys2Proof.Machine

/-- The fields of a timer that the invariant speaks of. -/
def timerView (t : Timer) : Bool × BitVec 8 × Bool := (t.tmen, t.tmm, t.irregular)

/-- What the invariant depends on, but for the skip and hold flags. -/
def view (s : State) : Part × Cells 16 × Cells 4 × BitVec 3 × Nat × Comparator × Mode × (Bool × BitVec 8 × Bool) :=
  (s.part, s.rom, s.ram, s.sp, s.serial.cnt, s.comparator, s.mode, timerView s.timer)

/-- What no operation leaves behind outside Run mode. -/
def idleView (s : State) : Bool × Bool × Option (RequestFlag × Bool) := (s.skip, s.eiHold, s.irqStale)

/-- An operation that changes nothing the invariant depends on keeps it. -/
theorem Inv.congr {s t : State} (h : Inv s) (hv : view t = view s) (hi : idleView t = idleView s) : Inv t := by
  simp only [view, timerView, Prod.mk.injEq] at hv
  simp only [idleView, Prod.mk.injEq] at hi
  obtain ⟨h1, h2, h3, h4, h5, h6, h7, h8, h9, h10⟩ := hv
  obtain ⟨i1, i2, i3⟩ := hi
  exact
    { ram := by rw [h1, h3]; exact h.ram
      rom := by rw [h1, h2]; exact h.rom
      sp := by rw [h4]; exact h.sp
      cnt := by rw [h5]; exact h.cnt
      comparator := by rw [h1, h6]; exact h.comparator
      mode := by rw [h7]; exact h.mode
      idle := by
        have := h.idle
        unfold idleLegal at this ⊢
        rw [h7, i1, i2, i3]
        exact this
      timer := by rw [h8, h9, h10]; exact h.timer }

/-- In Run mode the skip and hold flags are free. -/
theorem Inv.congr_run {s t : State} (h : Inv s) (hm : s.mode = .run) (hv : view t = view s) : Inv t := by
  have hm' : t.mode = .run := by
    rw [← hm]
    exact (Prod.mk.inj (Prod.mk.inj (Prod.mk.inj (Prod.mk.inj (Prod.mk.inj (Prod.mk.inj (Prod.mk.inj
      hv).2).2).2).2).2).2).1
  have h0 : Inv { s with skip := t.skip, eiHold := t.eiHold, irqStale := t.irqStale } :=
    { h with idle := Or.inl hm }
  exact h0.congr hv rfl

/-! ### Memory and registers -/

/-- Data memory, system registers and port latches may change as long as data memory stays in canonical form. -/
theorem Inv.of_besides {s t : State} (h : Inv s) (hr : cellsWf (ramNibbles s.part) t.ram)
    (hb : besidesData t = besidesData s) : Inv t := by
  have h0 : Inv { s with ram := t.ram } := { h with ram := hr }
  have hv : view (besidesData t) = view (besidesData s) := congrArg view hb
  have hi : idleView (besidesData t) = idleView (besidesData s) := congrArg idleView hb
  exact h0.congr (congrArg (fun u => (u.1, u.2.1, t.ram, u.2.2.2)) hv) hi

theorem Inv.dmWrite {s : State} (h : Inv s) (a : DmAddr) (v : Nibble) : Inv (dmWrite s a v) := by
  have hr := cellsWf_dmWrite a v h.ram
  exact h.of_besides hr (dmWrite_besides s a v)

theorem besides_ramWrite (s : State) (a : Nat) (v : Nibble) : besidesData (ramWrite s a v) = besidesData s := rfl

theorem besides_setDbfLow (s : State) (v : BitVec 8) : besidesData (setDbfLow s v) = besidesData s := by
  rw [setDbfLow, besides_ramWrite, besides_ramWrite]

theorem besides_setDbf (s : State) (v : BitVec 16) : besidesData (setDbf s v) = besidesData s := by
  rw [setDbf, besides_setDbfLow, besides_ramWrite, besides_ramWrite]

theorem Inv.setDbfLow {s : State} (h : Inv s) (v : BitVec 8) : Inv (setDbfLow s v) :=
  h.of_besides (cellsWf_setDbfLow v h.ram) (besides_setDbfLow s v)

theorem Inv.setDbf {s : State} (h : Inv s) (v : BitVec 16) : Inv (setDbf s v) :=
  h.of_besides (cellsWf_setDbf v h.ram) (besides_setDbf s v)

theorem Inv.arithCommit {s : State} (h : Inv s) (a : DmAddr) (x : AluResult) : Inv (arithCommit s a x) := by
  have h0 : Inv { s with psw := { s.psw with cy := x.cy, z := zAfter s.psw x.res } } := h.congr rfl rfl
  unfold Machine.arithCommit
  dsimp only
  split
  · exact h0
  · exact h0.dmWrite a x.res

theorem Inv.internalReset {s : State} (h : Inv s) : Inv (internalReset s) where
  ram := cellsWf_freeRam s
  rom := h.rom
  sp := by simp [Machine.internalReset]
  cnt := h.cnt
  comparator := h.comparator
  mode := trivial
  idle := Or.inl rfl
  timer _ h0 := by simp [Machine.internalReset] at h0

theorem Inv.push {s t : State} {v : RomAddr} (h : Inv s) (hp : push s v = some t) : Inv t := by
  obtain ⟨rfl, h5⟩ := push_some_elim hp
  exact { h with sp := h5 }

theorem Inv.pop {s t : State} {v : RomAddr} (h : Inv s) (hp : pop s = some (v, t)) : Inv t := by
  obtain ⟨-, rfl, h4⟩ := pop_some_elim hp
  exact { h with sp := by show (s.sp + 1).toNat ≤ 5; bv_omega }

theorem Inv.setRequest {s : State} (h : Inv s) (f : RequestFlag) (b : Bool) : Inv (setRequest s f b) := by
  cases f <;> exact h.congr rfl rfl

theorem Inv.acceptInterrupt {s : State} (h : Inv s) (src : RequestFlag) : Inv (acceptInterrupt s src) := by
  unfold Machine.acceptInterrupt
  split
  · exact h.internalReset
  · next t ht =>
    have h0 : Inv { t with intsk := s.psw, psw := .clear, inte := false, pc := vector src } :=
      (h.push ht).congr rfl rfl
    exact h0.setRequest src false

theorem Inv.returnFromInterrupt {s : State} (h : Inv s) : Inv (returnFromInterrupt s) := by
  unfold Machine.returnFromInterrupt
  split
  · exact h.internalReset
  · next t ht => exact (h.pop ht).congr rfl rfl

theorem Inv.timerCount {s : State} (h : Inv s) : Inv (timerCount s) := by
  unfold Machine.timerCount
  split <;> exact h.congr rfl rfl


/-- Marking an irregular timer makes the timer's part of the invariant hold, whatever was done to the timer. -/
theorem Inv.markIrregular {s t : State} (h : Inv s) (hv : view t = view { s with timer := t.timer })
    (hi : idleView t = idleView s) : Inv (markIrregular t) := by
  have h0 : Inv { s with timer := (Machine.markIrregular t).timer } :=
    { h with
      timer := fun he hm => by
        simp only [Machine.markIrregular] at he hm ⊢
        simp [he, hm] }
  exact h0.congr
    (congrArg (fun u => (u.1, u.2.1, u.2.2.1, u.2.2.2.1, u.2.2.2.2.1, u.2.2.2.2.2.1, u.2.2.2.2.2.2.1,
      timerView (Machine.markIrregular t).timer)) hv) hi

theorem view_timerModeBits (s : State) (v : Nibble) :
    view (timerModeBits s v) = view { s with timer := (timerModeBits s v).timer } ∧
      idleView (timerModeBits s v) = idleView s := by
  unfold timerModeBits
  dsimp only
  split <;> exact ⟨rfl, rfl⟩

theorem view_timerCount (s : State) : view (timerCount s) = view s ∧ idleView (timerCount s) = idleView s := by
  unfold timerCount
  split <;> exact ⟨rfl, rfl⟩

theorem Inv.writeTimerMode {s : State} (h : Inv s) (v : Nibble) : Inv (writeTimerMode s v) := by
  obtain ⟨hv, hi⟩ := view_timerModeBits s v
  unfold Machine.writeTimerMode
  split
  · obtain ⟨cv, ci⟩ := view_timerCount (timerModeBits s v)
    refine h.markIrregular ?_ (ci.trans hi)
    unfold Machine.timerCount
    split
    · exact congrArg (fun u => (u.1, u.2.1, u.2.2.1, u.2.2.2.1, u.2.2.2.2.1, u.2.2.2.2.2.1, u.2.2.2.2.2.2.1,
        timerView (timerModeBits s v).timer)) hv
    · exact congrArg (fun u => (u.1, u.2.1, u.2.2.1, u.2.2.2.1, u.2.2.2.2.1, u.2.2.2.2.2.1, u.2.2.2.2.2.2.1,
        timerView (timerModeBits s v).timer)) hv
  · exact h.markIrregular hv hi

theorem Inv.writeTmm {s : State} (h : Inv s) (v : BitVec 8) : Inv (writeTmm s v) := h.markIrregular rfl rfl

theorem rfReg_cmpStart {p : Part} {a : DmAddr} (h : rfReg p a = .cmpStart) : hasCmp p = true := by
  unfold rfReg at h
  split at h
  · cases h
  · split at h <;> first | cases h | (split at h <;> first | assumption | cases h)

theorem Inv.writeSp {s : State} (h : Inv s) (v : Nibble) : Inv (writeSp s v) := by
  unfold Machine.writeSp
  split
  · exact h.internalReset
  · next hn => exact { h with sp := by show (v.extractLsb' 0 3).toNat ≤ 5; omega }

theorem Inv.writeCmpStart {s : State} (h : Inv s) (v : Nibble) (hc : hasCmp s.part = true) : Inv (writeCmpStart s v) := by
  unfold Machine.writeCmpStart
  split
  · exact { h with comparator := by simp [comparatorLegal, hc] }
  · exact h

theorem Inv.writeCmpChannel {s : State} (h : Inv s) (v : Nibble) : Inv (writeCmpChannel s v) := by
  unfold Machine.writeCmpChannel
  split
  · exact h
  · exact { h with comparator := h.comparator }

theorem Inv.writeCmpReference {s : State} (h : Inv s) (v : Nibble) : Inv (writeCmpReference s v) := by
  unfold Machine.writeCmpReference
  split
  · exact h
  · exact { h with comparator := h.comparator }

theorem Inv.rfWrite {s : State} (h : Inv s) (a : DmAddr) (v : Nibble) : Inv (rfWrite s a v) := by
  unfold Machine.rfWrite
  split
  case h_1 => exact h.writeSp v
  case h_5 => exact h.writeTimerMode v
  case h_7 => exact { h with cnt := Nat.zero_lt_succ 7 }
  case h_8 => exact h.writeCmpChannel v
  case h_9 => exact h.writeCmpReference v
  case h_10 hr => exact h.writeCmpStart v (rfReg_cmpStart hr)
  case h_19 f _ => exact h.setRequest f _
  case h_21 b _ => exact h.dmWrite b v
  all_goals exact h.congr rfl rfl

theorem Inv.periphPut {s : State} (h : Inv s) (p : BitVec 7) (d : BitVec 16) : Inv (periphPut s p d) := by
  unfold Machine.periphPut
  split <;> first | exact h.writeTmm _ | exact h.congr rfl rfl

/-! ### Standby and reset -/

theorem Inv.enterHalt {s : State} (h : Inv s) (hi : s.skip = false ∧ s.eiHold = false ∧ s.irqStale = none) {v : Nibble}
    (hv : v.getLsbD 2 = false ∧ v.getLsbD 0 = false) : Inv (enterHalt s v) :=
  { h with
    mode := hv
    idle := Or.inr hi
    comparator := by
      have := h.comparator
      unfold comparatorLegal at this ⊢
      simp only [Machine.enterHalt]
      by_cases hc : s.comparator.cmpstrt = true <;> simp_all }

theorem Inv.enterStop {s : State} (h : Inv s) (hi : s.skip = false ∧ s.eiHold = false ∧ s.irqStale = none) {v : Nibble}
    (hv : v = 0 ∨ v = 8) : Inv (enterStop s v) :=
  { h with
    mode := hv
    idle := Or.inr hi
    comparator := by simp [comparatorLegal, Machine.enterStop] }

/-- Whatever the mode, what a reset leaves has the invariant. -/
theorem Inv.initialised {s : State} (h : Inv s) : Inv (initialised s) :=
  { ram := h.ram
    rom := h.rom
    sp := by simp [Machine.initialised, State.reset]
    cnt := by simp [Machine.initialised, State.reset]
    comparator := by simp [comparatorLegal, Machine.initialised, State.reset]
    mode := trivial
    idle := Or.inl rfl
    timer := fun _ h0 => by simp [Machine.initialised, State.reset] at h0 }

theorem Inv.stopInitialise {s : State} (h : Inv s) : Inv (stopInitialise s) :=
  { h.initialised with ram := cellsWf_freeRam s }

theorem Inv.stopLegal {s : State} (h : Inv s) (hi : s.skip = false ∧ s.eiHold = false ∧ s.irqStale = none) {v : Nibble}
    (hv : v = 0 ∨ v = 8) : Inv (stopLegal s v) := by
  unfold Machine.stopLegal
  split
  · exact { h.stopInitialise with mode := Or.inl rfl, idle := Or.inr ⟨rfl, rfl, rfl⟩ }
  · split
    · exact h
    · exact h.enterStop hi hv

theorem Inv.haltLegal {s : State} (h : Inv s) (hi : s.skip = false ∧ s.eiHold = false ∧ s.irqStale = none) {v : Nibble}
    (hv : v.getLsbD 2 = false ∧ v.getLsbD 0 = false) : Inv (haltLegal s v) := by
  unfold Machine.haltLegal
  split
  · exact h
  · exact h.enterHalt hi hv

theorem Inv.applyReset {s : State} (h : Inv s) (kind : ResetKind) : Inv (applyReset kind s) := by
  have h1 : Inv { Machine.initialised s with ram := freeDbf s } := { h.initialised with ram := cellsWf_freeDbf h.ram }
  have hl : 1 ≤ resetWaitCycles ∧ resetWaitCycles ≤ resetWaitCycles := by decide
  unfold Machine.applyReset
  dsimp only
  split
  · have h2 : Inv (forgetData s { Machine.initialised s with ram := freeDbf s }) :=
      { h1 with ram := cellsWf_freeRam s }
    exact { h2 with mode := hl, idle := Or.inr ⟨rfl, rfl, rfl⟩ }
  · exact { h1 with mode := hl, idle := Or.inr ⟨rfl, rfl, rfl⟩ }

theorem Inv.takeReset {s : State} (h : Inv s) (kind : ResetKind) : Inv (takeReset kind s) := by
  unfold Machine.takeReset
  split
  · exact h.congr rfl rfl
  · exact h.applyReset _

/-! ### An instruction cycle -/

theorem Inv.nextInputs {s : State} (h : Inv s) : Inv (nextInputs s) := by
  unfold Machine.nextInputs
  split <;> exact h.congr rfl rfl

theorem Inv.timerCycle {s : State} (h : Inv s) : Inv (timerCycle s) := by
  have h0 : Inv { s with timer := { s.timer with presc := s.timer.presc + 16 } } := h.congr rfl rfl
  unfold Machine.timerCycle
  dsimp only
  split
  · exact h0.timerCount
  · exact h0

theorem Inv.sioFalling {s : State} (h : Inv s) : Inv (sioFalling s) := h.congr rfl rfl

theorem Inv.sioRising {s : State} (h : Inv s) (b : Bool) : Inv (sioRising s b) := by
  unfold Machine.sioRising
  dsimp only
  split
  · exact { h with cnt := Nat.zero_lt_succ 7 }
  · exact { h with cnt := by have := h.cnt; show s.serial.cnt + 1 < 8; omega }

theorem Inv.clockEdge {s : State} (h : Inv s) (level si : Bool) : Inv (clockEdge s level si) := by
  unfold Machine.clockEdge
  repeat' split
  · exact h
  · exact h.sioRising _
  · exact h.sioFalling
  · exact h.congr rfl rfl

theorem Inv.sioExternal {s : State} (h : Inv s) : Inv (sioExternal s) := by
  unfold Machine.sioExternal
  split
  · exact clocks_keeps (fun _ _ h => h.clockEdge _ _) h 16
  · exact h.congr rfl rfl

theorem Inv.sioInternal {s : State} (h : Inv s) : Inv (sioInternal s) := by
  unfold Machine.sioInternal
  split
  · exact clocks_keeps (fun _ _ h => h.clockEdge _ _) h 16
  · exact h.congr rfl rfl

theorem Inv.sioCycle {s : State} (h : Inv s) : Inv (sioCycle s) := by
  unfold Machine.sioCycle
  dsimp only
  split
  · exact h.sioExternal.congr rfl rfl
  · exact h.sioInternal.congr rfl rfl

theorem Inv.sioStopped {s : State} (h : Inv s) : Inv (sioStopped s) := by
  unfold Machine.sioStopped
  split
  · exact h.sioExternal
  · exact h

theorem Inv.comparatorCycle {s : State} (h : Inv s) : Inv (comparatorCycle s) := by
  have hc := h.comparator
  unfold comparatorLegal at hc
  unfold Machine.comparatorCycle
  split
  · next h1 =>
    rw [if_pos h1] at hc
    split
    · exact { h with comparator := by simp [comparatorLegal] }
    · exact { h with
        comparator := by
          simp only [comparatorLegal, h1, if_true]
          refine ⟨hc.1, ?_, ?_⟩ <;> omega }
  · exact h

theorem Inv.intEdge {s : State} (h : Inv s) : Inv (intEdge s) := h.congr rfl rfl

theorem Inv.intPinSample {s : State} (h : Inv s) : Inv (intPinSample s) := by
  unfold Machine.intPinSample
  dsimp only
  split
  · exact h.timerCount.intEdge
  · exact h.intEdge

theorem Inv.timerIrregular {s : State} (h : Inv s) : Inv (timerIrregular s) := by
  unfold Machine.timerIrregular
  split
  · exact h.congr rfl rfl
  · exact h

theorem Inv.tick {s : State} (h : Inv s) : Inv (tick s) := h.congr rfl rfl

theorem Inv.advanceRunning {s : State} (h : Inv s) : Inv (advanceRunning s) := by
  unfold Machine.advanceRunning
  dsimp only
  split
  · exact h.nextInputs.timerCycle.sioCycle.comparatorCycle.intPinSample.timerIrregular.tick
  · exact h.nextInputs.timerCycle.sioCycle.intPinSample.timerIrregular.tick

theorem Inv.advanceStopped {s : State} (h : Inv s) : Inv (advanceStopped s) := h.nextInputs.sioStopped.intEdge.tick

theorem Inv.advanceCycle {s : State} (h : Inv s) : Inv (advanceCycle s) := by
  unfold Machine.advanceCycle
  split
  · exact h.advanceStopped
  · exact h.advanceRunning

theorem Inv.advanceBy {s : State} (h : Inv s) (n : Nat) : Inv (advanceBy n s) := by
  unfold Machine.advanceBy
  split
  · exact h.advanceCycle.advanceCycle
  · exact h.advanceCycle

/-- A mode that is left for Run mode needs nothing. -/
theorem Inv.toRun {s : State} (h : Inv s) : Inv { s with mode := .run } :=
  { h with mode := trivial, idle := Or.inl rfl }

end Sys2Proof.Machine
end

