-- ==== Sys2Proof/Laws/PerInstr.lean ====
section
/-! SUPPORT. A family of statements, one for every instruction: its word is in its row of spec/opcode_table.json. -/

namespace Sys2Proof.Laws

/-! ### Fixed bits of the formats (30_encoding.md R142) -/

theorem encodeM_fixed (op : BitVec 5) (m : BitVec 7) (low : BitVec 4) :
    encodeM op m low &&& 0xF800 = encodeM op 0 0 := by
  apply BitVec.eq_of_getLsbD_eq
  intro i hi
  have : i ∈ List.range 16 := List.mem_range.mpr hi
  simp only [encodeM, BitVec.getLsbD_append, BitVec.getLsbD_and]
  simp only [List.range, List.range.loop, List.mem_cons, List.not_mem_nil, or_false] at this
  rcases this with h | h | h | h | h | h | h | h | h | h | h | h | h | h | h | h <;> subst h <;> simp

theorem encodeA_fixed (op : BitVec 5) (a : BitVec 11) (h : (!a.getLsbD 10) = true) :
    encodeA op a &&& 0xFC00 = encodeA op 0 := by
  have h10 : a.getLsbD 10 = false := by simpa using h
  apply BitVec.eq_of_getLsbD_eq
  intro i hi
  have : i ∈ List.range 16 := List.mem_range.mpr hi
  simp only [encodeA, BitVec.getLsbD_append, BitVec.getLsbD_and]
  simp only [List.range, List.range.loop, List.mem_cons, List.not_mem_nil, or_false] at this
  rcases this with h | h | h | h | h | h | h | h | h | h | h | h | h | h | h | h <;> subst h <;> simp_all

theorem encodeSplit_fixed (sub : BitVec 4) (a : BitVec 7) : encodeSplit sub a &&& 0xF8F0 = encodeG 0 sub 0 := by
  apply BitVec.eq_of_getLsbD_eq
  intro i hi
  have : i ∈ List.range 16 := List.mem_range.mpr hi
  simp only [encodeSplit, encodeG, BitVec.getLsbD_append, BitVec.getLsbD_and]
  simp only [List.range, List.range.loop, List.mem_cons, List.not_mem_nil, or_false] at this
  rcases this with h | h | h | h | h | h | h | h | h | h | h | h | h | h | h | h <;> subst h <;> simp

/-- The mask of the instruction's row: 1 where the encoding fixes the bit. -/
def OpcodeRow.mask (i : Instr) : BitVec 16 :=
  match i with
  | .addRM _ _ => 0xF800
  | .addMI _ _ => 0xF800
  | .addcRM _ _ => 0xF800
  | .addcMI _ _ => 0xF800
  | .incAR => 0xFFFF
  | .incIX => 0xFFFF
  | .subRM _ _ => 0xF800
  | .subMI _ _ => 0xF800
  | .subcRM _ _ => 0xF800
  | .subcMI _ _ => 0xF800
  | .orRM _ _ => 0xF800
  | .orMI _ _ => 0xF800
  | .andRM _ _ => 0xF800
  | .andMI _ _ => 0xF800
  | .xorRM _ _ => 0xF800
  | .xorMI _ _ => 0xF800
  | .skt _ _ => 0xF800
  | .skf _ _ => 0xF800
  | .ske _ _ => 0xF800
  | .skne _ _ => 0xF800
  | .skge _ _ => 0xF800
  | .sklt _ _ => 0xF800
  | .rorc _ => 0xFFF0
  | .ld _ _ => 0xF800
  | .st _ _ => 0xF800
  | .movToInd _ _ => 0xF800
  | .movFromInd _ _ => 0xF800
  | .movMI _ _ => 0xF800
  | .movt => 0xFFFF
  | .pushAR => 0xFFFF
  | .popAR => 0xFFFF
  | .peek _ => 0xF8F0
  | .poke _ => 0xF8F0
  | .get _ => 0xF8F0
  | .put _ => 0xF8F0
  | .br _ => 0xFC00
  | .brAR => 0xFFFF
  | .call _ => 0xFC00
  | .callAR => 0xFFFF
  | .ret => 0xFFFF
  | .retsk => 0xFFFF
  | .reti => 0xFFFF
  | .ei => 0xFFFF
  | .di => 0xFFFF
  | .stop _ => 0xFFF0
  | .halt _ => 0xFFF0
  | .nop => 0xFFFF

/-- The fixed bits of the instruction's row. -/
def OpcodeRow.bits (i : Instr) : BitVec 16 :=
  match i with
  | .addRM _ _ => 0x0000
  | .addMI _ _ => 0x8000
  | .addcRM _ _ => 0x1000
  | .addcMI _ _ => 0x9000
  | .incAR => 0x3890
  | .incIX => 0x3880
  | .subRM _ _ => 0x0800
  | .subMI _ _ => 0x8800
  | .subcRM _ _ => 0x1800
  | .subcMI _ _ => 0x9800
  | .orRM _ _ => 0x3000
  | .orMI _ _ => 0xB000
  | .andRM _ _ => 0x2000
  | .andMI _ _ => 0xA000
  | .xorRM _ _ => 0x2800
  | .xorMI _ _ => 0xA800
  | .skt _ _ => 0xF000
  | .skf _ _ => 0xF800
  | .ske _ _ => 0x4800
  | .skne _ _ => 0x5800
  | .skge _ _ => 0xC800
  | .sklt _ _ => 0xD800
  | .rorc _ => 0x3870
  | .ld _ _ => 0x4000
  | .st _ _ => 0xC000
  | .movToInd _ _ => 0x5000
  | .movFromInd _ _ => 0xD000
  | .movMI _ _ => 0xE800
  | .movt => 0x3810
  | .pushAR => 0x38D0
  | .popAR => 0x38C0
  | .peek _ => 0x3830
  | .poke _ => 0x3820
  | .get _ => 0x38B0
  | .put _ => 0x38A0
  | .br _ => 0x6000
  | .brAR => 0x3840
  | .call _ => 0xE000
  | .callAR => 0x3850
  | .ret => 0x38E0
  | .retsk => 0x39E0
  | .reti => 0x3CE0
  | .ei => 0x38F0
  | .di => 0x39F0
  | .stop _ => 0x3AF0
  | .halt _ => 0x3BF0
  | .nop => 0x3CF0

/-- The word of the instruction has the fixed bits of its row of spec/opcode_table.json. -/
def OpcodeRow.Statement (i : Instr) : Prop :=
  i.wellFormed = true → encode i &&& OpcodeRow.mask i = OpcodeRow.bits i

theorem OpcodeRow.addRM (r : BitVec 4) (m : BitVec 7) : OpcodeRow.Statement (.addRM r m) := fun _ =>
  encodeM_fixed ..

theorem OpcodeRow.addMI (m : BitVec 7) (n4 : BitVec 4) : OpcodeRow.Statement (.addMI m n4) := fun _ =>
  encodeM_fixed ..

theorem OpcodeRow.addcRM (r : BitVec 4) (m : BitVec 7) : OpcodeRow.Statement (.addcRM r m) := fun _ =>
  encodeM_fixed ..

theorem OpcodeRow.addcMI (m : BitVec 7) (n4 : BitVec 4) : OpcodeRow.Statement (.addcMI m n4) := fun _ =>
  encodeM_fixed ..

theorem OpcodeRow.incAR : OpcodeRow.Statement .incAR := fun _ =>
  rfl

theorem OpcodeRow.incIX : OpcodeRow.Statement .incIX := fun _ =>
  rfl

theorem OpcodeRow.subRM (r : BitVec 4) (m : BitVec 7) : OpcodeRow.Statement (.subRM r m) := fun _ =>
  encodeM_fixed ..

theorem OpcodeRow.subMI (m : BitVec 7) (n4 : BitVec 4) : OpcodeRow.Statement (.subMI m n4) := fun _ =>
  encodeM_fixed ..

theorem OpcodeRow.subcRM (r : BitVec 4) (m : BitVec 7) : OpcodeRow.Statement (.subcRM r m) := fun _ =>
  encodeM_fixed ..

theorem OpcodeRow.subcMI (m : BitVec 7) (n4 : BitVec 4) : OpcodeRow.Statement (.subcMI m n4) := fun _ =>
  encodeM_fixed ..

theorem OpcodeRow.orRM (r : BitVec 4) (m : BitVec 7) : OpcodeRow.Statement (.orRM r m) := fun _ =>
  encodeM_fixed ..

theorem OpcodeRow.orMI (m : BitVec 7) (n4 : BitVec 4) : OpcodeRow.Statement (.orMI m n4) := fun _ =>
  encodeM_fixed ..

theorem OpcodeRow.andRM (r : BitVec 4) (m : BitVec 7) : OpcodeRow.Statement (.andRM r m) := fun _ =>
  encodeM_fixed ..

theorem OpcodeRow.andMI (m : BitVec 7) (n4 : BitVec 4) : OpcodeRow.Statement (.andMI m n4) := fun _ =>
  encodeM_fixed ..

theorem OpcodeRow.xorRM (r : BitVec 4) (m : BitVec 7) : OpcodeRow.Statement (.xorRM r m) := fun _ =>
  encodeM_fixed ..

theorem OpcodeRow.xorMI (m : BitVec 7) (n4 : BitVec 4) : OpcodeRow.Statement (.xorMI m n4) := fun _ =>
  encodeM_fixed ..

theorem OpcodeRow.skt (m : BitVec 7) (n : BitVec 4) : OpcodeRow.Statement (.skt m n) := fun _ =>
  encodeM_fixed ..

theorem OpcodeRow.skf (m : BitVec 7) (n : BitVec 4) : OpcodeRow.Statement (.skf m n) := fun _ =>
  encodeM_fixed ..

theorem OpcodeRow.ske (m : BitVec 7) (n4 : BitVec 4) : OpcodeRow.Statement (.ske m n4) := fun _ =>
  encodeM_fixed ..

theorem OpcodeRow.skne (m : BitVec 7) (n4 : BitVec 4) : OpcodeRow.Statement (.skne m n4) := fun _ =>
  encodeM_fixed ..

theorem OpcodeRow.skge (m : BitVec 7) (n4 : BitVec 4) : OpcodeRow.Statement (.skge m n4) := fun _ =>
  encodeM_fixed ..

theorem OpcodeRow.sklt (m : BitVec 7) (n4 : BitVec 4) : OpcodeRow.Statement (.sklt m n4) := fun _ =>
  encodeM_fixed ..

theorem OpcodeRow.rorc (r : BitVec 4) : OpcodeRow.Statement (.rorc r) := by
  unfold OpcodeRow.Statement
  revert r
  decide

theorem OpcodeRow.ld (r : BitVec 4) (m : BitVec 7) : OpcodeRow.Statement (.ld r m) := fun _ =>
  encodeM_fixed ..

theorem OpcodeRow.st (m : BitVec 7) (r : BitVec 4) : OpcodeRow.Statement (.st m r) := fun _ =>
  encodeM_fixed ..

theorem OpcodeRow.movToInd (r : BitVec 4) (m : BitVec 7) : OpcodeRow.Statement (.movToInd r m) := fun _ =>
  encodeM_fixed ..

theorem OpcodeRow.movFromInd (m : BitVec 7) (r : BitVec 4) : OpcodeRow.Statement (.movFromInd m r) := fun _ =>
  encodeM_fixed ..

theorem OpcodeRow.movMI (m : BitVec 7) (n4 : BitVec 4) : OpcodeRow.Statement (.movMI m n4) := fun _ =>
  encodeM_fixed ..

theorem OpcodeRow.movt : OpcodeRow.Statement .movt := fun _ =>
  rfl

theorem OpcodeRow.pushAR : OpcodeRow.Statement .pushAR := fun _ =>
  rfl

theorem OpcodeRow.popAR : OpcodeRow.Statement .popAR := fun _ =>
  rfl

theorem OpcodeRow.peek (rf : BitVec 7) : OpcodeRow.Statement (.peek rf) := fun _ =>
  encodeSplit_fixed ..

theorem OpcodeRow.poke (rf : BitVec 7) : OpcodeRow.Statement (.poke rf) := fun _ =>
  encodeSplit_fixed ..

theorem OpcodeRow.get (p : BitVec 7) : OpcodeRow.Statement (.get p) := fun _ =>
  encodeSplit_fixed ..

theorem OpcodeRow.put (p : BitVec 7) : OpcodeRow.Statement (.put p) := fun _ =>
  encodeSplit_fixed ..

theorem OpcodeRow.br (addr : BitVec 11) : OpcodeRow.Statement (.br addr) := fun h =>
  encodeA_fixed _ _ h

theorem OpcodeRow.brAR : OpcodeRow.Statement .brAR := fun _ =>
  rfl

theorem OpcodeRow.call (addr : BitVec 11) : OpcodeRow.Statement (.call addr) := fun h =>
  encodeA_fixed _ _ h

theorem OpcodeRow.callAR : OpcodeRow.Statement .callAR := fun _ =>
  rfl

theorem OpcodeRow.ret : OpcodeRow.Statement .ret := fun _ =>
  rfl

theorem OpcodeRow.retsk : OpcodeRow.Statement .retsk := fun _ =>
  rfl

theorem OpcodeRow.reti : OpcodeRow.Statement .reti := fun _ =>
  rfl

theorem OpcodeRow.ei : OpcodeRow.Statement .ei := fun _ =>
  rfl

theorem OpcodeRow.di : OpcodeRow.Statement .di := fun _ =>
  rfl

theorem OpcodeRow.stop (s : BitVec 4) : OpcodeRow.Statement (.stop s) := by
  unfold OpcodeRow.Statement
  revert s
  decide

theorem OpcodeRow.halt (h : BitVec 4) : OpcodeRow.Statement (.halt h) := by
  unfold OpcodeRow.Statement
  revert h
  decide

theorem OpcodeRow.nop : OpcodeRow.Statement .nop := fun _ =>
  rfl

end Sys2Proof.Laws
end

