-- ==== Sys2Proof/Laws/Peripherals.lean ====
section
/-! SUPPORT. Laws of the timer, the serial interface, the ports, the waits and the resets: what one clock, one count, one
edge does. -/

namespace Sys2Proof.Machine

/-! ### Bits of nibbles -/

theorem nibbleOf_bit0 (a b c d : Bool) : (nibbleOf a b c d).getLsbD 0 = d := by
  cases a <;> cases b <;> cases c <;> cases d <;> rfl

theorem nibbleOf_bit1 (a b c d : Bool) : (nibbleOf a b c d).getLsbD 1 = c := by
  cases a <;> cases b <;> cases c <;> cases d <;> rfl

theorem nibbleOf_bit2 (a b c d : Bool) : (nibbleOf a b c d).getLsbD 2 = b := by
  cases a <;> cases b <;> cases c <;> cases d <;> rfl

theorem nibbleOf_bit3 (a b c d : Bool) : (nibbleOf a b c d).getLsbD 3 = a := by
  cases a <;> cases b <;> cases c <;> cases d <;> rfl

@[simp] theorem nibbleOf_get0 (a b c d : Bool) : (nibbleOf a b c d)[0] = d := nibbleOf_bit0 a b c d

@[simp] theorem nibbleOf_get1 (a b c d : Bool) : (nibbleOf a b c d)[1] = c := nibbleOf_bit1 a b c d

@[simp] theorem nibbleOf_get2 (a b c d : Bool) : (nibbleOf a b c d)[2] = b := nibbleOf_bit2 a b c d

@[simp] theorem nibbleOf_get3 (a b c d : Bool) : (nibbleOf a b c d)[3] = a := nibbleOf_bit3 a b c d

theorem withBit1_bit1 (v : Nibble) (b : Bool) : (withBit1 v b).getLsbD 1 = b := nibbleOf_bit1 _ _ _ _

/-- A bitwise choice, bit by bit. -/
theorem getLsbD_mux {w : Nat} (a b c : BitVec w) (i : Nat) :
    (mux a b c).getLsbD i = if a.getLsbD i then b.getLsbD i else c.getLsbD i := by
  by_cases hi : i < w
  · simp only [mux, BitVec.getLsbD_or, BitVec.getLsbD_and, BitVec.getLsbD_not, hi, decide_true, Bool.true_and]
    cases a.getLsbD i <;> simp
  · have h (x : BitVec w) : x.getLsbD i = false := BitVec.getLsbD_of_ge x i (by omega)
    rw [h, h a, h b, h c]
    rfl

/-- The port registers stand at the same addresses on every part. -/
theorem dmRead_ports (s : State) (slot : ReadSlot) :
    dmRead s slot 0x6F = 0#2 ++ readPoe s ∧ dmRead s slot 0x70 = readPoa s ∧ dmRead s slot 0x71 = readPob s ∧
      dmRead s slot 0x72 = readPoc s slot ∧ dmRead s slot 0x73 = readPod s slot := by
  obtain ⟨h1, h2, h3, h4, h5, -⟩ := dmCell_registers s.part
  unfold dmRead
  rw [h1, h2, h3, h4, h5]
  exact ⟨rfl, rfl, rfl, rfl, rfl⟩

theorem getLsbD_withBit1 (v : Nibble) (b : Bool) (i : Nat) :
    (withBit1 v b).getLsbD i = if i = 1 then b else v.getLsbD i := by
  rcases i with _ | _ | _ | _ | i
  · exact nibbleOf_bit0 _ _ _ _
  · exact nibbleOf_bit1 _ _ _ _
  · exact nibbleOf_bit2 _ _ _ _
  · exact nibbleOf_bit3 _ _ _ _
  · rw [if_neg (by omega), BitVec.getLsbD_of_ge _ _ (by omega), BitVec.getLsbD_of_ge _ _ (by omega)]

/-- The port's view of the port OD latch is the latch, but for bit 1 after the shifter. -/
theorem podPortLatch_bit (s : State) {i : Nat} (h : i ≠ 1 ∨ s.ports.soUsed = false) :
    (podPortLatch s).getLsbD i = s.ports.podL.getLsbD i := by
  unfold podPortLatch
  split
  · next hu =>
    rw [getLsbD_withBit1, if_neg (h.resolve_right (by rw [hu]; nofun))]
  · rfl

/-- Which bits of a read of port OD come from the latch, one by one (R314, R315). -/
theorem podFromLatch_bits (s : State) :
    (podFromLatch s).getLsbD 0 = (if s.serial.sioen then s.serial.siock != 0 else s.ports.podbio.getLsbD 0) ∧
    (podFromLatch s).getLsbD 1 = (!s.serial.sioen && s.ports.podbio.getLsbD 1) ∧
    (podFromLatch s).getLsbD 2 = (!s.serial.sioen && s.ports.podbio.getLsbD 2) ∧
    (podFromLatch s).getLsbD 3 = (s.timer.tmosel || s.ports.podbio.getLsbD 3) :=
  ⟨nibbleOf_bit0 _ _ _ _, nibbleOf_bit1 _ _ _ _, nibbleOf_bit2 _ _ _ _, nibbleOf_bit3 _ _ _ _⟩

/-- A read of port OD, bit by bit, but for the SO output. -/
theorem readPod_bit (s : State) (slot : ReadSlot) {i : Nat} (h : i ≠ 1 ∨ soDriven s = false) :
    (readPod s slot).getLsbD i =
      if (podFromLatch s).getLsbD i then (podPortLatch s).getLsbD i else (podPins s).getLsbD i := by
  unfold readPod
  dsimp only
  split
  · next hu =>
    rw [getLsbD_withBit1, if_neg (h.resolve_right (by rw [hu]; nofun)), getLsbD_mux]
  · exact getLsbD_mux _ _ _ _

/-! ### What the chip drives -/

/-- An open-drain pin is low as an output at 0 and else not driven (R302). -/
theorem openDrainDrive_eq (output latch : Bool) :
    openDrainDrive output latch = if output = true ∧ latch = false then .low else .released := by
  cases output <;> cases latch <;> rfl

/-- Which pins of port OE are pulled low, one by one (R318, R342). -/
theorem poeLow_bit (s : State) (n : Fin 2) :
    (poeLow s).getLsbD n =
      (s.ports.poebio.getLsbD n && !s.ports.poeL.getLsbD n && !(n == 1 && poe1IsVref s)) := by
  unfold poeLow
  generalize s.ports.poebio = a
  generalize s.ports.poeL = b
  generalize poe1IsVref s = c
  revert n a b c
  decide

/-- The period of the serial clock is one of three. -/
theorem sioPeriod_eq {x : BitVec 2} (h : x ≠ 0) :
    sioPeriod x = if x = 1 then 16 else if x = 2 then 128 else 1024 := by
  revert x
  decide

/-- An internal serial clock is high for 1 to 15 system clocks. -/
theorem clockRise_bounds {n : Nat} (h : 16 ≤ n) : n < clockRise n + 16 ∧ clockRise n < n ∧ 0 < clockRise n := by
  have := Nat.mod_lt (Config.clockHigh n) (show 15 > 0 by decide)
  unfold clockRise
  omega

/-- What an edge or a level of the serial clock leaves alone. -/
theorem clockEdge_keeps (s : State) (level si : Bool) :
    (clockEdge s level si).serial.sck = level ∧ (clockEdge s level si).serial.siock = s.serial.siock ∧
      (clockEdge s level si).serial.sioen = s.serial.sioen ∧ (clockEdge s level si).serial.divider = s.serial.divider ∧
      (clockEdge s level si).env = s.env := by
  unfold clockEdge
  split
  · next h => exact ⟨h.symm, rfl, rfl, rfl, rfl⟩
  · split
    · split
      · next hl =>
        unfold sioRising
        dsimp only
        split <;> exact ⟨hl.symm, rfl, rfl, rfl, rfl⟩
      · next hl => exact ⟨(Bool.eq_false_iff.mpr hl).symm, rfl, rfl, rfl, rfl⟩
    · exact ⟨rfl, rfl, rfl, rfl, rfl⟩

/-- A clock at whose level the serial clock already is does nothing. -/
theorem clockEdge_same {s : State} {level : Bool} (si : Bool) (h : level = s.serial.sck) : clockEdge s level si = s :=
  if_pos h

/-- A falling edge in a transfer. -/
theorem clockEdge_falls {s : State} {level : Bool} (si : Bool) (h : level = false) (hs : s.serial.sck = true)
    (ha : sioActive s = true) : clockEdge s level si = sioFalling s := by
  subst h
  unfold clockEdge
  rw [if_neg (by simp [hs]), if_pos ha, if_neg (by simp)]

/-- A rising edge in a transfer. -/
theorem clockEdge_rises {s : State} {level : Bool} (si : Bool) (h : level = true) (hs : s.serial.sck = false)
    (ha : sioActive s = true) : clockEdge s level si = sioRising s si := by
  subst h
  unfold clockEdge
  rw [if_neg (by simp [hs]), if_pos ha, if_pos rfl]

/-- The internal clock's level where the divider wraps, -/
theorem internalLevel_wrap {s : State} {k : Nat} (h : s.serial.siots = true)
    (hp : (s.serial.divider.toNat + (k + 1)) % sioPeriod s.serial.siock = 0) : internalLevel s k = false := by
  simp [internalLevel, h, hp]

/-- before the rising edge of the period, -/
theorem internalLevel_before {s : State} {k p : Nat} (h : s.serial.siots = true)
    (hp : (s.serial.divider.toNat + (k + 1)) % sioPeriod s.serial.siock = p) (h0 : p ≠ 0)
    (hr : p < clockRise (sioPeriod s.serial.siock)) : internalLevel s k = s.serial.sck := by
  simp [internalLevel, h, hp, h0, Nat.not_le.mpr hr]

/-- and from it on. -/
theorem internalLevel_after {s : State} {k p : Nat}
    (hp : (s.serial.divider.toNat + (k + 1)) % sioPeriod s.serial.siock = p) (h0 : p ≠ 0)
    (hr : clockRise (sioPeriod s.serial.siock) ≤ p) : internalLevel s k = true := by
  simp [internalLevel, hp, h0, hr]

/-- What a rising edge leaves of the fields a serial clock depends on. -/
theorem sioRising_clock (s : State) (b : Bool) :
    (sioRising s b).serial.sck = true ∧ (sioRising s b).serial.siock = s.serial.siock ∧
      (sioRising s b).serial.sioen = s.serial.sioen ∧ (sioRising s b).serial.divider = s.serial.divider ∧
      (sioRising s b).env = s.env ∧ (sioRising s b).serial.siots = (s.serial.siots && s.serial.cnt + 1 != 8) ∧
      (sioRising s b).serial.cnt = (if s.serial.cnt + 1 = 8 then 0 else s.serial.cnt + 1) ∧
      (sioRising s b).mask = s.mask ∧ (sioRising s b).part = s.part := by
  unfold sioRising
  dsimp only
  split
  · next h => exact ⟨rfl, rfl, rfl, rfl, rfl, by simp [h], rfl, rfl, rfl⟩
  · next h => exact ⟨rfl, rfl, rfl, rfl, rfl, by rw [bne_iff_ne.mpr h, Bool.and_true], rfl, rfl, rfl⟩

/-- A phase that has wrapped once. -/
theorem phase_wrapped {d k n : Nat} (hd : d < n) (hk : k < 16) (hn : 16 ≤ n) (h : n ≤ d + (k + 1)) :
    (d + (k + 1)) % n = d + (k + 1) - n := by
  rw [Nat.mod_eq_sub_mod h, Nat.mod_eq_of_lt (by omega)]

/-- The first `k` system clocks of a cycle that an internal clock starts high: its falling edge, then its rising one. -/
theorem clocks_internal_high {s : State} {n d : Nat} (hn : sioPeriod s.serial.siock = n) (hn16 : 16 ≤ n)
    (hd : d = s.serial.divider.toNat % n) (ha : sioActive s = true) (hs : s.serial.sck = true) {k : Nat} (hk : k ≤ 16) :
    clocks internalClock k s =
      if d + k < n then s
      else if d + k < n + clockRise n then sioFalling s
      else sioRising (sioFalling s) (siLevel s (n + clockRise n - d - 1)) := by
  have hts : s.serial.siots = true := by
    simp only [sioActive, Bool.and_eq_true] at ha
    exact ha.2
  have hdn : d < n := hd ▸ Nat.mod_lt _ (by omega)
  obtain ⟨b1, b2, b3⟩ := clockRise_bounds hn16
  have ph (j : Nat) : (s.serial.divider.toNat + (j + 1)) % n = (d + (j + 1)) % n := by
    rw [hd, Nat.mod_add_mod]
  induction k with
  | zero => simp [clocks, hdn]
  | succ k ih =>
    rw [clocks_succ, ih (by omega)]
    by_cases h1 : d + k < n
    · rw [if_pos h1]
      by_cases h2 : d + (k + 1) < n
      · rw [if_pos h2]
        refine clockEdge_same _ ?_
        by_cases h3 : d + (k + 1) < clockRise n
        · exact internalLevel_before (p := d + (k + 1)) hts (by rw [hn, ph, Nat.mod_eq_of_lt h2]) (by omega)
            (by rw [hn]; exact h3)
        · rw [hs]
          exact internalLevel_after (p := d + (k + 1)) (by rw [hn, ph, Nat.mod_eq_of_lt h2]) (by omega) (by rw [hn]; omega)
      · rw [if_neg h2, if_pos (by omega)]
        exact clockEdge_falls _ (internalLevel_wrap hts (by rw [hn, ph, show d + (k + 1) = n by omega, Nat.mod_self])) hs ha
    · have hp := phase_wrapped (k := k) hdn (by omega) hn16 (by omega)
      rw [if_neg h1, if_neg (show ¬d + (k + 1) < n by omega)]
      by_cases h2 : d + k < n + clockRise n
      · rw [if_pos h2]
        by_cases h3 : d + (k + 1) < n + clockRise n
        · rw [if_pos h3]
          exact clockEdge_same _ (internalLevel_before (p := d + (k + 1) - n) hts
            (by show (s.serial.divider.toNat + (k + 1)) % sioPeriod s.serial.siock = _; rw [hn, ph, hp]) (by omega)
            (by show _ < clockRise (sioPeriod s.serial.siock); rw [hn]; omega))
        · rw [if_neg h3, show n + clockRise n - d - 1 = k by omega]
          exact clockEdge_rises _ (internalLevel_after (p := d + (k + 1) - n)
            (by show (s.serial.divider.toNat + (k + 1)) % sioPeriod s.serial.siock = _; rw [hn, ph, hp]) (by omega)
            (by show clockRise (sioPeriod s.serial.siock) ≤ _; rw [hn]; omega)) rfl ha
      · rw [if_neg h2, if_neg (by omega)]
        obtain ⟨c1, c2, -, c4, -⟩ := sioRising_clock (sioFalling s) (siLevel s (n + clockRise n - d - 1))
        refine clockEdge_same _ ((internalLevel_after (p := d + (k + 1) - n) ?_ (by omega) ?_).trans c1.symm)
        · rw [c2, c4]
          show (s.serial.divider.toNat + (k + 1)) % sioPeriod s.serial.siock = _
          rw [hn, ph, hp]
        · rw [c2]
          show clockRise (sioPeriod s.serial.siock) ≤ _
          rw [hn]
          omega

/-- Those of a cycle that it starts low: its rising edge, then its falling one unless that rising edge ended the transfer. -/
theorem clocks_internal_low {s : State} {n d : Nat} (hn : sioPeriod s.serial.siock = n) (hn16 : 16 ≤ n)
    (hd : d = s.serial.divider.toNat % n) (ha : sioActive s = true) (hs : s.serial.sck = false) (hr : d < clockRise n)
    {k : Nat} (hk : k ≤ 16) {r : State} (hr' : r = sioRising s (siLevel s (clockRise n - d - 1))) :
    clocks internalClock k s =
      if d + k < clockRise n then s
      else if d + k < n ∨ r.serial.siots = false then r else sioFalling r := by
  obtain ⟨he, hts⟩ : s.serial.sioen = true ∧ s.serial.siots = true := by
    simpa only [sioActive, Bool.and_eq_true] using ha
  have hdn : d < n := hd ▸ Nat.mod_lt _ (by omega)
  obtain ⟨b1, b2, b3⟩ := clockRise_bounds hn16
  obtain ⟨c1, c2, c3, c4, -⟩ := sioRising_clock s (siLevel s (clockRise n - d - 1))
  rw [← hr'] at c1 c2 c3 c4
  have ph (j : Nat) : (s.serial.divider.toNat + (j + 1)) % n = (d + (j + 1)) % n := by
    rw [hd, Nat.mod_add_mod]
  have hrn : sioPeriod r.serial.siock = n := by rw [c2, hn]
  have phr (j : Nat) : (r.serial.divider.toNat + (j + 1)) % n = (d + (j + 1)) % n := by rw [c4, ph]
  induction k with
  | zero => simp [clocks, hr]
  | succ k ih =>
    rw [clocks_succ, ih (by omega)]
    by_cases h1 : d + k < clockRise n
    · rw [if_pos h1]
      by_cases h2 : d + (k + 1) < clockRise n
      · rw [if_pos h2]
        exact clockEdge_same _ (internalLevel_before (p := d + (k + 1)) hts
          (by rw [hn, ph, Nat.mod_eq_of_lt (by omega)]) (by omega) (by rw [hn]; exact h2))
      · rw [if_neg h2, if_pos (Or.inl (by omega)), hr', show clockRise n - d - 1 = k by omega]
        exact clockEdge_rises _ (internalLevel_after (p := d + (k + 1)) (by rw [hn, ph, Nat.mod_eq_of_lt (by omega)])
          (by omega) (by rw [hn]; omega)) hs ha
    · rw [if_neg h1, if_neg (show ¬d + (k + 1) < clockRise n by omega)]
      cases ht : r.serial.siots
      · rw [if_pos (Or.inr rfl), if_pos (Or.inr rfl)]
        exact clockEdge_same _ (by rw [c1]; simp [internalLevel, ht])
      · by_cases h2 : d + (k + 1) < n
        · rw [if_pos (Or.inl (by omega)), if_pos (Or.inl h2)]
          exact clockEdge_same _ ((internalLevel_after (p := d + (k + 1))
            (by rw [hrn, phr, Nat.mod_eq_of_lt h2]) (by omega) (by rw [hrn]; omega)).trans c1.symm)
        · rw [if_neg (show ¬(d + (k + 1) < n ∨ true = false) by simp; omega)]
          by_cases h3 : d + k < n
          · rw [if_pos (Or.inl h3)]
            exact clockEdge_falls _ (internalLevel_wrap ht (by rw [hrn, phr, show d + (k + 1) = n by omega, Nat.mod_self]))
              c1 (by simp [sioActive, c3, he, ht])
          · rw [if_neg (show ¬(d + k < n ∨ true = false) by simp; omega)]
            have hp := phase_wrapped (k := k) hdn (by omega) hn16 (by omega)
            exact clockEdge_same _ (internalLevel_before (p := d + (k + 1) - n) ht
              (by show (r.serial.divider.toNat + (k + 1)) % sioPeriod r.serial.siock = _; rw [hrn, phr, hp]) (by omega)
              (by show _ < clockRise (sioPeriod r.serial.siock); rw [hrn]; omega))

/-- POD0 with an internal serial clock. -/
theorem pod0Drive_clock {s : State} (k : Fin 16) (he : s.serial.sioen = true) (hc : s.serial.siock ≠ 0) :
    pod0Drive s k = if clockOutput s k then .released else .low := by
  unfold pod0Drive
  rw [if_pos he, if_neg hc]
  cases clockOutput s k <;> rfl

/-! ### Waits and resets -/

/-- A count of the wait after a STOP release that does not end it. -/
theorem waitCount_next {s : State} (h : s.timer.tmc ≠ s.timer.tmm) :
    waitCount s = { s with timer := { s.timer with tmc := s.timer.tmc + 1 } } := by
  unfold waitCount
  rw [if_neg h]

/-- The count that ends it. -/
theorem waitCount_last {s : State} (h : s.timer.tmc = s.timer.tmm) : waitCount s = endStopWait s := by
  unfold waitCount
  rw [if_pos h]

/-- A reset holds in the cycle after one in which it was applied, and only there. -/
theorem resetHolds_iff (kind : ResetKind) (m : Mode) : resetHolds kind m = true ↔ m = .resetWait kind resetWaitCycles := by
  simp [resetHolds]

/-- A reset that was not applied in the cycle before applies its column. -/
theorem takeReset_apply {s : State} {kind : ResetKind} (h : s.mode ≠ .resetWait kind resetWaitCycles) :
    takeReset kind s = applyReset kind s :=
  if_neg fun h0 => h ((resetHolds_iff _ _).mp h0)

/-- One that was holds on. -/
theorem takeReset_hold {s : State} {kind : ResetKind} (h : s.mode = .resetWait kind resetWaitCycles) :
    takeReset kind s = { s with interrupts := { s.interrupts with intPrev := s.env.int } } :=
  if_pos ((resetHolds_iff _ _).mpr h)

/-- Supply below the detect level resets while PDRESEN = 1 or while the reset it caused lasts, and else not. -/
theorem resetRequest_supplyLow {s : State} (h : s.env.reset = .supplyLow) :
    resetRequest s = if s.pdresen || resetHolds .powerDown s.mode then some .powerDown else none := by
  unfold resetRequest
  rw [h]

/-! ### Timer -/

/-- The prescaler some system clocks later, all else as it is. -/
def prescLater (s : State) (x : BitVec 11) : State :=
  { s with timer := { s.timer with presc := s.timer.presc + x } }

@[simp] theorem prescLater_tmen (s : State) (x : BitVec 11) : (prescLater s x).timer.tmen = s.timer.tmen := rfl

@[simp] theorem prescLater_tmck (s : State) (x : BitVec 11) : (prescLater s x).timer.tmck = s.timer.tmck := rfl

@[simp] theorem prescLater_presc (s : State) (x : BitVec 11) :
    (prescLater s x).timer.presc = s.timer.presc + x := rfl

@[simp] theorem prescLater_add (s : State) (x y : BitVec 11) :
    prescLater (prescLater s x) y = prescLater s (x + y) := by
  unfold prescLater
  dsimp only
  rw [BitVec.add_assoc]

@[simp] theorem timerCount_tmen (s : State) : (timerCount s).timer.tmen = s.timer.tmen := by
  unfold timerCount
  split <;> rfl

@[simp] theorem timerCount_tmck (s : State) : (timerCount s).timer.tmck = s.timer.tmck := by
  unfold timerCount
  split <;> rfl

@[simp] theorem timerCount_presc (s : State) : (timerCount s).timer.presc = s.timer.presc := by
  unfold timerCount
  split <;> rfl

/-- A count and the prescaler's progress do not touch each other. -/
theorem prescLater_timerCount (s : State) (x : BitVec 11) :
    prescLater (timerCount s) x = timerCount (prescLater s x) := by
  unfold prescLater timerCount
  dsimp only
  split <;> rfl

theorem pulsePeriod_eq {x : BitVec 2} {n : Nat} (h : pulsePeriod x = some n) : n = 32 ∨ n = 256 ∨ n = 2048 := by
  unfold pulsePeriod at h
  split at h <;> simp at h <;> omega

/-- A system clock with an internal count pulse selected. -/
theorem timerClock_internal {s : State} {n : Nat} (h : pulsePeriod s.timer.tmck = some n) :
    timerClock s =
      if s.timer.tmen && (s.timer.presc + 1).toNat % n == 0 then timerCount (prescLater s 1)
      else prescLater s 1 := by
  unfold timerClock
  dsimp only
  split
  · next m hm =>
    rw [h] at hm
    cases hm
    rfl
  · next hm =>
    rw [h] at hm
    cases hm

/-- A system clock with the INT pin selected: only the prescaler runs. -/
theorem timerClock_external {s : State} (h : pulsePeriod s.timer.tmck = none) : timerClock s = prescLater s 1 := by
  unfold timerClock
  dsimp only
  split
  · next m hm =>
    rw [h] at hm
    cases hm
  · rfl

/-- An instruction cycle of the timer, over the same terms. -/
theorem timerCycle_eq (s : State) :
    timerCycle s =
      if s.timer.tmen && pulseFalls s then timerCount (prescLater s 16) else prescLater s 16 := rfl

/-- The count pulse's level does not depend on the timer's count. -/
theorem pulseLow_congr {s t : State} (h1 : t.timer.tmck = s.timer.tmck) (h2 : t.timer.presc = s.timer.presc)
    (h3 : t.env = s.env) : pulseLow t = pulseLow s := by
  unfold pulseLow
  rw [h1, h2, h3]

/-- The internal count pulses (R333). -/
theorem pulsePeriod_internal {x : BitVec 2} (h : x ≠ 3) :
    pulsePeriod x = some (if x = 0 then 256 else if x = 1 then 32 else 2048) := by
  revert x
  decide

/-- The mark for TMM = 00H and a count do not touch each other. -/
theorem markIrregular_timerCount (s : State) : markIrregular (timerCount s) = timerCount (markIrregular s) := by
  unfold markIrregular timerCount
  dsimp only
  split <;> rfl

/-- The timer mode register's bits, in one expression. -/
theorem timerModeBits_eq (s : State) (v : Nibble) :
    timerModeBits s v = { s with
      timer := { s.timer with
        tmen := v.getLsbD 3
        tmck := v.extractLsb' 0 2
        tmc := if v.getLsbD 2 then 0 else s.timer.tmc
        tmoutFf := v.getLsbD 2 || s.timer.tmoutFf
        irregular := s.timer.irregular && (!v.getLsbD 2 || s.timer.tmm == 0) }
      interrupts := { s.interrupts with irqtm := s.interrupts.irqtm && !v.getLsbD 2 } } := by
  unfold timerModeBits timerReset
  cases v.getLsbD 2 <;> simp

/-! ### Serial interface -/

/-- SIOSFR after a rising edge, bit by bit. -/
theorem shifted_bit (x : BitVec 8) (b : Bool) {i : Nat} (hi : i < 8) :
    (x.extractLsb' 0 7 ++ BitVec.ofBool b).getLsbD i = if i = 0 then b else x.getLsbD (i - 1) := by
  rw [BitVec.getLsbD_append]
  rcases i with _ | i
  · simp
  · have : i < 7 := by omega
    simp [this]

/-- One bit of a transfer that is not the last: out at the falling edge, in at the rising edge. -/
theorem sioBit_next {s : State} (b : Bool) (h : s.serial.cnt + 1 ≠ 8) :
    sioRising (sioFalling s) b = { s with
      ports := { s.ports with podL := withBit1 s.ports.podL (s.serial.sfr.getLsbD 7), soUsed := true }
      serial := { s.serial with
        sck := true, sfr := s.serial.sfr.extractLsb' 0 7 ++ BitVec.ofBool b, cnt := s.serial.cnt + 1 } } := by
  unfold sioRising sioFalling
  dsimp only
  rw [if_neg h]

/-- The eighth bit of a transfer. -/
theorem sioBit_last {s : State} (b : Bool) (h : s.serial.cnt + 1 = 8) :
    sioRising (sioFalling s) b = { s with
      ports := { s.ports with podL := withBit1 s.ports.podL (s.serial.sfr.getLsbD 7), soUsed := true }
      serial := { s.serial with
        sck := true, sfr := s.serial.sfr.extractLsb' 0 7 ++ BitVec.ofBool b, cnt := 0, siots := false }
      interrupts := { s.interrupts with irqsio := true } } := by
  unfold sioRising sioFalling
  dsimp only
  rw [if_pos h]

end Sys2Proof.Machine
end

