-- ==== Sys2Proof/Tests/Slice0.lean ====
section
/-! SUPPORT. Tests: ill-formed terms are refused, a word written out from the encoding tables decodes to every
instruction, one step of each instruction against 95_test_vectors.md, and for every statement with hypotheses a state that
meets them. -/

open Sys2Proof Sys2Proof.Machine

/-! ### WellFormed and Decode (30_encoding.md R142 to R147) -/

theorem test_wellFormed_br : (Instr.br 0x400).wellFormed = false ∧ (Instr.br 0x3FF).wellFormed = true := by decide

theorem test_wellFormed_call : (Instr.call 0x400).wellFormed = false ∧ (Instr.call 0x3FF).wellFormed = true := by
  decide

theorem test_decode_addRM : decode 0b00000_0101111_0011 = .ok (.addRM 3 0x2F) := rfl

theorem test_decode_addMI : decode 0b10000_0101111_0101 = .ok (.addMI 0x2F 5) := rfl

theorem test_decode_addcRM : decode 0b00010_0001110_1101 = .ok (.addcRM 0xD 0x0E) := rfl

theorem test_decode_addcMI : decode 0b10010_0001101_0000 = .ok (.addcMI 0x0D 0) := rfl

theorem test_decode_incAR : decode 0b00111_000_1001_0000 = .ok .incAR := rfl

theorem test_decode_incIX : decode 0b00111_000_1000_0000 = .ok .incIX := rfl

theorem test_decode_subRM : decode 0b00001_0101111_0011 = .ok (.subRM 3 0x2F) := rfl

theorem test_decode_subMI : decode 0b10001_0101111_0101 = .ok (.subMI 0x2F 5) := rfl

theorem test_decode_subcRM : decode 0b00011_0101111_1111 = .ok (.subcRM 0xF 0x2F) := rfl

theorem test_decode_subcMI : decode 0b10011_0001110_0001 = .ok (.subcMI 0x0E 1) := rfl

theorem test_decode_orRM : decode 0b00110_0101111_0011 = .ok (.orRM 3 0x2F) := rfl

theorem test_decode_orMI : decode 0b10110_0000011_1000 = .ok (.orMI 0x03 8) := rfl

theorem test_decode_andRM : decode 0b00100_0101111_0011 = .ok (.andRM 3 0x2F) := rfl

theorem test_decode_andMI : decode 0b10100_1111111_1001 = .ok (.andMI 0x7F 9) := rfl

theorem test_decode_xorRM : decode 0b00101_0000011_0011 = .ok (.xorRM 3 0x03) := rfl

theorem test_decode_xorMI : decode 0b10101_0000011_1010 = .ok (.xorMI 0x03 10) := rfl

theorem test_decode_skt : decode 0b11110_1111111_0010 = .ok (.skt 0x7F 2) := rfl

theorem test_decode_skf : decode 0b11111_0010011_0100 = .ok (.skf 0x13 4) := rfl

theorem test_decode_ske : decode 0b01001_0100100_0000 = .ok (.ske 0x24 0) := rfl

theorem test_decode_skne : decode 0b01011_0011111_0001 = .ok (.skne 0x1F 1) := rfl

theorem test_decode_skge : decode 0b11001_0011111_0001 = .ok (.skge 0x1F 1) := rfl

theorem test_decode_sklt : decode 0b11011_0010000_0110 = .ok (.sklt 0x10 6) := rfl

theorem test_decode_rorc : decode 0b00111_000_0111_1101 = .ok (.rorc 0xD) := rfl

theorem test_decode_ld : decode 0b01000_0101111_0011 = .ok (.ld 3 0x2F) := rfl

theorem test_decode_st : decode 0b11000_1110111_0000 = .ok (.st 0x77 0) := rfl

theorem test_decode_movToInd : decode 0b01010_0110100_0101 = .ok (.movToInd 5 0x34) := rfl

theorem test_decode_movFromInd : decode 0b11010_0110100_1011 = .ok (.movFromInd 0x34 0xB) := rfl

theorem test_decode_movMI : decode 0b11101_1010000_1010 = .ok (.movMI 0x50 0xA) := rfl

theorem test_decode_movt : decode 0b00111_000_0001_0000 = .ok .movt := rfl

theorem test_decode_pushAR : decode 0b00111_000_1101_0000 = .ok .pushAR := rfl

theorem test_decode_popAR : decode 0b00111_000_1100_0000 = .ok .popAR := rfl

theorem test_decode_peek : decode 0b00111_011_0011_1110 = .ok (.peek 0x3E) := rfl

theorem test_decode_poke : decode 0b00111_101_0010_1010 = .ok (.poke 0x5A) := rfl

theorem test_decode_get : decode 0b00111_100_1011_0000 = .ok (.get 0x40) := rfl

theorem test_decode_put : decode 0b00111_000_1010_0011 = .ok (.put 0x03) := rfl

theorem test_decode_br : decode 0b01100_01111111111 = .ok (.br 0x3FF) := rfl

theorem test_decode_brAR : decode 0b00111_000_0100_0000 = .ok .brAR := rfl

theorem test_decode_call : decode 0b11100_00000100000 = .ok (.call 0x20) := rfl

theorem test_decode_callAR : decode 0b00111_000_0101_0000 = .ok .callAR := rfl

theorem test_decode_ret : decode 0b00111_000_1110_0000 = .ok .ret := rfl

theorem test_decode_retsk : decode 0b00111_001_1110_0000 = .ok .retsk := rfl

theorem test_decode_reti : decode 0b00111_100_1110_0000 = .ok .reti := rfl

theorem test_decode_ei : decode 0b00111_000_1111_0000 = .ok .ei := rfl

theorem test_decode_di : decode 0b00111_001_1111_0000 = .ok .di := rfl

theorem test_decode_stop : decode 0b00111_010_1111_1000 = .ok (.stop 8) := rfl

theorem test_decode_halt : decode 0b00111_011_1111_0010 = .ok (.halt 2) := rfl

theorem test_decode_nop : decode 0b00111_100_1111_0000 = .ok .nop := rfl

/-- R146, one word for each item. -/
theorem test_decode_unassigned :
    decode 0b01101_00000000000 = .error (.unassignedOp 0b01101) ∧
    decode 0b00111_000_0110_0000 = .error (.unassignedSub 0b0110) ∧
    decode 0b00111_010_1110_0000 = .error (.unassignedG3 0b1110 0b010) ∧
    decode 0b00111_100_1111_0001 = .error (.operandNotZero 0b1111 0b100 0b0001) ∧
    decode 0b01100_10000000000 = .error (.addressBit10 0b01100 0x400) := ⟨rfl, rfl, rfl, rfl, rfl⟩

theorem test_decodeTableWord : decodeTableWord 16 0x02F3 = some (.addRM 3 0x2F) ∧ decodeTableWord 16 0x6800 = none :=
  ⟨rfl, rfl⟩

/-! ### One step (95_test_vectors.md; the vector's name stands in the comment) -/

/-- The step that runs word `w` from `s` goes to a state with this property. -/
def runs (w : Nat) (s : State) (p : State → Bool) : Bool :=
  match step (s.withFetchWord 16 w) with
  | .next t => p t
  | .fault _ => false
  | .refused _ => false

/-- The reset state with these nibbles of data memory and this PSW. -/
def given (ram : Cells 4) (psw : Nibble) : State := dmWrite { State.reset with ram := ram } 0x7F psw

/-- A nibble of data memory. -/
def nib (s : State) (a : DmAddr) : Nibble := dmRead s .first a

/-- A2. -/
theorem test_step_addRM_wraps :
    runs 0x02F3 (given [(3, 9), (0x2F, 7)] 0b0100) (fun t => nib t 3 == 0 && nib t 0x7F == 0b0110) = true := by decide

/-- A21. -/
theorem test_step_addRM_compare :
    runs 0x02F3 (given [(3, 7), (0x2F, 8)] 0b1010) (fun t => nib t 3 == 7 && nib t 0x7F == 0b1000) = true := by decide

/-- B4. -/
theorem test_step_addMI_psw : runs 0x87F3 (given [] 0b0110) (fun t => nib t 0x7F == 0b1001) = true := by decide

/-- A18. -/
theorem test_step_addMI_bcd :
    runs 0x82F3 { given [(0x2F, 0xC)] 0 with psw := { Psword.clear with bcd := true } }
      (fun t => nib t 0x2F == 5 && nib t 0x7F == 0b0100) = true := by decide

/-- A6. -/
theorem test_step_addcRM_carry :
    runs 0x12F3 (given [(3, 7), (0x2F, 8)] 0b0100) (fun t => nib t 3 == 0 && nib t 0x7F == 0b0110) = true := by decide

/-- A9. -/
theorem test_step_addcMI_no_carry :
    runs 0x92F0 (given [(0x2F, 0xF)] 0) (fun t => nib t 0x2F == 0xF && nib t 0x7F == 0) = true := by decide

/-- B12. -/
theorem test_step_incAR_wraps :
    runs 0x3890 { State.reset with ar := 0x3FF } (fun t => t.ar == 0 && nib t 0x7F == 0) = true := by decide

/-- B10. -/
theorem test_step_incIX_keeps_mpe :
    runs 0x3880 { given [] 0b0110 with ix := 0x7F, mpe := true }
      (fun t => t.ix == 0 && t.mpe && nib t 0x7F == 0b0110) = true := by decide

/-- A24. -/
theorem test_step_subRM_borrow :
    runs 0x0AF3 (given [(3, 4), (0x2F, 9)] 0) (fun t => nib t 3 == 0xB && nib t 0x7F == 0b0100) = true := by decide

/-- A37. -/
theorem test_step_subMI_bcd_shaded :
    runs 0x8AF0 { given [(0x2F, 0xF)] 0 with psw := { Psword.clear with bcd := true } }
      (fun t => nib t 0x2F == 0xD && nib t 0x7F == 0b0100) = true := by decide

/-- A35. -/
theorem test_step_subcRM_bcd :
    runs 0x1AF3 { given [(0x2F, 9)] 0 with psw := { Psword.clear with bcd := true, cy := true } }
      (fun t => nib t 3 == 0 && nib t 0x7F == 0b0110) = true := by decide

/-- A30. -/
theorem test_step_subcMI_minus_16 :
    runs 0x9AFF (given [] 0b0100) (fun t => nib t 0x2F == 0 && nib t 0x7F == 0b0110) = true := by decide

/-- L1. -/
theorem test_step_orRM :
    runs 0x32F3 (given [(3, 0b1010), (0x2F, 0b0111)] 0b1110)
      (fun t => nib t 3 == 0b1111 && nib t 0x7F == 0b1110) = true := by decide

/-- L11. -/
theorem test_step_orMI_indexed :
    runs 0xB201 { given [(0x35, 8)] 0b0001 with ix := 0x15 }
      (fun t => nib t 0x35 == 9 && nib t 0x20 == 0) = true := by decide

/-- L3. -/
theorem test_step_andRM :
    runs 0x22F3 (given [(3, 0b1010), (0x2F, 0b0110)] 0b1110)
      (fun t => nib t 3 == 0b0010 && nib t 0x7F == 0b1110) = true := by decide

/-- L9. -/
theorem test_step_andMI_psw :
    runs 0xA7F9 { given [] 0b1110 with ix := 0x00 } (fun t => nib t 0x7F == 0b1000) = true := by decide

/-- L7. -/
theorem test_step_xorRM_self :
    runs 0x2833 (given [(3, 0b1010)] 0b1100) (fun t => nib t 3 == 0 && nib t 0x7F == 0b1100) = true := by decide

/-- L6. -/
theorem test_step_xorMI : runs 0xAAF6 (given [(0x2F, 0b1010)] 0) (fun t => nib t 0x2F == 0b1100) = true := by decide

/-- T7. -/
theorem test_step_skt_psw : runs 0xF7F8 (given [] 0b1110) (fun t => t.skip && nib t 0x7F == 0b0110) = true := by decide

/-- T5. -/
theorem test_step_skf_no_skip :
    runs 0xF90E (given [(0x10, 0b1001)] 0b1110) (fun t => !t.skip && nib t 0x7F == 0b0110) = true := by decide

/-- 2.5. -/
theorem test_step_ske :
    runs 0x4908 (given [(0x10, 8)] 0b1100) (fun t => t.skip && nib t 0x7F == 0b1100) = true := by decide

/-- 2.5. -/
theorem test_step_skne : runs 0x5908 (given [(0x10, 8)] 0b1100) (fun t => !t.skip) = true := by decide

/-- 2.5. -/
theorem test_step_skge_equal : runs 0xC908 (given [(0x10, 8)] 0b1100) (fun t => t.skip) = true := by decide

/-- 2.5. -/
theorem test_step_sklt_unsigned : runs 0xD90F (given [] 0b1100) (fun t => t.skip) = true := by decide

/-- R7. -/
theorem test_step_rorc_psw :
    runs 0x387F { given [] 0b1010 with rp := 7 } (fun t => nib t 0x7F == 0b0101) = true := by decide

/-- R6. -/
theorem test_step_rorc :
    runs 0x3875 { given [(0x05, 3), (0x25, 0b0110)] 0b0100 with rp := 2 }
      (fun t => nib t 0x25 == 0b1011 && nib t 0x7F == 0 && nib t 5 == 3) = true := by decide

/-- M2. -/
theorem test_step_ld_register_row :
    runs 0x42F3 { given [(0x13, 5)] 0b0001 with rp := 1, ix := 0x40 }
      (fun t => nib t 0x13 == 0 && nib t 3 == 0) = true := by decide

/-- M4. -/
theorem test_step_st_ar0 :
    runs 0xC770 { given [(0x10, 0xB)] 0 with rp := 1 } (fun t => t.ar == 0x00B) = true := by decide

/-- M10. -/
theorem test_step_movToInd_indexed :
    runs 0x5200 { given [(0, 0xF), (0x20, 5), (0x21, 6)] 0b0001 with ix := 0x01 }
      (fun t => nib t 0x2F == 6 && nib t 0x3F == 0) = true := by decide

/-- M14. -/
theorem test_step_movFromInd_pointer :
    runs 0xD200 { given [(0, 0xF), (0x2F, 3), (0x3F, 4)] 0 with mpe := true, ix := 0x30 }
      (fun t => nib t 0x20 == 4) = true := by decide

/-- M7. -/
theorem test_step_movMI_indexed :
    runs 0xE807 { given [(0, 1)] 0b0001 with ix := 0x32 } (fun t => nib t 0x32 == 7 && nib t 0 == 1) = true := by decide

/-- B8. -/
theorem test_step_movMI_fixed_bits :
    runs 0xEF5F State.reset (fun t => nib t 0x75 == 3 && t.ar == 0x300) = true := by decide

/-- F25. -/
theorem test_step_movt_own_word :
    runs 0x3810 State.reset
      (fun t => dbf t == 0x3810 && t.pc == 1 && t.sp == 5 && t.asr.a4 == 1 && t.cycle == 2) = true := by decide

/-- S-PUSH. -/
theorem test_step_pushAR :
    runs 0x38D0 { State.reset with ar := 0x03F }
      (fun t => t.sp == 4 && t.asr.a4 == 0x03F && t.pc == 1) = true := by decide

/-- R264. -/
theorem test_step_popAR :
    runs 0x38C0 { State.reset with sp := 4, asr := { State.reset.asr with a4 := 0x123 } }
      (fun t => t.ar == 0x123 && t.sp == 5) = true := by decide

/-- F4. -/
theorem test_step_peek_irqtm : runs 0x3B3E State.reset (fun t => t.wr == 0b0001) = true := by decide

/-- F12. -/
theorem test_step_poke_timer_reset :
    runs 0x3921 { State.reset with wr := 0b1100, timer := { State.reset.timer with tmc := 0x55 } }
      (fun t => t.timer.tmc == 0 && !t.interrupts.irqtm && t.timer.tmen && rfRead t 0x11 == 0b1000) = true := by decide

/-- F10. -/
theorem test_step_poke_sp_fixed_bit :
    runs 0x3821 { State.reset with wr := 0xB } (fun t => t.sp == 3) = true := by decide

/-- F18. -/
theorem test_step_get_tmc :
    runs 0x38B2 { given [(0xC, 3), (0xD, 9), (0xF, 0xF)] 0 with timer := { State.reset.timer with tmc := 0xF0 } }
      (fun t => dbf t == 0x39F0) = true := by decide

/-- F13. -/
theorem test_step_put_ar :
    runs 0x3CA0 (given [(0xC, 1), (0xD, 0xF), (0xE, 0xA), (0xF, 5)] 0) (fun t => t.ar == 0x3A5) = true := by decide

/-- S-BR. -/
theorem test_step_br : runs 0x600F State.reset (fun t => t.pc == 0x00F) = true := by decide

/-- S-BR. -/
theorem test_step_brAR : runs 0x3840 { State.reset with ar := 0x03F } (fun t => t.pc == 0x03F) = true := by decide

/-- R272. -/
theorem test_step_call :
    runs 0xE020 State.reset (fun t => t.pc == 0x020 && t.sp == 4 && t.asr.a4 == 1) = true := by decide

/-- S-CALLAR. -/
theorem test_step_callAR :
    runs 0x3850 { State.reset with ar := 0x020 } (fun t => t.pc == 0x020 && t.sp == 4) = true := by decide

/-- R274. -/
theorem test_step_ret :
    runs 0x38E0 { State.reset with sp := 4, asr := { State.reset.asr with a4 := 0x155 } }
      (fun t => t.pc == 0x155 && t.sp == 5 && !t.skip) = true := by decide

/-- R275. -/
theorem test_step_retsk :
    runs 0x39E0 { State.reset with sp := 4, asr := { State.reset.asr with a4 := 0x155 } }
      (fun t => t.pc == 0x155 && t.skip) = true := by decide

/-- R276. -/
theorem test_step_reti :
    runs 0x3CE0 { State.reset with sp := 4, asr := { State.reset.asr with a4 := 0x155 }, intsk := flagsOf 0b10101 }
      (fun t => t.pc == 0x155 && t.psw == flagsOf 0b10101 && !t.inte) = true := by decide

/-- R285. -/
theorem test_step_ei : runs 0x38F0 State.reset (fun t => t.inte && t.eiHold) = true := by decide

/-- R286. -/
theorem test_step_di : runs 0x39F0 { State.reset with inte := true } (fun t => !t.inte) = true := by decide

/-- R287. -/
theorem test_step_stop :
    runs 0x3AF8 State.reset (fun t => t.mode == .stop 8 && !t.interrupts.irqtm && t.timer.tmc == 0) = true := by decide

/-- R436. -/
theorem test_step_stop_initialises :
    runs 0x3AF0 { State.reset with pdresen := true }
      (fun t => t.mode == .stop 0 && !t.pdresen && t.sp == 5) = true := by decide

/-- H1. -/
theorem test_step_halt_releases_at_once : runs 0x3BF2 State.reset (fun t => t.mode == .run) = true := by decide

/-- R288. -/
theorem test_step_halt : runs 0x3BF8 State.reset (fun t => t.mode == .halt 8) = true := by decide

/-- R289. -/
theorem test_step_nop :
    runs 0x3CF0 State.reset
      (fun t => t.pc == 1 && t.sp == 5 && t.psw == .clear && t.ram == [] && t.cycle == 1 &&
        t.mode == .run) = true := by decide
/-! ### States that meet the hypotheses of the statements, clause by clause -/

/-- The reset state with one word placed at 000H. -/
def placed (w : Nat) : State := State.reset.withFetchWord 16 w

theorem witness_DecodeInvertsEncode : (Instr.br 0x3FF).wellFormed = true ∧ Instr.nop.wellFormed = true := by decide

theorem witness_EncodeInvertsDecode : decode 0x63FF = .ok (.br 0x3FF) ∧ decode 0x3CF0 = .ok .nop := ⟨rfl, rfl⟩

/-- An instruction that completes, a `MOVT` that completes and takes two cycles, one that a full stack turns into a reset,
one that stops. -/
theorem witness_StepRunsDecodedInstruction :
    (∀ w ∈ [0x3CF0, 0x3810, 0x3BF1],
      (placed w).mode = .run ∧ resetRequest (placed w) = none ∧ acceptable (placed w) = none ∧ (placed w).skip = false) ∧
    decode (romRead (placed 0x3CF0) (placed 0x3CF0).pc) = .ok .nop ∧
    decode (romRead (placed 0x3810) (placed 0x3810).pc) = .ok .movt ∧
    decode (romRead (placed 0x3BF1) (placed 0x3BF1).pc) = .ok (.halt 1) ∧
    (push (placed 0x3810) (placed 0x3810).pc).isSome = true ∧
    (push { placed 0x3810 with sp := 0 } (placed 0x3810).pc).isSome = false ∧
    exec (.halt 1) (placed 0x3BF1) = .fault (.haltOperandFixedBit 1) := by
  refine ⟨by decide, rfl, rfl, rfl, rfl, rfl, rfl⟩

/-- For its cycle: with and without a record of inputs, in each of the three modes, with an INT edge that counts, with a
regular timer. -/
theorem witness_StepRunsDecodedInstruction_cycle :
    State.reset.pending = [] ∧ ({ State.reset with pending := [Inputs.quiet] } : State).pending = Inputs.quiet :: [] ∧
    State.reset.mode = .run ∧ (∃ h, ({ State.reset with mode := .halt 8 } : State).mode = .halt h) ∧
    (∃ v, ({ State.reset with mode := .stop 8 } : State).mode = .stop v) ∧
    ∃ s w : State, s.mode = .run ∧ w = comparatorCycle (sioCycle (timerCycle (nextInputs s))) ∧ w.timer.tmck = 3 ∧
      w.timer.tmen = true ∧ w.interrupts.intPrev = true ∧ w.env.int = false ∧ w.timer.irregular = false :=
  ⟨rfl, rfl, rfl, ⟨8, rfl⟩, ⟨8, rfl⟩,
    { State.reset with
      timer := { State.reset.timer with tmck := 3 }, interrupts := { State.reset.interrupts with intPrev := true } },
    _, rfl, rfl, rfl, rfl, rfl, rfl, rfl⟩

theorem witness_SkippedWordIsNop :
    ∃ s : State, s.mode = .run ∧ resetRequest s = none ∧ s.skip = true ∧ s.inte = true ∧ s.interrupts.irq = true :=
  ⟨{ State.reset with skip := true, inte := true, interrupts := { State.reset.interrupts with irq := true, ip := true } },
    rfl, rfl, rfl, rfl, rfl⟩

theorem witness_UnassignedWords :
    (placed 0x3861).mode = .run ∧ resetRequest (placed 0x3861) = none ∧ acceptable (placed 0x3861) = none ∧
      (placed 0x3861).skip = false ∧
      decode (romRead (placed 0x3861) (placed 0x3861).pc) = .error (.unassignedSub 0b0110) :=
  ⟨rfl, rfl, rfl, rfl, rfl⟩

theorem witness_ProhibitedIndexSettingStops :
    ∃ s : State, s.psw.ixe = true ∧ s.mpe = true :=
  ⟨{ State.reset with mpe := true, psw := { Psword.clear with ixe := true } }, rfl, rfl⟩

/-- The three settings in which an operand `m` has an address, and its value there. -/
theorem witness_eaM :
    eaM State.reset 0x6F = .ok 0x6F ∧
    eaM { State.reset with ix := 0x12, psw := { Psword.clear with ixe := true } } 0x61 = .ok 0x73 ∧
    eaM { State.reset with ix := 0x12, mpe := true } 0x61 = .ok 0x61 := ⟨rfl, rfl, rfl⟩

theorem witness_AdditionResults : eaM State.reset 0x7F = .ok 0x7F ∧ State.reset.psw.cmp = false ∧
    (given [] 0b1000).psw.cmp = true ∧ eaM (given [] 0b1000) 0x2F = .ok 0x2F := ⟨rfl, rfl, rfl, rfl⟩

theorem witness_SubtractionResults : eaM State.reset 0x2F = .ok 0x2F := rfl

theorem witness_LogicResults : eaM State.reset 0x00 = .ok 0x00 := rfl

theorem witness_BitTestResults : eaM State.reset 0x7F = .ok 0x7F := rfl

theorem witness_CompareResults : eaM State.reset 0x10 = .ok 0x10 := rfl

theorem witness_LoadStoreResults : eaM State.reset 0x6F = .ok 0x6F := rfl

theorem witness_IndirectMoveResults :
    eaM State.reset 0x34 = .ok 0x34 ∧ eaInd (given [(5, 8)] 0) 0x34 5 = .ok 0x38 ∧
    eaInd { given [(5, 8)] 0 with mpe := true, ix := 0x60 } 0x34 5 = .ok 0x68 := by decide

/-- The clauses of the decimal arithmetic at their bounds: sums 19 and 20, differences 9, 10, -10 and -11. -/
theorem witness_DecimalArithmetic :
    aluAdd true 9 9 true = { res := 9, cy := true } ∧ aluAdd true 10 10 false = { res := 14, cy := true } ∧
    aluSub true 9 0 false = { res := 9, cy := false } ∧ aluSub true 10 0 false = { res := 12, cy := true } ∧
    aluSub true 0 9 true = { res := 0, cy := true } ∧ aluSub true 0 10 true = { res := 15, cy := true } := by decide

/-- The clauses at their bounds: 3FH, 40H and 6EH on a part with and one without memory there, 74H. -/
theorem witness_PeekResults :
    hasCmp State.reset.part = true ∧ (0x40 : DmAddr).toNat = 0x40 ∧ (0x3F : DmAddr).toNat < 0x40 ∧
    (0x6E : DmAddr).toNat < 0x6F ∧ State.reset.part ≠ .u17120 ∧ State.reset.part ≠ .u17121 ∧
    ({ State.reset with part := .u17121 } : State).part = .u17121 ∧ 0x74 ≤ (0x74 : DmAddr).toNat := by decide

/-- R44: the index register, the register pointer and the flags where the map has them. -/
theorem test_system_register_map :
    dmRead { State.reset with ix := 0x53, mpe := true, rp := 5 } .first 0x7A = 8 ∧
    dmRead { State.reset with ix := 0x53, rp := 5 } .first 0x7B = 5 ∧
    dmRead { State.reset with ix := 0x53, rp := 5 } .first 0x7C = 3 ∧
    dmRead { State.reset with ix := 0x53, rp := 5 } .first 0x7E = 0b1010 ∧
    dmRead { State.reset with psw := { Psword.clear with cy := true } } .first 0x7F = 0b0100 := by decide

theorem witness_PokePlainRegisters :
    hasCmp State.reset.part = true ∧ hasCmp ({ State.reset with part := .u17120 } : State).part = false ∧
    (0x02 : DmAddr).toNat < 0x40 ∧ 0x40 ≤ (0x40 : DmAddr).toNat := by decide

/-- A stopped, irregular timer before a `POKE` of its mode register. -/
def timerStopped (wr : Nibble) (presc : BitVec 11) : State :=
  { State.reset with wr := wr, timer := { State.reset.timer with tmen := false, presc := presc, irregular := true } }

/-- A start that counts: fx/256 in the last clock of its low half; one that does not, in the first clock of the high half; a
low INT pin; a write with TMRES while the timer is irregular. -/
theorem witness_PokeTimerMode :
    (timerStopped 8 127).timer.tmen = false ∧ (timerStopped 8 127).wr.getLsbD 3 = true ∧
    (timerStopped 8 127).wr.getLsbD 2 = false ∧ (timerStopped 8 127).wr.extractLsb' 0 2 = 0 ∧
    (timerStopped 8 127).timer.presc.toNat % 256 < 256 / 2 ∧ ¬(timerStopped 8 128).timer.presc.toNat % 256 < 256 / 2 ∧
    (timerStopped 11 0).wr.extractLsb' 0 2 = 3 ∧ (timerStopped 11 0).env.int = false ∧
    (timerStopped 12 0).wr.getLsbD 2 = true ∧ (timerStopped 12 0).timer.irregular = true ∧
    (timerStopped 12 0).timer.tmm ≠ 0 := by decide

/-- R334, R336, U8: the start in the low half counts, that in the high half does not; TMRES makes the timer regular. -/
theorem test_timer_start :
    (writeTimerMode (timerStopped 8 127) 8).timer.tmc = 1 ∧ (writeTimerMode (timerStopped 8 128) 8).timer.tmc = 0 ∧
    (writeTimerMode (timerStopped 12 0) 12).timer.irregular = false := by decide

/-- A clock at which a pulse of fx/32 falls and one at which it does not, the INT pin as count pulse. -/
theorem witness_TimerCycleIsSixteenClocks :
    ∃ s : State, s.timer.tmck = 1 ∧ s.timer.tmck ≠ 3 ∧ s.timer.tmen = true ∧ (s.timer.presc.toNat + 1) % 32 = 0 ∧
      ({ s with timer := { s.timer with presc := 0, tmck := 3 } } : State).timer.tmck = 3 :=
  ⟨{ State.reset with timer := { State.reset.timer with tmck := 1, presc := 31 } }, rfl, by decide, rfl, rfl, rfl⟩

theorem witness_PokeComparator :
    hasCmp State.reset.part = true ∧ State.reset.comparator.cmpstrt = false ∧ State.reset.wr.getLsbD 1 = false ∧
    ∃ s : State, hasCmp s.part = true ∧ s.comparator.cmpstrt = true :=
  ⟨rfl, rfl, rfl, { State.reset with comparator := { State.reset.comparator with cmpstrt := true } }, rfl, rfl⟩

/-- The clauses at their bounds, 5 and 6. -/
theorem witness_PokeStackPointer :
    ((0b1101 : Nibble).extractLsb' 0 3).toNat = 5 ∧ ((0b1110 : Nibble).extractLsb' 0 3).toNat = 6 := by decide

theorem witness_GetResults : (0x05 : BitVec 7) ∉ [0x01, 0x02, 0x03, (0x40 : BitVec 7)] := by decide

theorem witness_PutResults :
    dbf (given [(0xC, 1), (0xD, 0xF), (0xE, 0xA), (0xF, 5)] 0) = 0x1FA5 ∧
    (0x02 : BitVec 7) ∉ [0x01, 0x03, (0x40 : BitVec 7)] := by decide

/-- The bounds of SP for a push and for a pop. -/
theorem witness_stack :
    State.reset.sp.toNat = 5 ∧ ({ State.reset with sp := 1 } : State).sp.toNat = 1 ∧
    ({ State.reset with sp := 0 } : State).sp.toNat = 0 ∧ ({ State.reset with sp := 4 } : State).sp.toNat = 4 :=
  ⟨rfl, rfl, rfl, rfl⟩

theorem witness_MovtResult : 1 ≤ State.reset.sp.toNat ∧ State.reset.sp.toNat ≤ 5 := by decide

theorem witness_PushPopResults :
    1 ≤ State.reset.sp.toNat ∧ State.reset.sp.toNat ≤ 5 ∧ ({ State.reset with sp := 4 } : State).sp.toNat ≤ 4 := by
  decide

theorem witness_CallResults : 1 ≤ State.reset.sp.toNat ∧ State.reset.sp.toNat ≤ 5 := by decide

theorem witness_ReturnResults : ({ State.reset with sp := 4 } : State).sp.toNat ≤ 4 := by decide

/-- A state at whose boundary the interrupt of the INT pin, of the timer, of the serial interface is accepted. -/
def pendingInterrupt (sp : BitVec 3) (irq irqtm irqsio : Bool) : State :=
  { State.reset with
    sp := sp
    inte := true
    interrupts :=
      { State.reset.interrupts with irq := irq, irqtm := irqtm, irqsio := irqsio, ip := true, iptm := true, ipsio := true } }

theorem witness_StackGuard :
    (pendingInterrupt 0 true false false).sp = 0 ∧ (pendingInterrupt 0 true false false).mode = .run ∧
    resetRequest (pendingInterrupt 0 true false false) = none ∧
    acceptable (pendingInterrupt 0 true false false) = some .irq ∧ State.reset.sp = 5 := by decide

theorem witness_InternalResetState : (internalReset State.reset).pc = 0 := rfl

/-- ST5 (90_conflicts.md C13): the reset by the stack sets IRQTM and TMEN. -/
theorem test_internal_reset_timer_flags :
    ∀ s ∈ [{ State.reset with
        timer := { State.reset.timer with tmen := false }
        interrupts := { State.reset.interrupts with irqtm := false } }],
      (internalReset s).timer.tmen = true ∧ (internalReset s).interrupts.irqtm = true := by decide

theorem witness_AcceptancePriority :
    acceptable (pendingInterrupt 5 true true true) = some .irq ∧
    acceptable (pendingInterrupt 5 false true true) = some .irqtm ∧
    acceptable (pendingInterrupt 5 false false true) = some .irqsio ∧
    acceptable (pendingInterrupt 5 false false false) = none ∧
    acceptable { pendingInterrupt 5 true true true with skip := true } = none ∧
    acceptable { pendingInterrupt 5 true true true with eiHold := true } = none ∧
    acceptable { pendingInterrupt 5 true true true with inte := false } = none := by decide

theorem witness_InterruptAcceptance :
    ∀ sp ∈ [(1 : BitVec 3), 5], (pendingInterrupt sp false true false).mode = .run ∧
      resetRequest (pendingInterrupt sp false true false) = none ∧
      acceptable (pendingInterrupt sp false true false) = some .irqtm ∧
      1 ≤ (pendingInterrupt sp false true false).sp.toNat ∧ (pendingInterrupt sp false true false).sp.toNat ≤ 5 := by
  decide

theorem witness_InterruptReturnRestores : 1 ≤ State.reset.sp.toNat ∧ State.reset.sp.toNat ≤ 5 := by decide

theorem witness_StandbyFixedBitsStop :
    (0b0100 : Nibble).getLsbD 2 = true ∧ (0b0001 : Nibble).getLsbD 0 = true ∧ (0b0010 : Nibble).getLsbD 1 = true := by
  decide

/-- IRQTM is set at reset: `HALT 0010B` goes on, `HALT 1000B` and `HALT 0000B` wait. A stale flag is seen as it was. -/
theorem witness_HaltResults :
    staleRequest State.reset .irqtm = true ∧ staleRequest State.reset .irq = false ∧
    staleRequest { State.reset with staleView := some (.irqtm, false) } .irqtm = false ∧
    State.reset.interrupts.ip = false ∧
    (0b0010 : Nibble).getLsbD 2 = false ∧ (0b0010 : Nibble).getLsbD 0 = false ∧ (0b0010 : Nibble).getLsbD 1 = true ∧
    (0b1000 : Nibble).getLsbD 3 = true := by decide

theorem witness_StopResults :
    staleRequest State.reset .irq = false ∧ staleRequest State.reset .irqsio = false ∧
    staleRequest (pendingInterrupt 5 true false false) .irq = true ∧
    (pendingInterrupt 5 true false false).interrupts.ip = true := by decide

theorem witness_StandbyKeepsProgramState :
    ∀ m ∈ [Mode.halt 8, .stop 8, .stopWait, .resetWait .resetPin 1],
      ({ State.reset with mode := m } : State).mode ≠ .run ∧ resetRequest { State.reset with mode := m } = none := by
  decide

theorem witness_StandbyReleasedOnlyByReset :
    ∀ m ∈ [Mode.halt 0, .stop 0, .stop 8],
      resetRequest { State.reset with mode := m } = none ∧ ({ State.reset with mode := m } : State).mode = m ∧
      State.reset.interrupts.ip = false ∧ State.reset.interrupts.ipsio = false := by decide

/-- From the reset state's IRQTM = 1: operand 0010B is released in the first cycle, 1000B, with IPTM = 0, is not. -/
theorem witness_HaltRelease :
    resetRequest { State.reset with mode := .halt 2 } = none ∧
    (advanceCycle { State.reset with mode := .halt 2 }).interrupts.irqtm = true ∧
    resetRequest { State.reset with mode := .halt 8 } = none ∧
    (advanceCycle { State.reset with mode := .halt 8 }).interrupts.ip = false ∧
    (advanceCycle { State.reset with mode := .halt 8 }).interrupts.iptm = false ∧
    (advanceCycle { State.reset with mode := .halt 8 }).interrupts.ipsio = false := by decide

theorem witness_TimerPeriod : State.reset.timer.tmc = 0 ∧ State.reset.timer.tmm.toNat = 255 := by decide

theorem witness_SerialTransfer :
    ∃ s : State, s.serial.cnt = 0 ∧ s.serial.siots = true :=
  ⟨{ State.reset with serial := { State.reset.serial with siots := true } }, rfl, rfl⟩

/-- A transfer with this clock, the divider and the bits counted as given, the clock high. -/
def transferring (ck : BitVec 2) (divider : BitVec 10) (cnt : Nat) : State :=
  { State.reset with serial :=
    { State.reset.serial with sioen := true, siots := true, siock := ck, divider := divider, cnt := cnt, sck := true } }

/-- The edges: without a transfer; an internal clock in and before the cycle in which its period ends, fx/16 in each; the
external clock with and without an edge. -/
theorem witness_SerialTransfer_edges :
    State.reset.serial.sioen = false ∧ (transferring 2 0 0).serial.sioen = true ∧ (transferring 2 0 0).serial.siots = true ∧
    (transferring 2 0 0).serial.siock ≠ 0 ∧ (transferring 2 111 0).serial.divider.toNat % 128 + 16 < 128 ∧
    ¬(transferring 2 112 0).serial.divider.toNat % 128 + 16 < 128 ∧
    ¬(transferring 1 0 0).serial.divider.toNat % 16 + 16 < 16 ∧ (transferring 0 0 0).serial.siock = 0 ∧
    (transferring 2 112 0).serial.divider.toNat % 128 + 16 = 128 ∧ (transferring 2 112 0).serial.cnt = 0 ∧
    (transferring 2 112 0).serial.sck = true ∧
    sckLevel (transferring 0 0 0) 3 ≠ (transferring 0 0 0).serial.sck ∧
    sckLevel { transferring 0 0 0 with env := { Inputs.quiet with sckWave := 8 } } 3 = true := by decide

/-- The same with the clock low. -/
def transferringLow (ck : BitVec 2) (divider : BitVec 10) (cnt : Nat) : State :=
  { transferring ck divider cnt with serial := { (transferring ck divider cnt).serial with sck := false } }

/-- A low clock before its rising edge. -/
theorem witness_SerialTransfer_low :
    (transferringLow 1 0 0).serial.sck = false ∧ (transferringLow 1 0 0).serial.divider.toNat % 16 < clockRise 16 :=
  ⟨rfl, (clockRise_bounds (Nat.le_refl 16)).2.2⟩

/-- SIO4: without a transfer SIOSFR stands still. -/
theorem test_serial_idle :
    (sioCycle { transferring 1 0 0 with serial := { (transferring 1 0 0).serial with siots := false, sfr := 0x64 } }).serial.sfr
      = 0x64 := by decide

/-- R354: with fx/16 a cycle that starts high ends low, no bit in yet; one that starts low takes a bit in and ends low. -/
theorem test_serial_clock :
    (sioCycle (transferring 1 0 0)).serial.sck = false ∧ (sioCycle (transferring 1 0 0)).serial.cnt = 0 ∧
    (sioCycle (transferringLow 1 0 0)).serial.sck = false ∧ (sioCycle (transferringLow 1 0 0)).serial.cnt = 1 := by
  obtain ⟨-, h2, h3⟩ := clockRise_bounds (Nat.le_refl 16)
  have h (s : State) (hc : s.serial.siock = 1) (ht : s.serial.siots = true) :
      (sioCycle s).serial.sck = (clocks internalClock 16 s).serial.sck ∧
        (sioCycle s).serial.cnt = (clocks internalClock 16 s).serial.cnt := by
    unfold sioCycle sioInternal
    rw [if_neg (by rw [hc]; decide), if_pos ht]
    exact ⟨rfl, rfl⟩
  have a : clocks internalClock 16 (transferring 1 0 0) = sioFalling (transferring 1 0 0) :=
    (clocks_internal_high (s := transferring 1 0 0) (n := 16) rfl (Nat.le_refl 16) rfl rfl rfl (Nat.le_refl 16)).trans
      ((if_neg (by decide)).trans (if_pos (Nat.add_lt_add_left h3 16)))
  obtain ⟨r, hr⟩ : ∃ r, r = sioRising (transferringLow 1 0 0) (siLevel (transferringLow 1 0 0) (clockRise 16 - 0 - 1)) :=
    ⟨_, rfl⟩
  have b : clocks internalClock 16 (transferringLow 1 0 0) = sioFalling r :=
    (clocks_internal_low (s := transferringLow 1 0 0) (n := 16) rfl (Nat.le_refl 16) rfl rfl rfl h3 (Nat.le_refl 16) hr).trans
      ((if_neg (Nat.not_lt.mpr (Nat.le_of_lt h2))).trans (if_neg (by rw [hr]; exact (by decide : ¬(0 + 16 < 16 ∨ true = false)))))
  obtain ⟨a1, a2⟩ := h (transferring 1 0 0) rfl rfl
  obtain ⟨b1, b2⟩ := h (transferringLow 1 0 0) rfl rfl
  rw [a1, a2, b1, b2, a, b, hr]
  exact ⟨rfl, rfl, rfl, rfl⟩

/-- A comparison just started, on a slow and on a fast part, with the input above and below the reference. -/
def comparing (p : Part) (cin : Nat) : State :=
  { State.reset with
    part := p
    comparator := { State.reset.comparator with cmpstrt := true, remaining := cmpCycles p + 1 }
    env := { Inputs.quiet with cin0 := cin, vdd := 16 } }

theorem witness_ComparisonDuration :
    ∀ p ∈ [Part.u17132, .u17133], ∀ c ∈ [7, 9], (comparing p c).comparator.cmpstrt = true ∧
      (comparing p c).comparator.remaining = cmpCycles (comparing p c).part + 1 ∧
      (comparing p c).comparator.tainted = false ∧ (comparing p c).env.cin0 = c ∧ (comparing p c).comparator.cmpch = 0 ∧
      (comparing p c).comparator.cmpvref = 8 ∧ (comparing p c).env.vdd = 16 := by decide

/-- Ports as outputs and as inputs, an analog input, the serial pins with either clock and either mode, TMOUT, Vref. -/
theorem witness_PortReads :
    (∃ s : State, s.ports.pocbio.getLsbD 3 = true ∧ s.serial.sioen = false ∧ s.timer.tmosel = false ∧
      s.ports.podbio.getLsbD 3 = true ∧ s.ports.podbio.getLsbD 1 = true ∧ s.ports.soUsed = false) ∧
    State.reset.ports.pocbio.getLsbD 0 = false ∧ State.reset.ports.pocidi.getLsbD 0 = false ∧
    State.reset.ports.podbio.getLsbD 0 = false ∧ hasCmp ({ State.reset with part := .u17121 } : State).part = false ∧
    (∀ ck ∈ [(0 : BitVec 2), 1], ∃ s : State, s.serial.sioen = true ∧ s.serial.siock = ck ∧ s.serial.siohiz = true) ∧
    (∃ s : State, s.timer.tmosel = true) ∧ State.reset.comparator.cmpvref ≠ 0 ∧
    ∃ s : State, hasCmp s.part = true ∧ s.comparator.cmpvref = 0 :=
  ⟨⟨{ State.reset with ports := { State.reset.ports with pocbio := 8, podbio := 10 } }, rfl, rfl, rfl, rfl, rfl, rfl⟩,
    rfl, rfl, rfl, rfl,
    fun ck _ => ⟨{ State.reset with serial := { State.reset.serial with sioen := true, siock := ck, siohiz := true } },
      rfl, rfl, rfl⟩,
    ⟨{ State.reset with timer := { State.reset.timer with tmosel := true } }, rfl⟩, by decide,
    { State.reset with comparator := { State.reset.comparator with cmpvref := 0 } }, rfl, rfl⟩

/-- The drives: the ports as outputs and inputs, the serial pins, TMOUT, Vref as above; an internal clock at its falling
edge, before its first one, low before its rising edge (witness_SerialTransfer_low), in the last bit; without a system clock. -/
theorem witness_PortReads_drives :
    (transferring 1 0 0).serial.siock ≠ 0 ∧ 16 ≤ (transferring 1 0 0).serial.divider.toNat % 16 + ((15 : Fin 16) + 1) ∧
    (transferring 1 0 0).serial.divider.toNat % 16 + ((14 : Fin 16) + 1) < 16 ∧ (transferring 1 0 0).serial.sck = true ∧
    (transferringLow 1 0 7).serial.cnt = 7 ∧ (transferring 1 0 0).mode = .run ∧
    ({ transferring 1 0 0 with mode := .stopWait } : State).mode = .stopWait := by decide

/-- R351, R354: SCK falls where the divider ends a period of fx/16, and no earlier. -/
theorem test_serial_clock_output :
    pod0Drive (transferring 1 0 0) 15 = .low ∧ pod0Drive (transferring 1 0 0) 14 = .released := by
  obtain ⟨-, -, h3⟩ := clockRise_bounds (Nat.le_refl 16)
  rw [pod0Drive_clock 15 rfl (by decide), pod0Drive_clock 14 rfl (by decide)]
  have h {k : Nat} (hk : k ≤ 16) := clocks_internal_high (s := transferring 1 0 0) (n := 16) rfl (Nat.le_refl 16) rfl rfl rfl hk
  have h15 : clocks internalClock 16 (transferring 1 0 0) = sioFalling (transferring 1 0 0) :=
    (h (Nat.le_refl 16)).trans ((if_neg (by decide)).trans (if_pos (Nat.add_lt_add_left h3 16)))
  have h14 : clocks internalClock 15 (transferring 1 0 0) = transferring 1 0 0 :=
    (h (by decide)).trans (if_pos (by decide))
  unfold clockOutput
  constructor
  · show (if (!true || (clocks internalClock 16 (transferring 1 0 0)).serial.sck) = true then _ else _) = PinDrive.low
    rw [h15]
    rfl
  · show (if (!true || (clocks internalClock 15 (transferring 1 0 0)).serial.sck) = true then _ else _) = PinDrive.released
    rw [h14]
    rfl

/-- A state in this mode with this reset applied. -/
def underReset (m : Mode) (r : ResetLine) : State :=
  { State.reset with mode := m, pdresen := true, env := { Inputs.quiet with reset := r } }

/-- The same without PDRESEN, as every reset leaves it. -/
def underSupplyLow (m : Mode) : State := { underReset m .supplyLow with pdresen := false }

theorem witness_ExternalReset :
    resetRequest (underReset .run .resetLow) = some .resetPin ∧
    resetRequest (underReset (.halt 8) .resetLow) = some .resetPin ∧
    resetRequest (underReset (.stop 0) .resetLow) = some .resetPin ∧
    resetRequest (underReset .run .supplyLow) = some .powerDown ∧
    resetRequest (underReset .run .supplyLost) = some .powerOn ∧ (underReset .run .resetLow).mode = .run ∧
    resetRequest (underReset (.resetWait .resetPin 7) .supplyLost) = some .powerOn ∧
    resetRequest (underReset (.resetWait .resetPin 4095) .resetLow) = some .resetPin ∧
    resetRequest (underReset (.resetWait .powerDown 4096) .resetLow) = some .resetPin ∧
    resetRequest (underReset (.resetWait .resetPin 4096) .resetLow) = some .resetPin ∧
    resetRequest (underSupplyLow (.resetWait .powerDown 4096)) = some .powerDown := by decide

/-- Levels that apply no reset: none, a RESET pin that only the pull-up holds, a low supply without PDRESEN. The wait, in its
middle and at its end. -/
theorem witness_ExternalReset_none :
    resetRequest State.reset = none ∧
    resetRequest { underReset .run .resetLow with
      env := { Inputs.quiet with reset := .resetLow, resetOpen := true }, mask := ⟨true, 0, 0⟩ } = none ∧
    resetRequest (underSupplyLow .run) = none ∧
    ∀ left ∈ [1, 2], resetRequest { State.reset with mode := .resetWait .resetPin left } = none := by decide

/-- A RESET low for one cycle, then quiet. -/
def shortReset : State := { underReset .run .resetLow with pending := [Inputs.quiet] }

/-- The states of the wait after it. -/
def waitAfter (t : State) : Nat → State
  | 0 => t
  | k + 1 => resetWaitCycle .resetPin (4096 - k) (waitAfter t k)

/-- Its wait runs through: the hypotheses about a run of 4096 cycles can be met. -/
theorem witness_ExternalReset_run :
    ∃ (s t : State) (run : Nat → State), resetRequest s = some .resetPin ∧ s.mode ≠ .resetWait .resetPin 4096 ∧
      step s = .next t ∧ run 0 = t ∧
      ∀ k < 4096, resetRequest (run k) = none ∧ step (run k) = .next (run (k + 1)) := by
  have key : ∀ k, k < 4096 → ∀ t : State, t.mode = .resetWait .resetPin 4096 → t.env.reset = .inactive → t.pending = [] →
      (waitAfter t k).mode = .resetWait .resetPin (4096 - k) ∧ (waitAfter t k).env.reset = .inactive ∧
        (waitAfter t k).pending = [] := by
    intro k hk t h1 h2 h3
    induction k with
    | zero => exact ⟨h1, h2, h3⟩
    | succ k ih =>
      obtain ⟨-, i2, i3⟩ := ih (by omega)
      refine ⟨?_, ?_, ?_⟩
      · refine (resetWaitCycle_effect .resetPin (4096 - k) (waitAfter t k)).1.trans ?_
        rw [if_neg (by omega), Nat.sub_sub]
      · simp only [waitAfter, resetWaitCycle, nextInputs, i3, tick, i2]
      · simp only [waitAfter, resetWaitCycle, nextInputs, i3, tick]
  obtain ⟨t, ht, h1, h2, h3⟩ : ∃ t, step shortReset = .next t ∧ t.mode = .resetWait .resetPin 4096 ∧
      t.env.reset = .inactive ∧ t.pending = [] := ⟨_, rfl, rfl, rfl, rfl⟩
  refine ⟨shortReset, t, waitAfter t, rfl, by decide, ht, rfl, fun k hk => ?_⟩
  obtain ⟨i1, i2, -⟩ := key k hk t h1 h2 h3
  have hr : resetRequest (waitAfter t k) = none := by rw [resetRequest, i2]
  exact ⟨hr, by simp only [step, stepBody, hr, i1, waitAfter]⟩

/-- R461: a RESET low in the wait of another reset is one during operation; one that holds is the same reset. -/
theorem test_reset_in_wait :
    losesData .resetPin (underReset (.resetWait .resetPin 4095) .resetLow) = true ∧
    takeReset .resetPin { underReset (.resetWait .resetPin 4096) .resetLow with wr := 5 } =
      { underReset (.resetWait .resetPin 4096) .resetLow with wr := 5 } := by decide

/-- R465, R466: once the supply has recovered, a new fall with PDRESEN = 0 resets no more. -/
theorem test_power_down_reset_ends :
    resetRequest (underSupplyLow (.resetWait .powerDown 4095)) = none ∧ resetRequest (underSupplyLow .run) = none := by
  decide

/-- In STOP mode with a permitted request and without one; in the wait a cycle with a falling edge of fx/256, one with a
falling edge of INT as count pulse, one with neither; a wait that starts from TMC = 00H. -/
theorem witness_StopRelease :
    (∀ irq ∈ [true, false], ∃ s : State, s.mode = .stop 8 ∧ (8 : BitVec 4).getLsbD 3 = true ∧ resetRequest s = none ∧
      (advanceCycle s).interrupts.irq = irq ∧ (advanceCycle s).interrupts.ip = true ∧
      (advanceCycle s).interrupts.irqsio = false) ∧
    (∀ x ∈ [(240 : BitVec 11), 0], ∃ s : State, s.mode = .stopWait ∧ resetRequest s = none ∧ s.timer.tmen = true ∧
      s.timer.tmc = 0 ∧ pulseFalls s = decide (x = 240) ∧ s.timer.tmck ≠ 3) ∧
    ∃ s : State, s.mode = .stopWait ∧ resetRequest s = none ∧ s.timer.tmen = true ∧ s.timer.tmck = 3 ∧
      s.interrupts.intPrev = true ∧ (nextInputs s).env.int = false := by
  refine ⟨fun irq h => ⟨{ State.reset with
      mode := .stop 8, interrupts := { State.reset.interrupts with irq := irq, ip := true } }, rfl, rfl, rfl, ?_, rfl, rfl⟩,
    fun x h => ⟨{ State.reset with mode := .stopWait, timer := { State.reset.timer with presc := x } }, rfl, rfl, rfl, rfl,
      ?_, (by decide : (0 : BitVec 2) ≠ 3)⟩,
    { State.reset with
      mode := .stopWait
      timer := { State.reset.timer with tmck := 3 }
      interrupts := { State.reset.interrupts with intPrev := true } }, rfl, rfl, rfl, rfl, rfl, rfl⟩
  · simp only [List.mem_cons, List.not_mem_nil, or_false] at h
    rcases h with rfl | rfl <;> rfl
  · simp only [List.mem_cons, List.not_mem_nil, or_false] at h
    rcases h with rfl | rfl <;> rfl

theorem witness_ProgramMemoryConstant : runs 0x3CF0 State.reset (fun t => t.pc == 1) = true := by decide

theorem witness_InvariantKept : ∃ s t : State, Inv s ∧ step s = .next t :=
  ⟨{ State.reset with mode := .stop 8 }, _,
    { ram := cellsWf_nil _, rom := cellsWf_nil _, sp := by decide, cnt := by decide, comparator := ⟨rfl, rfl⟩
      mode := Or.inr rfl, idle := Or.inr ⟨rfl, rfl, rfl⟩, timer := fun _ h => absurd h (by decide) }, rfl⟩
end

section
/-! The four additions (40_add.md R204 to R207). -/

namespace Sys2Proof.Machine

/-! ### Words of the formats `RM` and `MI`, as the rules print them (30_encoding.md R142, R143) -/

theorem wordOf_addRM (r : BitVec 4) (m : DmAddr) : wordOf 0x0000 m r = encode (.addRM r m) :=
  (encodeM_eq_wordOf 0b00000 m r).symm

theorem wordOf_addMI (m : DmAddr) (n4 : Nibble) : wordOf 0x8000 m n4 = encode (.addMI m n4) :=
  (encodeM_eq_wordOf 0b10000 m n4).symm

theorem wordOf_addcRM (r : BitVec 4) (m : DmAddr) : wordOf 0x1000 m r = encode (.addcRM r m) :=
  (encodeM_eq_wordOf 0b00010 m r).symm

theorem wordOf_addcMI (m : DmAddr) (n4 : Nibble) : wordOf 0x9000 m n4 = encode (.addcMI m n4) :=
  (encodeM_eq_wordOf 0b10010 m n4).symm

theorem decode_encode_addRM (r : BitVec 4) (m : DmAddr) : decode (encode (.addRM r m)) = .ok (.addRM r m) := by
  simp [encode, decode, opField_encodeM, mField_encodeM, lowField_encodeM]

theorem decode_encode_addMI (m : DmAddr) (n4 : Nibble) : decode (encode (.addMI m n4)) = .ok (.addMI m n4) := by
  simp [encode, decode, opField_encodeM, mField_encodeM, lowField_encodeM]

theorem decode_encode_addcRM (r : BitVec 4) (m : DmAddr) : decode (encode (.addcRM r m)) = .ok (.addcRM r m) := by
  simp [encode, decode, opField_encodeM, mField_encodeM, lowField_encodeM]

theorem decode_encode_addcMI (m : DmAddr) (n4 : Nibble) : decode (encode (.addcMI m n4)) = .ok (.addcMI m n4) := by
  simp [encode, decode, opField_encodeM, mField_encodeM, lowField_encodeM]

/-! ### The arithmetic instructions complete with the result of the ALU (40_add.md R203) -/

/-- For every ALU function and carry in: the form `r, m` commits to the general register. -/
theorem arithRM_result (alu : Bool → Nibble → Nibble → Bool → AluResult) (c : Bool) (r : BitVec 4) {s : State}
    {m ma : DmAddr} (h : eaM s m = .ok ma) :
    ∃ t, arithRM alu c r m s = .next t ∧
      ArithResult s t (s.rp ++ r) (alu s.psw.bcd (dmRead s .first (s.rp ++ r)) (dmRead s .second ma) c) :=
  ⟨_, arithRM_next alu c r h, arithCommit_result ..⟩

/-- For every ALU function and carry in: the form `m, #n4` commits to the operand's effective address. -/
theorem arithMI_result (alu : Bool → Nibble → Nibble → Bool → AluResult) (c : Bool) (n4 : Nibble) {s : State}
    {m ma : DmAddr} (h : eaM s m = .ok ma) :
    ∃ t, arithMI alu c m n4 s = .next t ∧ ArithResult s t ma (alu s.psw.bcd (dmRead s .first ma) n4 c) :=
  ⟨_, arithMI_next alu c n4 h, arithCommit_result ..⟩

/-! ### What the additions execute -/

theorem exec_addRM (r : BitVec 4) (m : DmAddr) (s : State) :
    exec (.addRM r m) s = arithRM aluAdd false r m s := rfl

theorem exec_addMI (m : DmAddr) (n4 : Nibble) (s : State) :
    exec (.addMI m n4) s = arithMI aluAdd false m n4 s := rfl

theorem exec_addcRM (r : BitVec 4) (m : DmAddr) (s : State) :
    exec (.addcRM r m) s = arithRM aluAdd s.psw.cy r m s := rfl

theorem exec_addcMI (m : DmAddr) (n4 : Nibble) (s : State) :
    exec (.addcMI m n4) s = arithMI aluAdd s.psw.cy m n4 s := rfl

/-- Settles O12: each printed word is the encoded one, and each addition is the shared arithmetic body with the adder,
carry in 0 for `ADD` and CY for `ADDC`. -/
theorem additionResults : Obligations.AdditionResults := by
  intro s m ma x hma
  refine ⟨?wordAddRM, ?wordAddMI, ?wordAddcRM, ?wordAddcMI, ?addRM, ?addMI, ?addcRM, ?addcMI⟩
  case wordAddRM => rw [wordOf_addRM, decode_encode_addRM]
  case wordAddMI => rw [wordOf_addMI, decode_encode_addMI]
  case wordAddcRM => rw [wordOf_addcRM, decode_encode_addcRM]
  case wordAddcMI => rw [wordOf_addcMI, decode_encode_addcMI]
  case addRM => rw [exec_addRM]; exact arithRM_result aluAdd false x hma
  case addMI => rw [exec_addMI]; exact arithMI_result aluAdd false x hma
  case addcRM => rw [exec_addcRM]; exact arithRM_result aluAdd s.psw.cy x hma
  case addcMI => rw [exec_addcMI]; exact arithMI_result aluAdd s.psw.cy x hma

end Sys2Proof.Machine
end

section
/-! The four subtractions (41_subtract.md R216 to R219). -/

namespace Sys2Proof.Machine

/-! ### The fields of a printed word (30_encoding.md R142): its base is the operation code followed by zeros -/

theorem opField_wordOf (op : BitVec 5) (m : DmAddr) (low : BitVec 4) :
    opField (wordOf (op ++ 0#11) m low) = op := by
  rw [← encodeM_eq_wordOf, opField_encodeM]

theorem mField_wordOf (op : BitVec 5) (m : DmAddr) (low : BitVec 4) :
    mField (wordOf (op ++ 0#11) m low) = m := by
  rw [← encodeM_eq_wordOf, mField_encodeM]

theorem lowField_wordOf (op : BitVec 5) (m : DmAddr) (low : BitVec 4) :
    lowField (wordOf (op ++ 0#11) m low) = low := by
  rw [← encodeM_eq_wordOf, lowField_encodeM]

/-! ### What the printed words of the subtractions decode to (30_encoding.md R143) -/

theorem decode_wordOf_subRM (r : BitVec 4) (m : DmAddr) : decode (wordOf 0x0800 m r) = .ok (.subRM r m) := by
  change decode (wordOf (0b00001#5 ++ 0#11) m r) = _
  rw [decode, opField_wordOf, mField_wordOf, lowField_wordOf]
  rfl

theorem decode_wordOf_subMI (m : DmAddr) (n4 : Nibble) : decode (wordOf 0x8800 m n4) = .ok (.subMI m n4) := by
  change decode (wordOf (0b10001#5 ++ 0#11) m n4) = _
  rw [decode, opField_wordOf, mField_wordOf, lowField_wordOf]
  rfl

theorem decode_wordOf_subcRM (r : BitVec 4) (m : DmAddr) : decode (wordOf 0x1800 m r) = .ok (.subcRM r m) := by
  change decode (wordOf (0b00011#5 ++ 0#11) m r) = _
  rw [decode, opField_wordOf, mField_wordOf, lowField_wordOf]
  rfl

theorem decode_wordOf_subcMI (m : DmAddr) (n4 : Nibble) : decode (wordOf 0x9800 m n4) = .ok (.subcMI m n4) := by
  change decode (wordOf (0b10011#5 ++ 0#11) m n4) = _
  rw [decode, opField_wordOf, mField_wordOf, lowField_wordOf]
  rfl

/-! ### What the subtractions execute -/

theorem exec_subRM (r : BitVec 4) (m : DmAddr) (s : State) :
    exec (.subRM r m) s = arithRM aluSub false r m s := rfl

theorem exec_subMI (m : DmAddr) (n4 : Nibble) (s : State) :
    exec (.subMI m n4) s = arithMI aluSub false m n4 s := rfl

theorem exec_subcRM (r : BitVec 4) (m : DmAddr) (s : State) :
    exec (.subcRM r m) s = arithRM aluSub s.psw.cy r m s := rfl

theorem exec_subcMI (m : DmAddr) (n4 : Nibble) (s : State) :
    exec (.subcMI m n4) s = arithMI aluSub s.psw.cy m n4 s := rfl

/-- Settles O13: the operation code of each printed word selects its row, and each subtraction is the shared arithmetic
body with the subtracter, borrow in 0 for `SUB` and CY for `SUBC`. -/
theorem subtractionResults : Obligations.SubtractionResults := by
  intro s m ma x hma
  refine ⟨decode_wordOf_subRM x m, decode_wordOf_subMI m x, decode_wordOf_subcRM x m, decode_wordOf_subcMI m x,
    ?subRM, ?subMI, ?subcRM, ?subcMI⟩
  case subRM => rw [exec_subRM]; exact arithRM_result aluSub false x hma
  case subMI => rw [exec_subMI]; exact arithMI_result aluSub false x hma
  case subcRM => rw [exec_subcRM]; exact arithRM_result aluSub s.psw.cy x hma
  case subcMI => rw [exec_subcMI]; exact arithMI_result aluSub s.psw.cy x hma

end Sys2Proof.Machine
end

section
/-! The six logical instructions (42_logic.md R225 to R231). -/

namespace Sys2Proof.Machine

/-! ### What the printed words of the logical instructions decode to (30_encoding.md R143) -/

/-- An operation code that alone selects an instruction with operands `low` and `m` is all that a printed word of it needs. -/
theorem decode_wordOf_of_opField {op : BitVec 5} {i : BitVec 4 → DmAddr → Instr}
    (hrow : ∀ w, opField w = op → decode w = .ok (i (lowField w) (mField w))) (m : DmAddr) (low : BitVec 4) :
    decode (wordOf (op ++ 0#11) m low) = .ok (i low m) := by
  rw [hrow _ (opField_wordOf op m low), lowField_wordOf, mField_wordOf]

theorem decode_wordOf_orRM (r : BitVec 4) (m : DmAddr) : decode (wordOf 0x3000 m r) = .ok (.orRM r m) :=
  decode_wordOf_of_opField (op := 0b00110) (i := .orRM) (fun w h => by rw [decode, h]; rfl) m r

theorem decode_wordOf_orMI (m : DmAddr) (n4 : Nibble) : decode (wordOf 0xB000 m n4) = .ok (.orMI m n4) :=
  decode_wordOf_of_opField (op := 0b10110) (i := fun n4 m => .orMI m n4) (fun w h => by rw [decode, h]; rfl) m n4

theorem decode_wordOf_andRM (r : BitVec 4) (m : DmAddr) : decode (wordOf 0x2000 m r) = .ok (.andRM r m) :=
  decode_wordOf_of_opField (op := 0b00100) (i := .andRM) (fun w h => by rw [decode, h]; rfl) m r

theorem decode_wordOf_andMI (m : DmAddr) (n4 : Nibble) : decode (wordOf 0xA000 m n4) = .ok (.andMI m n4) :=
  decode_wordOf_of_opField (op := 0b10100) (i := fun n4 m => .andMI m n4) (fun w h => by rw [decode, h]; rfl) m n4

theorem decode_wordOf_xorRM (r : BitVec 4) (m : DmAddr) : decode (wordOf 0x2800 m r) = .ok (.xorRM r m) :=
  decode_wordOf_of_opField (op := 0b00101) (i := .xorRM) (fun w h => by rw [decode, h]; rfl) m r

theorem decode_wordOf_xorMI (m : DmAddr) (n4 : Nibble) : decode (wordOf 0xA800 m n4) = .ok (.xorMI m n4) :=
  decode_wordOf_of_opField (op := 0b10101) (i := fun n4 m => .xorMI m n4) (fun w h => by rw [decode, h]; rfl) m n4

/-! ### The logical instructions complete by one store, whatever the flags are (42_logic.md R225) -/

/-- For every operation on nibbles: the form `r, m` stores to the general register. -/
theorem logicRM_result (op : Nibble → Nibble → Nibble) (r : BitVec 4) {s : State} {m ma : DmAddr}
    (h : eaM s m = .ok ma) :
    ∃ t, logicRM op r m s = .next t ∧
      StoredAt s t (s.rp ++ r) (op (dmRead s .first (s.rp ++ r)) (dmRead s .second ma)) :=
  ⟨_, logicRM_next op r h, dmWrite_storedAt ..⟩

/-- For every operation on nibbles: the form `m, #n4` stores to the operand's effective address. -/
theorem logicMI_result (op : Nibble → Nibble → Nibble) (n4 : Nibble) {s : State} {m ma : DmAddr}
    (h : eaM s m = .ok ma) :
    ∃ t, logicMI op m n4 s = .next t ∧ StoredAt s t ma (op (dmRead s .first ma) n4) :=
  ⟨_, logicMI_next op n4 h, dmWrite_storedAt ..⟩

/-! ### What the logical instructions execute -/

theorem exec_orRM (r : BitVec 4) (m : DmAddr) (s : State) : exec (.orRM r m) s = logicRM (· ||| ·) r m s := rfl

theorem exec_orMI (m : DmAddr) (n4 : Nibble) (s : State) : exec (.orMI m n4) s = logicMI (· ||| ·) m n4 s := rfl

theorem exec_andRM (r : BitVec 4) (m : DmAddr) (s : State) : exec (.andRM r m) s = logicRM (· &&& ·) r m s := rfl

theorem exec_andMI (m : DmAddr) (n4 : Nibble) (s : State) : exec (.andMI m n4) s = logicMI (· &&& ·) m n4 s := rfl

theorem exec_xorRM (r : BitVec 4) (m : DmAddr) (s : State) : exec (.xorRM r m) s = logicRM (· ^^^ ·) r m s := rfl

theorem exec_xorMI (m : DmAddr) (n4 : Nibble) (s : State) : exec (.xorMI m n4) s = logicMI (· ^^^ ·) m n4 s := rfl

/-- Settles O15: the operation code of each printed word selects its row, and each instruction is the shared logical body
of its form, a single store, with its own operation on nibbles. -/
theorem logicResults : Obligations.LogicResults := by
  intro s m ma x hma
  refine ⟨decode_wordOf_orRM x m, decode_wordOf_orMI m x, decode_wordOf_andRM x m, decode_wordOf_andMI m x,
    decode_wordOf_xorRM x m, decode_wordOf_xorMI m x, ?orRM, ?orMI, ?andRM, ?andMI, ?xorRM, ?xorMI⟩
  case orRM => rw [exec_orRM]; exact logicRM_result (· ||| ·) x hma
  case orMI => rw [exec_orMI]; exact logicMI_result (· ||| ·) x hma
  case andRM => rw [exec_andRM]; exact logicRM_result (· &&& ·) x hma
  case andMI => rw [exec_andMI]; exact logicMI_result (· &&& ·) x hma
  case xorRM => rw [exec_xorRM]; exact logicRM_result (· ^^^ ·) x hma
  case xorMI => rw [exec_xorMI]; exact logicMI_result (· ^^^ ·) x hma

end Sys2Proof.Machine
end

section
/-! The loads, stores and indirect moves of one nibble (45_transfer.md R250 to R254). -/

namespace Sys2Proof.Machine

/-! ### What the printed words of the nibble transfers decode to (30_encoding.md R143) -/

theorem decode_wordOf_ld (r : BitVec 4) (m : DmAddr) : decode (wordOf 0x4000 m r) = .ok (.ld r m) :=
  decode_wordOf_of_opField (op := 0b01000) (i := .ld) (fun w h => by rw [decode, h]; rfl) m r

theorem decode_wordOf_st (m : DmAddr) (r : BitVec 4) : decode (wordOf 0xC000 m r) = .ok (.st m r) :=
  decode_wordOf_of_opField (op := 0b11000) (i := fun r m => .st m r) (fun w h => by rw [decode, h]; rfl) m r

theorem decode_wordOf_movMI (m : DmAddr) (n4 : Nibble) : decode (wordOf 0xE800 m n4) = .ok (.movMI m n4) :=
  decode_wordOf_of_opField (op := 0b11101) (i := fun n4 m => .movMI m n4) (fun w h => by rw [decode, h]; rfl) m n4

theorem decode_wordOf_movToInd (r : BitVec 4) (m : DmAddr) : decode (wordOf 0x5000 m r) = .ok (.movToInd r m) :=
  decode_wordOf_of_opField (op := 0b01010) (i := .movToInd) (fun w h => by rw [decode, h]; rfl) m r

theorem decode_wordOf_movFromInd (m : DmAddr) (r : BitVec 4) : decode (wordOf 0xD000 m r) = .ok (.movFromInd m r) :=
  decode_wordOf_of_opField (op := 0b11010) (i := fun r m => .movFromInd m r) (fun w h => by rw [decode, h]; rfl) m r

/-! ### What the nibble transfers execute: a single `DmWrite` once the operands have addresses (20_memory.md R112 to R114) -/

theorem exec_ld_next (r : BitVec 4) {s : State} {m ma : DmAddr} (h : eaM s m = .ok ma) :
    exec (.ld r m) s = .next (dmWrite s (s.rp ++ r) (dmRead s .second ma)) := by
  change execLd r m s = _
  rw [execLd, h, withAddress_ok, eaR]

theorem exec_st_next (r : BitVec 4) {s : State} {m ma : DmAddr} (h : eaM s m = .ok ma) :
    exec (.st m r) s = .next (dmWrite s ma (dmRead s .first (s.rp ++ r))) := by
  change execSt m r s = _
  rw [execSt, h, withAddress_ok, eaR]

theorem exec_movMI_next (n4 : Nibble) {s : State} {m ma : DmAddr} (h : eaM s m = .ok ma) :
    exec (.movMI m n4) s = .next (dmWrite s ma n4) := by
  change execMovMI m n4 s = _
  rw [execMovMI, h, withAddress_ok]

/-- The indirect address is the destination, the operand `m` the source (R252). -/
theorem exec_movToInd_next {s : State} {m ma ia : DmAddr} {r : BitVec 4} (h : eaM s m = .ok ma)
    (hi : eaInd s m r = .ok ia) : exec (.movToInd r m) s = .next (dmWrite s ia (dmRead s .second ma)) := by
  change execMovToInd r m s = _
  rw [execMovToInd, h, hi]
  rfl

/-- The indirect address is the source, the operand `m` the destination (R253). -/
theorem exec_movFromInd_next {s : State} {m ma ia : DmAddr} {r : BitVec 4} (h : eaM s m = .ok ma)
    (hi : eaInd s m r = .ok ia) : exec (.movFromInd m r) s = .next (dmWrite s ma (dmRead s .second ia)) := by
  change execMovFromInd m r s = _
  rw [execMovFromInd, h, hi]
  rfl

/-- An instruction that is a single `DmWrite` stores one nibble and changes nothing else. -/
theorem storedAt_of_exec_eq_dmWrite {i : Instr} {s : State} {a : DmAddr} {v : Nibble}
    (h : exec i s = .next (dmWrite s a v)) : ∃ t, exec i s = .next t ∧ StoredAt s t a v :=
  ⟨_, h, dmWrite_storedAt s a v⟩

/-- Settles O19: the operation code of each printed word selects its row, and each instruction is a single `DmWrite`, to
the general register for `LD`, to the operand's effective address for `ST` and `MOV m, #n4`. -/
theorem loadStoreResults : Obligations.LoadStoreResults := by
  intro s m ma x hma
  refine ⟨decode_wordOf_ld x m, decode_wordOf_st m x, decode_wordOf_movMI m x, ?ld, ?st, ?movMI⟩
  case ld => exact storedAt_of_exec_eq_dmWrite (exec_ld_next x hma)
  case st => exact storedAt_of_exec_eq_dmWrite (exec_st_next x hma)
  case movMI => exact storedAt_of_exec_eq_dmWrite (exec_movMI_next x hma)

/-- Settles O20: the operation code of each printed word selects its row, and each move is a single `DmWrite`, with the
indirect address and the operand's effective address as its two ends. -/
theorem indirectMoveResults : Obligations.IndirectMoveResults := by
  intro s m ma ia r hma hia
  refine ⟨decode_wordOf_movToInd r m, decode_wordOf_movFromInd m r, ?toInd, ?fromInd⟩
  case toInd => exact storedAt_of_exec_eq_dmWrite (exec_movToInd_next hma hia)
  case fromInd => exact storedAt_of_exec_eq_dmWrite (exec_movFromInd_next hma hia)

end Sys2Proof.Machine
end

section
/-! The branches (46_branch_subroutine.md R270, R271). -/

namespace Sys2Proof.Machine

/-! ### The printed words of the branches: operation code, bit 10 at 0, address (30_encoding.md R142, R144, R147) -/

/-- A 10-bit address added to the base of its operation code fills the address field and leaves bit 10 at 0. -/
theorem base_add_addr_eq_encodeA (op : BitVec 5) (addr : RomAddr) :
    (op ++ 0#11) + (0#6 ++ addr) = encodeA op (0#1 ++ addr) := by
  have haddr : 0#6 ++ addr = 0#5 ++ (0#1 ++ addr) := BitVec.append_assoc (x₁ := 0#5) (x₂ := 0#1) (x₃ := addr)
  have hdisjoint : (op ++ 0#11) &&& (0#5 ++ (0#1 ++ addr)) = 0#16 := by
    rw [BitVec.and_append, BitVec.and_zero, BitVec.zero_and]
    rfl
  calc (op ++ 0#11) + (0#6 ++ addr)
      = (op ++ 0#11) ||| (0#5 ++ (0#1 ++ addr)) := by rw [haddr, BitVec.add_eq_or_of_and_eq_zero _ _ hdisjoint]
    _ = op ++ (0#1 ++ addr) := by rw [BitVec.or_append, BitVec.or_zero, BitVec.zero_or]

theorem addr_bit10_clear (addr : RomAddr) : (0#1 ++ addr).getLsbD 10 = false := by
  rw [BitVec.getLsbD_append]
  rfl

/-- A word of format `A` with bit 10 of the address at 0 passes the check of that bit (R147). -/
theorem decodeAddress_encodeA (op : BitVec 5) (addr : RomAddr) (i : Instr) :
    decodeAddress (encodeA op (0#1 ++ addr)) i = .ok i := by
  rw [decodeAddress, addrField_encodeA, addr_bit10_clear]
  rfl

theorem decode_word_br (addr : RomAddr) : decode (0x6000 + (0#6 ++ addr)) = .ok (.br (0#1 ++ addr)) := by
  have hword : 0x6000 + (0#6 ++ addr) = encodeA 0b01100 (0#1 ++ addr) := base_add_addr_eq_encodeA 0b01100 addr
  rw [hword, decode, opField_encodeA, addrField_encodeA]
  exact decodeAddress_encodeA ..

theorem decode_word_brAR : decode 0x3840 = .ok .brAR := rfl

/-- The branch target is the address that the field holds below its bit 10. -/
theorem target_append (addr : RomAddr) : target (0#1 ++ addr) = addr := append_slice_low 0#1 addr

/-! ### What the branches execute: a load of pc -/

theorem exec_br (addr : RomAddr) (s : State) : exec (.br (0#1 ++ addr)) s = .next { s with pc := addr } := by
  change execBr (0#1 ++ addr) s = _
  rw [execBr, target_append]

theorem exec_brAR (s : State) : exec .brAR s = .next { s with pc := s.ar } := rfl

/-- Settles O32: the word of `BR addr` is that of its fields, so that it decodes to the branch whose target is addr, and
either branch is a load of pc. -/
theorem branchResults : Obligations.BranchResults := by
  refine ⟨fun s addr => ⟨?brWord, ?br⟩, ?brARWord, fun s => ?brAR⟩
  case brWord => exact decode_word_br addr
  case br => exact exec_br addr s
  case brARWord => exact decode_word_brAR
  case brAR => exact exec_brAR s

end Sys2Proof.Machine
end

section
/-! The instruction word: decoding and encoding are inverse to each other, and which words are no instruction
(30_encoding.md R142 to R147). -/

namespace Sys2Proof.Machine

/-! ### Decoding the word of an instruction, by format -/

/-- A word of group 00111 is decoded by its second level. -/
theorem decode_encodeG (g3 : BitVec 3) (sub g4 : BitVec 4) :
    decode (encodeG g3 sub g4) = decodeGroup (encodeG g3 sub g4) := by
  rw [decode, opField_encodeG]
  rfl

theorem decode_encodeSplit (sub : BitVec 4) (a : BitVec 7) :
    decode (encodeSplit sub a) = decodeGroup (encodeSplit sub a) := decode_encodeG ..

/-- A word of format `A` with bit 10 of the address at 0 is the instruction it stands for. -/
theorem decodeAddress_ok {w : ProgWord} (i : Instr) (h : (addrField w).getLsbD 10 = false) :
    decodeAddress w i = .ok i := by
  rw [decodeAddress, if_neg (by rw [h]; nofun)]

/-- Settles O2: by the format of the instruction each field of its word reads back, and the fields select its row. -/
theorem decodeInvertsEncode : Obligations.DecodeInvertsEncode := by
  intro i hwf
  cases i with
  | br addr | call addr =>
    have hbit : addr.getLsbD 10 = false := by simpa [Instr.wellFormed] using hwf
    rw [encode, decode, opField_encodeA, addrField_encodeA]
    exact decodeAddress_ok _ (by rw [addrField_encodeA, hbit])
  | peek a | poke a | get a | put a =>
    rw [encode, decode_encodeSplit, decodeGroup, subField_encodeSplit, splitField_encodeSplit]
    rfl
  | rorc x | stop x | halt x =>
    simp [encode, decode_encodeG, decodeGroup, decodeControl, subField_encodeG, g3Field_encodeG, lowField_encodeG]
  | movt | pushAR | popAR | brAR | callAR | incAR | incIX | ret | retsk | reti | ei | di | nop => rfl
  | _ => simp [encode, decode, opField_encodeM, mField_encodeM, lowField_encodeM]

/-! ### The word of a decoded instruction, by format -/

theorem encodeM_of_opField {w : ProgWord} {op : BitVec 5} (h : opField w = op) :
    encodeM op (mField w) (lowField w) = w := h ▸ encodeM_fields w

theorem encodeA_of_opField {w : ProgWord} {op : BitVec 5} (h : opField w = op) : encodeA op (addrField w) = w :=
  h ▸ encodeA_fields w

theorem encodeG_of_fields {w : ProgWord} {g3 : BitVec 3} {sub g4 : BitVec 4} (hop : opField w = 0b00111)
    (hg3 : g3Field w = g3) (hsub : subField w = sub) (hlow : lowField w = g4) : encodeG g3 sub g4 = w := by
  subst hg3 hsub hlow
  exact encodeG_fields hop

theorem encodeSplit_of_fields {w : ProgWord} {sub : BitVec 4} (hop : opField w = 0b00111) (hsub : subField w = sub) :
    encodeSplit sub (splitField w) = w := hsub ▸ encodeSplit_fields hop

/-- The instruction has a word of its own, and `w` is that word. -/
def IsWordOf (w : ProgWord) (i : Instr) : Prop := i.wellFormed = true ∧ encode i = w

theorem decodeNoOperand_inv {w : ProgWord} {i j : Instr} (h : decodeNoOperand w i = .ok j) : lowField w = 0 ∧ i = j := by
  unfold decodeNoOperand at h
  split at h
  · cases h
  · next hlow => exact ⟨not_not.mp hlow, Except.ok.inj h⟩

theorem decodePlain_inv {w : ProgWord} {i j : Instr} (h : decodePlain w i = .ok j) :
    g3Field w = 0 ∧ lowField w = 0 ∧ i = j := by
  unfold decodePlain at h
  split at h
  · cases h
  · next hg3 => exact ⟨not_not.mp hg3, decodeNoOperand_inv h⟩

theorem decodeAddress_inv {w : ProgWord} {i j : Instr} (h : decodeAddress w i = .ok j) :
    (addrField w).getLsbD 10 = false ∧ i = j := by
  unfold decodeAddress at h
  split at h
  · cases h
  · next hbit => exact ⟨Bool.eq_false_iff.mpr hbit, Except.ok.inj h⟩

/-- A field as its number gives it. -/
theorem eq_ofNat_of_toNat {n k : Nat} {x : BitVec n} (h : x.toNat = k) : x = BitVec.ofNat n k := by
  rw [← h, BitVec.ofNat_toNat, BitVec.setWidth_eq]

theorem isWordOf_of_decodeReturn {w : ProgWord} {i : Instr} (hop : opField w = 0b00111) (hsub : subField w = 0b1110)
    (h : decodeReturn w = .ok i) : IsWordOf w i := by
  unfold decodeReturn at h
  split at h
  case h_4 => cases h
  all_goals
    next hg3 =>
    obtain ⟨hlow, rfl⟩ := decodeNoOperand_inv h
    exact ⟨rfl, encodeG_of_fields hop (eq_ofNat_of_toNat hg3) hsub hlow⟩

theorem isWordOf_of_decodeControl {w : ProgWord} {i : Instr} (hop : opField w = 0b00111) (hsub : subField w = 0b1111)
    (h : decodeControl w = .ok i) : IsWordOf w i := by
  unfold decodeControl at h
  split at h
  case h_3 hg3 | h_4 hg3 =>
    cases h
    exact ⟨rfl, encodeG_of_fields hop (eq_ofNat_of_toNat hg3) hsub rfl⟩
  case h_6 => cases h
  all_goals
    next hg3 =>
    obtain ⟨hlow, rfl⟩ := decodeNoOperand_inv h
    exact ⟨rfl, encodeG_of_fields hop (eq_ofNat_of_toNat hg3) hsub hlow⟩

theorem isWordOf_of_decodeGroup {w : ProgWord} {i : Instr} (hop : opField w = 0b00111) (h : decodeGroup w = .ok i) :
    IsWordOf w i := by
  unfold decodeGroup at h
  split at h
  case h_2 hsub | h_3 hsub | h_9 hsub | h_10 hsub =>
    cases h
    exact ⟨rfl, encodeSplit_of_fields hop (eq_ofNat_of_toNat hsub)⟩
  case h_6 hsub =>
    split at h
    · cases h
    · next hg3 =>
      cases h
      exact ⟨rfl, encodeG_of_fields hop (not_not.mp hg3) (eq_ofNat_of_toNat hsub) rfl⟩
  case h_13 hsub => exact isWordOf_of_decodeReturn hop (eq_ofNat_of_toNat hsub) h
  case h_14 hsub => exact isWordOf_of_decodeControl hop (eq_ofNat_of_toNat hsub) h
  case h_15 => cases h
  all_goals
    next hsub =>
    obtain ⟨hg3, hlow, rfl⟩ := decodePlain_inv h
    exact ⟨rfl, encodeG_of_fields hop hg3 (eq_ofNat_of_toNat hsub) hlow⟩

/-- Settles O3: the row that decoded the word fixes its operation code, and the word is put together from its fields. -/
theorem encodeInvertsDecode : Obligations.EncodeInvertsDecode := by
  intro w i h
  change IsWordOf w i
  unfold decode at h
  split at h
  case h_8 hop => exact isWordOf_of_decodeGroup (eq_ofNat_of_toNat hop) h
  case h_13 hop | h_25 hop =>
    obtain ⟨hbit, rfl⟩ := decodeAddress_inv h
    exact ⟨by simpa [Instr.wellFormed] using hbit, encodeA_of_opField (eq_ofNat_of_toNat hop)⟩
  case h_29 => cases h
  all_goals
    next hop =>
    cases h
    exact ⟨rfl, encodeM_of_opField (eq_ofNat_of_toNat hop)⟩

/-! ### The words that are no instruction (R146) -/

theorem not_exists_ok_eq_error {ε α : Type} (a : α) : ¬∃ e : ε, (Except.ok a : Except ε α) = .error e := by
  rintro ⟨e, h⟩
  cases h

theorem exists_error_eq_error {ε α : Type} (e : ε) : ∃ e' : ε, (Except.error e : Except ε α) = .error e' := ⟨e, rfl⟩

theorem decodeNoOperand_error_iff (w : ProgWord) (i : Instr) :
    (∃ e, decodeNoOperand w i = .error e) ↔ lowField w ≠ 0 := by
  unfold decodeNoOperand
  split
  · next hlow => exact iff_of_true (exists_error_eq_error _) hlow
  · next hlow => exact iff_of_false (not_exists_ok_eq_error _) hlow

theorem decodePlain_error_iff (w : ProgWord) (i : Instr) :
    (∃ e, decodePlain w i = .error e) ↔ g3Field w ≠ 0 ∨ (lowField w ≠ 0 ∧ g3Field w = 0) := by
  unfold decodePlain
  split
  · next hg3 => exact iff_of_true (exists_error_eq_error _) (Or.inl hg3)
  · next hg3 =>
    change (∃ e, decodeNoOperand w i = .error e) ↔ _
    rw [decodeNoOperand_error_iff]
    simp [not_not.mp hg3]

theorem decodeAddress_error_iff (w : ProgWord) (i : Instr) :
    (∃ e, decodeAddress w i = .error e) ↔ w.getLsbD 10 = true := by
  have hbit : (addrField w).getLsbD 10 = w.getLsbD 10 := by simp [addrField]
  unfold decodeAddress
  rw [hbit]
  split
  · next h10 => exact iff_of_true (exists_error_eq_error _) h10
  · next h10 => exact iff_of_false (not_exists_ok_eq_error _) h10

theorem decodeReturn_error_iff (w : ProgWord) :
    (∃ e, decodeReturn w = .error e) ↔
      g3Field w ∉ [0b000, 0b001, 0b100] ∨ (lowField w ≠ 0 ∧ g3Field w ∈ [0b000, 0b001, 0b100]) := by
  unfold decodeReturn
  split
  case h_4 h0 h1 h4 =>
    have hg3 : g3Field w ∉ [0b000, 0b001, 0b100] := by
      simp only [List.mem_cons, List.not_mem_nil, or_false]
      rintro (h | h | h) <;> simp [h] at h0 h1 h4
    exact iff_of_true (exists_error_eq_error _) (Or.inl hg3)
  all_goals
    next hg3 => simp [decodeNoOperand_error_iff, eq_ofNat_of_toNat hg3]

theorem decodeControl_error_iff (w : ProgWord) :
    (∃ e, decodeControl w = .error e) ↔
      g3Field w ∈ [0b101, 0b110, 0b111] ∨ (lowField w ≠ 0 ∧ g3Field w ∈ [0b000, 0b001, 0b100]) := by
  unfold decodeControl
  split
  case h_6 h0 h1 h2 h3 h4 =>
    have hg3 : g3Field w ∈ [0b101, 0b110, 0b111] := by
      generalize g3Field w = g at h0 h1 h2 h3 h4 ⊢
      revert g
      decide
    exact iff_of_true (exists_error_eq_error _) (Or.inl hg3)
  all_goals
    next hg3 => simp [decodeNoOperand_error_iff, eq_ofNat_of_toNat hg3]

/-- Items 2 to 4 of R146. -/
theorem decodeGroup_error_iff (w : ProgWord) :
    (∃ e, decodeGroup w = .error e) ↔
      subField w ∈ [0b0000, 0b0110] ∨
      ((subField w ∈ [0b0001, 0b0100, 0b0101, 0b0111, 0b1000, 0b1001, 0b1100, 0b1101] ∧ g3Field w ≠ 0) ∨
        (subField w = 0b1110 ∧ g3Field w ∉ [0b000, 0b001, 0b100]) ∨
        (subField w = 0b1111 ∧ g3Field w ∈ [0b101, 0b110, 0b111])) ∨
      (lowField w ≠ 0 ∧
        ((subField w ∈ [0b0001, 0b0100, 0b0101, 0b1000, 0b1001, 0b1100, 0b1101] ∧ g3Field w = 0) ∨
          (subField w = 0b1110 ∧ g3Field w ∈ [0b000, 0b001, 0b100]) ∨
          (subField w = 0b1111 ∧ g3Field w ∈ [0b000, 0b001, 0b100]))) := by
  unfold decodeGroup
  split
  case h_6 hsub =>
    have hs := eq_ofNat_of_toNat hsub
    split
    · next hg3 => exact iff_of_true (exists_error_eq_error _) (by simpa [hs] using hg3)
    · next hg3 => exact iff_of_false (not_exists_ok_eq_error _) (by simp [hs, not_not.mp hg3])
  case h_13 hsub => rw [decodeReturn_error_iff]; simp [eq_ofNat_of_toNat hsub]
  case h_14 hsub => rw [decodeControl_error_iff]; simp [eq_ofNat_of_toNat hsub]
  case h_15 =>
    have hsub : subField w ∈ [0b0000, 0b0110] := by
      have hlt := (subField w).isLt
      simp only [imp_false] at *
      have hn : (subField w).toNat = 0 ∨ (subField w).toNat = 6 := by omega
      rcases hn with hn | hn <;> simp [eq_ofNat_of_toNat hn]
    exact iff_of_true (exists_error_eq_error _) (Or.inl hsub)
  all_goals
    next hsub => simp [decodePlain_error_iff, eq_ofNat_of_toNat hsub]

/-- All five items of R146. -/
theorem decode_error_iff (w : ProgWord) :
    (∃ e, decode w = .error e) ↔
      (opField w ∈ [0b01101, 0b01110, 0b01111, 0b10111] ∨
        (opField w = 0b00111 ∧ ∃ e, decodeGroup w = .error e) ∨
        (opField w ∈ [0b01100, 0b11100] ∧ w.getLsbD 10 = true)) := by
  unfold decode
  split
  case h_8 hop => simp [eq_ofNat_of_toNat hop]
  case h_13 hop | h_25 hop => simp [decodeAddress_error_iff, eq_ofNat_of_toNat hop]
  case h_29 =>
    have hop : opField w ∈ [0b01101, 0b01110, 0b01111, 0b10111] := by
      have hlt := (opField w).isLt
      simp only [imp_false] at *
      have hn : (opField w).toNat = 13 ∨ (opField w).toNat = 14 ∨ (opField w).toNat = 15 ∨ (opField w).toNat = 23 := by
        omega
      rcases hn with hn | hn | hn | hn <;> simp [eq_ofNat_of_toNat hn]
    exact iff_of_true (exists_error_eq_error _) (Or.inl hop)
  all_goals
    next hop => simp [eq_ofNat_of_toNat hop]

/-- Settles O1: each word by evaluating its fields. -/
theorem specWordsDecode : Obligations.SpecWordsDecode := by
  refine ⟨rfl, rfl, rfl, rfl, rfl, rfl, rfl, rfl, rfl, rfl, rfl, rfl, rfl, rfl, rfl⟩

end Sys2Proof.Machine
end

section
/-! What a step does, by what stands before it (60_exceptions.md R420, 30_encoding.md R141). -/

namespace Sys2Proof.Machine

/-! ### One step, by the mode, when no reset is applied -/

theorem step_reset {s : State} {kind : ResetKind} (h : resetRequest s = some kind) :
    step s = .next (resetCycle kind s) := by
  rw [step, stepBody, h]

theorem step_run {s : State} (hm : s.mode = .run) (h : resetRequest s = none) : step s = boundary s := by
  rw [step, stepBody, h, hm]

theorem step_halt {s : State} {v : Nibble} (hm : s.mode = .halt v) (h : resetRequest s = none) :
    step s = .next (haltCycle v s) := by
  rw [step, stepBody, h, hm]

theorem step_stop {s : State} {v : Nibble} (hm : s.mode = .stop v) (h : resetRequest s = none) :
    step s = .next (stopCycle v s) := by
  rw [step, stepBody, h, hm]

theorem step_stopWait {s : State} (hm : s.mode = .stopWait) (h : resetRequest s = none) :
    step s = .next (stopWaitCycle s) := by
  rw [step, stepBody, h, hm]

theorem step_resetWait {s : State} {kind : ResetKind} {left : Nat} (hm : s.mode = .resetWait kind left)
    (h : resetRequest s = none) : step s = .next (resetWaitCycle kind left s) := by
  rw [step, stepBody, h, hm]

/-! ### One step in Run mode -/

theorem step_accept {s : State} {src : RequestFlag} (hm : s.mode = .run) (h : resetRequest s = none)
    (ha : acceptable s = some src) : step s = .next (advanceCycle (acceptInterrupt s src)) := by
  rw [step_run hm h, boundary, ha]

theorem step_fetch {s : State} (hm : s.mode = .run) (h : resetRequest s = none) (ha : acceptable s = none) :
    step s = fetchExecute s := by
  rw [step_run hm h, boundary, ha]

theorem fetchExecute_skip {s : State} (hs : s.skip = true) :
    fetchExecute s = .next (advanceCycle { fetched s with skip := false }) := by
  rw [fetchExecute, if_pos hs]

theorem fetchExecute_ok {s : State} {i : Instr} (hs : s.skip = false) (hd : decode (romRead s s.pc) = .ok i) :
    fetchExecute s = executeAt i (fetched s) := by
  rw [fetchExecute, if_neg (by rw [hs]; nofun), hd]

theorem fetchExecute_error {s : State} {e : DecodeError} (hs : s.skip = false)
    (hd : decode (romRead s s.pc) = .error e) :
    fetchExecute s = .refused (.unassignedWord (romRead s s.pc)) := by
  rw [fetchExecute, if_neg (by rw [hs]; nofun), hd]

theorem or_and_or_or_iff (a p q r t e : Prop) :
    (a ∨ (p ∧ (q ∨ r ∨ t)) ∨ e) ↔ (a ∨ (p ∧ q) ∨ (p ∧ r) ∨ (p ∧ t) ∨ e) := by
  rw [and_or_left, and_or_left, or_assoc, or_assoc]

/-- Settles O4: the words by the five items that the two levels of the opcode map reject, the stop by the fetch. -/
theorem unassignedWords : Obligations.UnassignedWords := by
  refine ⟨fun w => ?words, fun s e hm hr ha hs hd => ?stops, rfl, rfl⟩
  case words =>
    rw [decode_error_iff, decodeGroup_error_iff]
    exact or_and_or_or_iff ..
  case stops => rw [step_fetch hm hr ha, fetchExecute_error hs hd]

end Sys2Proof.Machine
end

section
/-! What an instruction can do, once for all 47, and what follows for every step: the invariant, and what no step
touches. -/

namespace Sys2Proof.Machine

/-- Everything that an instruction which completes can leave of a state, in the terms of the shared operations. -/
inductive ExecEffect (s : State) : State → Prop
  /-- Registers and flags of the CPU only. -/
  | registers (pc : RomAddr) (ar : BitVec 10) (wr : Nibble) (ix : BitVec 7) (psw : Psword) (inte eiHold skip : Bool) :
      ExecEffect s { s with
        pc := pc, ar := ar, wr := wr, ix := ix, psw := psw, inte := inte, eiHold := eiHold, skip := skip }
  | arith (a : DmAddr) (x : AluResult) : ExecEffect s (arithCommit s a x)
  | store (psw : Psword) (a : DmAddr) (v : Nibble) : ExecEffect s (dmWrite { s with psw := psw } a v)
  | loadDbfLow (v : BitVec 8) : ExecEffect s (setDbfLow s v)
  | loadDbf (v : BitVec 16) : ExecEffect s (setDbf s v)
  | pushed {v : RomAddr} {t : State} (h : push s v = some t) (pc : RomAddr) : ExecEffect s { t with pc := pc }
  | popped {v : RomAddr} {t : State} (h : pop s = some (v, t)) (pc : RomAddr) (ar : BitVec 10) (psw : Psword)
      (skip : Bool) : ExecEffect s { t with pc := pc, ar := ar, psw := psw, skip := skip }
  | table {v w : RomAddr} {t u : State} {d : BitVec 16} (ht : push s v = some t) (hu : pop (setDbf t d) = some (w, u)) :
      ExecEffect s { u with pc := w }
  | stackReset : ExecEffect s (internalReset s)
  | control (stale : Option (RequestFlag × Bool)) (a : DmAddr) (v : Nibble) :
      ExecEffect s (rfWrite { s with irqStale := stale } a v)
  | peripheral (p : BitVec 7) (d : BitVec 16) : ExecEffect s (periphPut s p d)
  | halt {h : Nibble} (hl : h.getLsbD 2 = false ∧ h.getLsbD 0 = false) : ExecEffect s (haltLegal s h)
  | stop {v : Nibble} (hv : v = 0 ∨ v = 8) : ExecEffect s (stopLegal s v)

/-! ### The shared bodies -/

theorem effect_unchanged (s : State) : ExecEffect s s := .registers s.pc s.ar s.wr s.ix s.psw s.inte s.eiHold s.skip

theorem effect_dmWrite (s : State) (a : DmAddr) (v : Nibble) : ExecEffect s (dmWrite s a v) := .store s.psw a v

theorem effect_arithRM {alu : Bool → Nibble → Nibble → Bool → AluResult} {c : Bool} {r : BitVec 4} {m : DmAddr}
    {s t : State} (h : arithRM alu c r m s = .next t) : ExecEffect s t := by
  obtain ⟨x, -, rfl⟩ := withAddress_elim h
  exact .arith ..

theorem effect_arithMI {alu : Bool → Nibble → Nibble → Bool → AluResult} {c : Bool} {n4 : Nibble} {m : DmAddr}
    {s t : State} (h : arithMI alu c m n4 s = .next t) : ExecEffect s t := by
  obtain ⟨x, -, rfl⟩ := withAddress_elim h
  exact .arith ..

/-- A store at an operand address is a store. -/
theorem effect_storeAt {a : Except Fault DmAddr} {d : DmAddr → DmAddr} {v : DmAddr → Nibble} {s t : State}
    (h : withAddress a (fun x => dmWrite s (d x) (v x)) = .next t) : ExecEffect s t := by
  obtain ⟨x, -, rfl⟩ := withAddress_elim h
  exact effect_dmWrite ..

theorem effect_bitTest {holds : Nibble → Bool} {m : DmAddr} {s t : State} (h : bitTest holds m s = .next t) :
    ExecEffect s t := by
  obtain ⟨x, -, rfl⟩ := withAddress_elim h
  rw [skipIf_eq]
  exact .registers s.pc s.ar s.wr s.ix _ s.inte s.eiHold _

theorem effect_compareSkip {holds : Nibble → Bool} {m : DmAddr} {s t : State} (h : compareSkip holds m s = .next t) :
    ExecEffect s t := by
  obtain ⟨x, -, rfl⟩ := withAddress_elim h
  rw [skipIf_eq]
  exact .registers s.pc s.ar s.wr s.ix s.psw s.inte s.eiHold _

theorem effect_callTo (s : State) (a : RomAddr) : ExecEffect s (callTo s a) := by
  unfold callTo
  split
  · exact .stackReset
  · next h => exact .pushed h a

theorem effect_returnTo (s : State) : ExecEffect s (returnTo s) := by
  unfold returnTo
  split
  · exact .stackReset
  · next t h => exact .popped h _ t.ar t.psw t.skip

theorem effect_returnFromInterrupt (s : State) : ExecEffect s (returnFromInterrupt s) := by
  unfold returnFromInterrupt
  split
  · exact .stackReset
  · next t h => exact .popped h _ t.ar _ t.skip

theorem effect_retsk {s t : State} (h : execRetsk s = .next t) : ExecEffect s t := by
  unfold execRetsk at h
  split at h <;> cases h
  · exact .stackReset
  · next u hp => exact .popped hp _ u.ar u.psw true

theorem effect_popAR {s t : State} (h : execPopAR s = .next t) : ExecEffect s t := by
  unfold execPopAR at h
  split at h <;> cases h
  · exact .stackReset
  · next u hp => exact .popped hp u.pc _ u.psw u.skip

theorem effect_pushAR (s : State) : ExecEffect s ((push s s.ar).getD (internalReset s)) := by
  cases h : push s s.ar with
  | none => exact .stackReset
  | some t => exact .pushed h t.pc

theorem effect_movt {s t : State} (h : execMovt s = .next t) : ExecEffect s t := by
  unfold execMovt at h
  split at h
  · cases h
    exact .stackReset
  · next ht =>
    split at h <;> cases h
    · exact .stackReset
    · next hu => exact .table ht hu

theorem effect_get {p : BitVec 7} {s t : State} (h : execGet p s = .next t) : ExecEffect s t := by
  unfold execGet at h
  split at h <;> cases h
  · exact .loadDbfLow _
  · exact .loadDbf _

/-- The operands of `STOP` whose fixed bits are 0. -/
theorem stop_operand_legal_iff (v : Nibble) : v.extractLsb' 0 3 = 0 ↔ v = 0 ∨ v = 8 := by
  revert v
  decide

theorem effect_stop {v : Nibble} {s t : State} (h : execStop v s = .next t) : ExecEffect s t := by
  unfold execStop at h
  split at h
  · cases h
  · next hv =>
    cases h
    exact .stop ((stop_operand_legal_iff v).mp (not_not.mp hv))

theorem effect_halt {v : Nibble} {s t : State} (h : execHalt v s = .next t) : ExecEffect s t := by
  unfold execHalt at h
  split at h
  · cases h
  · next hv =>
    cases h
    exact .halt (by simpa only [Bool.or_eq_true, not_or, Bool.not_eq_true] using hv)

theorem effect_movToInd {r : BitVec 4} {m : DmAddr} {s t : State} (h : execMovToInd r m s = .next t) :
    ExecEffect s t := by
  unfold execMovToInd at h
  split at h
  · exact effect_storeAt (d := id) (v := fun _ => _) h
  · cases h

theorem effect_movFromInd {m : DmAddr} {r : BitVec 4} {s t : State} (h : execMovFromInd m r s = .next t) :
    ExecEffect s t := by
  unfold execMovFromInd at h
  split at h
  · exact effect_storeAt (d := fun _ => _) h
  · cases h

/-- What an instruction does is one of the effects. -/
theorem exec_effect {i : Instr} {s t : State} (h : exec i s = .next t) : ExecEffect s t := by
  cases i with
  | addRM r m | addcRM r m | subRM r m | subcRM r m => exact effect_arithRM h
  | addMI m n4 | addcMI m n4 | subMI m n4 | subcMI m n4 => exact effect_arithMI h
  | orRM r m | andRM r m | xorRM r m | ld r m => exact effect_storeAt (d := fun _ => eaR s r) h
  | orMI m n4 | andMI m n4 | xorMI m n4 => exact effect_storeAt (d := id) h
  | st m r | movMI m n4 => exact effect_storeAt (d := id) (v := fun _ => _) h
  | skt m n => exact effect_bitTest (holds := fun v => v &&& n == n) h
  | skf m n => exact effect_bitTest (holds := fun v => v &&& n == 0) h
  | ske m n => exact effect_compareSkip (holds := fun v => v == n) h
  | skne m n => exact effect_compareSkip (holds := fun v => v != n) h
  | skge m n => exact effect_compareSkip (holds := fun v => decide (n.toNat ≤ v.toNat)) h
  | sklt m n => exact effect_compareSkip (holds := fun v => decide (v.toNat < n.toNat)) h
  | movToInd r m => exact effect_movToInd h
  | movFromInd m r => exact effect_movFromInd h
  | movt => exact effect_movt h
  | popAR => exact effect_popAR h
  | get p => exact effect_get h
  | retsk => exact effect_retsk h
  | stop v => exact effect_stop h
  | halt v => exact effect_halt h
  | incAR => cases h; exact .registers s.pc _ s.wr s.ix s.psw s.inte s.eiHold s.skip
  | incIX => cases h; exact .registers s.pc s.ar s.wr _ s.psw s.inte s.eiHold s.skip
  | peek rf => cases h; exact .registers s.pc s.ar _ s.ix s.psw s.inte s.eiHold s.skip
  | br a | brAR => cases h; exact .registers _ s.ar s.wr s.ix s.psw s.inte s.eiHold s.skip
  | ei => cases h; exact .registers s.pc s.ar s.wr s.ix s.psw _ _ s.skip
  | di => cases h; exact .registers s.pc s.ar s.wr s.ix s.psw _ s.eiHold s.skip
  | nop => cases h; exact effect_unchanged s
  | rorc r => cases h; exact .store ..
  | pushAR => cases h; exact effect_pushAR s
  | poke rf => cases h; exact .control ..
  | put p => cases h; exact .peripheral ..
  | call a | callAR => cases h; exact effect_callTo ..
  | ret => cases h; exact effect_returnTo s
  | reti => cases h; exact effect_returnFromInterrupt s

/-! ### Every effect keeps the invariant and leaves the chip alone -/

/-- In Run mode, as the fetch leaves the state, every effect of an instruction keeps the invariant. -/
theorem Inv.effect {s t : State} (h : Inv s) (hm : s.mode = .run)
    (hi : s.skip = false ∧ s.eiHold = false ∧ s.irqStale = none) (he : ExecEffect s t) : Inv t := by
  cases he with
  | registers => exact h.congr_run hm rfl
  | arith a x => exact h.arithCommit a x
  | store psw a v =>
    have h0 : Inv { s with psw := psw } := h.congr rfl rfl
    exact h0.dmWrite a v
  | loadDbfLow v => exact h.setDbfLow v
  | loadDbf v => exact h.setDbf v
  | pushed hp => exact (h.push hp).congr rfl rfl
  | popped hp =>
    obtain ⟨-, rfl, -⟩ := pop_some_elim hp
    exact (h.pop hp).congr_run hm rfl
  | table ht hu => exact (((h.push ht).setDbf _).pop hu).congr rfl rfl
  | stackReset => exact h.internalReset
  | control stale a v =>
    have h0 : Inv { s with irqStale := stale } := h.congr_run hm rfl
    exact h0.rfWrite a v
  | peripheral p d => exact h.periphPut p d
  | halt hl => exact h.haltLegal hi hl
  | stop hv => exact h.stopLegal hi hv

theorem chip_effect {s t : State} (he : ExecEffect s t) : chip t = chip s := by
  cases he with
  | registers => rfl
  | arith a x => exact chip_arithCommit s a x
  | store psw a v => exact chip_dmWrite _ a v
  | loadDbfLow v => exact chip_setDbfLow s v
  | loadDbf v => exact chip_setDbf s v
  | pushed hp => exact (chip_push hp :)
  | popped hp => exact (chip_pop hp :)
  | table ht hu => exact (chip_pop hu).trans ((chip_setDbf ..).trans (chip_push ht))
  | stackReset => exact chip_internalReset s
  | control stale a v => exact chip_rfWrite _ a v
  | peripheral p d => exact chip_periphPut s p d
  | halt hl => exact chip_haltLegal ..
  | stop hv => exact chip_stopLegal ..

/-! ### What a step can do -/

/-- Everything a step that answers can do (R420, R432, R435; 70_reset_and_hazards.md R461). -/
theorem step_cases {s t : State} (h : step s = .next t) :
    (∃ kind, t = resetCycle kind s) ∨
    (s.mode = .run ∧ ∃ src, t = advanceCycle (acceptInterrupt s src)) ∨
    (s.mode = .run ∧ s.skip = true ∧ t = advanceCycle { fetched s with skip := false }) ∨
    (s.mode = .run ∧ s.skip = false ∧ ∃ i u, exec i (fetched s) = .next u ∧
      t = advanceBy (instructionCycles i (fetched s)) u) ∨
    (∃ v, s.mode = .halt v ∧ t = haltCycle v s) ∨
    (∃ v, s.mode = .stop v ∧ t = stopCycle v s) ∨
    (s.mode = .stopWait ∧ t = stopWaitCycle s) ∨
    (∃ kind left, s.mode = .resetWait kind left ∧ t = resetWaitCycle kind left s) := by
  cases hr : resetRequest s with
  | some kind =>
    rw [step_reset hr] at h
    cases h
    exact .inl ⟨kind, rfl⟩
  | none =>
    refine .inr ?_
    cases hm : s.mode with
    | run =>
      cases ha : acceptable s with
      | some src =>
        rw [step_accept hm hr ha] at h
        cases h
        exact .inl ⟨rfl, src, rfl⟩
      | none =>
        rw [step_fetch hm hr ha] at h
        cases hs : s.skip with
        | true =>
          rw [fetchExecute_skip hs] at h
          cases h
          exact .inr (.inl ⟨rfl, rfl, rfl⟩)
        | false =>
          cases hd : decode (romRead s s.pc) with
          | error e =>
            rw [fetchExecute_error hs hd] at h
            cases h
          | ok i =>
            rw [fetchExecute_ok hs hd, executeAt] at h
            split at h
            · next u hu =>
              cases h
              exact .inr (.inr (.inl ⟨rfl, rfl, i, u, hu, rfl⟩))
            · cases h
            · cases h
    | halt v =>
      rw [step_halt hm hr] at h
      cases h
      exact .inr (.inr (.inr (.inl ⟨v, rfl, rfl⟩)))
    | stop v =>
      rw [step_stop hm hr] at h
      cases h
      exact .inr (.inr (.inr (.inr (.inl ⟨v, rfl, rfl⟩))))
    | stopWait =>
      rw [step_stopWait hm hr] at h
      cases h
      exact .inr (.inr (.inr (.inr (.inr (.inl ⟨rfl, rfl⟩)))))
    | resetWait kind left =>
      rw [step_resetWait hm hr] at h
      cases h
      exact .inr (.inr (.inr (.inr (.inr (.inr ⟨kind, left, rfl, rfl⟩)))))

/-! ### The cycles outside Run mode keep the invariant -/

theorem Inv.haltCycle {s : State} (h : Inv s) (v : Nibble) : Inv (haltCycle v s) := by
  unfold Machine.haltCycle
  dsimp only
  split
  · exact h.advanceCycle.toRun
  · exact h.advanceCycle

/-- Leaving one mode outside Run mode for another leaves nothing pending either. -/
theorem Inv.toStopWait {s : State} (h : Inv s) (hm : s.mode ≠ .run) (c : BitVec 8) :
    Inv { s with mode := .stopWait, timer := { s.timer with tmc := c } } :=
  { h with mode := trivial, idle := .inr (h.idle.resolve_left hm) }

theorem Inv.stopCycle {s : State} {v : Nibble} (h : Inv s) (hm : s.mode = .stop v) : Inv (stopCycle v s) := by
  have hmode : (Machine.advanceCycle s).mode ≠ .run := by
    rw [advanceCycle_mode, hm]
    nofun
  unfold Machine.stopCycle
  dsimp only
  split
  · exact h.advanceCycle.toStopWait hmode 0
  · exact h.advanceCycle

theorem Inv.waitAdvance {s : State} (h : Inv s) : Inv (waitAdvance s) := by
  have h0 : Inv { s with timer := { s.timer with presc := s.timer.presc + 16 } } := h.congr rfl rfl
  exact h0.sioStopped.intEdge

theorem Inv.waitCount {s : State} (h : Inv s) : Inv (waitCount s) := by
  unfold Machine.waitCount
  split
  · exact h.toRun.congr rfl rfl
  · exact h.congr rfl rfl

theorem Inv.stopWaitCycle {s : State} (h : Inv s) : Inv (stopWaitCycle s) := by
  unfold Machine.stopWaitCycle
  dsimp only
  split
  · exact h.nextInputs.waitAdvance.waitCount.tick
  · exact h.nextInputs.waitAdvance.tick

theorem Inv.resetWaitCycle {s : State} {kind : ResetKind} {left : Nat} (h : Inv s)
    (hm : s.mode = .resetWait kind left) : Inv (resetWaitCycle kind left s) := by
  have hmode : (Machine.nextInputs s).mode = s.mode := congrArg Prod.snd (cpu_nextInputs s)
  have hleft : 1 ≤ left ∧ left ≤ resetWaitCycles := by
    have := h.mode
    rwa [hm] at this
  have hidle := h.nextInputs.idle.resolve_left (by rw [hmode, hm]; nofun)
  unfold Machine.resetWaitCycle
  dsimp only
  refine Inv.tick { h.nextInputs with mode := ?_, idle := .inr hidle }
  split
  · trivial
  · exact ⟨by omega, by omega⟩

/-- Settles O60: whatever a step does is made of operations that keep the invariant, the instruction by its effect from
the state that the fetch leaves, in which no skip, hold or stale flag is pending. -/
theorem invariantKept : Obligations.InvariantKept := by
  intro s t h hstep
  rcases step_cases hstep with ⟨kind, rfl⟩ | ⟨-, src, rfl⟩ | ⟨hm, -, rfl⟩ | ⟨hm, hs, i, u, hu, rfl⟩ | ⟨v, -, rfl⟩ |
    ⟨v, hm, rfl⟩ | ⟨-, rfl⟩ | ⟨kind, left, hm, rfl⟩
  · exact (h.takeReset kind).nextInputs.tick
  · exact (h.acceptInterrupt src).advanceCycle
  · exact Inv.advanceCycle (h.congr_run hm rfl)
  · have hf : Inv (fetched s) := h.congr_run hm rfl
    exact Inv.advanceBy (hf.effect hm ⟨hs, rfl, rfl⟩ (exec_effect hu)) _
  · exact h.haltCycle v
  · exact h.stopCycle hm
  · exact h.stopWaitCycle
  · exact h.resetWaitCycle hm

/-- Settles O59: the reset state lists nothing, and its registers are at their reset values. -/
theorem invariantAtReset : Obligations.InvariantAtReset where
  ram := cellsWf_nil _
  rom := cellsWf_nil _
  sp := by decide
  cnt := by decide
  comparator := ⟨rfl, rfl⟩
  mode := trivial
  idle := .inl rfl
  timer _ h := absurd h (by decide)

/-! ### What no step touches -/

theorem chip_step {s t : State} (h : step s = .next t) : chip t = chip s := by
  rcases step_cases h with ⟨kind, rfl⟩ | ⟨-, src, rfl⟩ | ⟨-, -, rfl⟩ | ⟨-, -, i, u, hu, rfl⟩ | ⟨v, -, rfl⟩ | ⟨v, -, rfl⟩ |
    ⟨-, rfl⟩ | ⟨kind, left, -, rfl⟩
  · exact chip_resetCycle kind s
  · rw [chip_advanceCycle, chip_acceptInterrupt]
  · rw [chip_advanceCycle]
    rfl
  · rw [chip_advanceBy, chip_effect (exec_effect hu), chip_fetched]
  · exact chip_haltCycle v s
  · exact chip_stopCycle v s
  · exact chip_stopWaitCycle s
  · exact chip_resetWaitCycle kind left s

theorem romWords_eq (p : Part) : romWords p = if p = .u17120 ∨ p = .u17121 then 768 else 1024 := by
  cases p <;> rfl

/-- Settles O58: the read by the size of the part's program memory, the rest because a step leaves the chip alone and a
read depends on nothing else. -/
theorem programMemoryConstant : Obligations.ProgramMemoryConstant := by
  refine ⟨fun s a => by rw [romRead, romWords_eq], fun s t h => ?_⟩
  obtain ⟨hpart, hmask, hrom⟩ := chip_eq_iff.mp (chip_step h)
  exact ⟨fun a => by rw [romRead, romRead, hpart, hrom], hrom, hpart, hmask⟩

end Sys2Proof.Machine
end

section
/-! Operand addresses (20_memory.md R112 to R114), the arithmetic unit (40_add.md R201, R202), the increments, the tests and
comparisons (43_test_compare.md) and the rotation (44_rotate.md). -/

namespace Sys2Proof.Machine

/-! ### Operand addresses -/

/-- Settles O7. -/
theorem effectiveAddress : Obligations.EffectiveAddress := by
  intro s m
  rw [eaM]
  simp only [Bool.and_eq_true]

/-- Settles O8: the row of the address is chosen by MPE, then by IXE. -/
theorem indirectAddress : Obligations.IndirectAddress := by
  intro s m r
  refine ⟨rfl, ?_⟩
  rw [eaInd, indRow, eaR]
  simp only [Bool.and_eq_true]
  split
  · rfl
  · split
    · rfl
    · split <;> rfl

/-- No operand `m` has an address with IXE = 1 and MPE = 1 (R112). -/
theorem eaM_prohibited {s : State} (m : DmAddr) (hixe : s.psw.ixe = true) (hmpe : s.mpe = true) :
    eaM s m = .error .prohibitedIndexMode := by
  rw [eaM, hixe, hmpe]
  rfl

/-- Settles O9: each of the instructions goes on from the address of its operand `m`, and there is none. -/
theorem prohibitedIndexSettingStops : Obligations.ProhibitedIndexSettingStops := by
  intro s i m x hixe hmpe
  have hm := eaM_prohibited m hixe hmpe
  have stops (k : DmAddr → State) : withAddress (eaM s m) k = .fault .prohibitedIndexMode := by
    rw [hm, withAddress_error]
  have toInd : execMovToInd x m s = .fault .prohibitedIndexMode := by rw [execMovToInd, hm]
  have fromInd : execMovFromInd m x s = .fault .prohibitedIndexMode := by rw [execMovFromInd, hm]
  revert i
  simp only [List.forall_mem_cons]
  exact ⟨stops _, stops _, stops _, stops _, stops _, stops _, stops _, stops _, stops _, stops _, stops _, stops _,
    stops _, stops _, stops _, stops _, stops _, stops _, stops _, stops _, stops _, stops _, toInd, fromInd, stops _,
    nofun⟩

/-! ### The arithmetic unit -/

theorem aluAdd_binary (a b : Nibble) (c : Bool) : aluAdd false a b c = addBin a b c := rfl

theorem aluSub_binary (a b : Nibble) (c : Bool) : aluSub false a b c = subBin a b c := rfl

theorem aluAdd_decimal (a b : Nibble) (c : Bool) : aluAdd true a b c = addBcd a b c := rfl

theorem aluSub_decimal (a b : Nibble) (c : Bool) : aluSub true a b c = subBcd a b c := rfl

theorem addBin_sum (a b : Nibble) (c : Bool) :
    (addBin a b c).res.toNat = (a.toNat + b.toNat + c.toNat) % 16 ∧
      ((addBin a b c).cy = true ↔ 16 ≤ a.toNat + b.toNat + c.toNat) :=
  ⟨BitVec.toNat_ofNat .., decide_eq_true_iff⟩

theorem subBin_difference (a b : Nibble) (c : Bool) :
    (subBin a b c).res.toNat = (a.toNat + 32 - b.toNat - c.toNat) % 16 ∧
      ((subBin a b c).cy = true ↔ a.toNat < b.toNat + c.toNat) := by
  have ha := a.isLt
  have hb := b.isLt
  have hc := c.toNat_le
  constructor
  · simp only [subBin, BitVec.toNat_ofInt]
    omega
  · simp only [subBin, decide_eq_true_iff]
    omega

/-- Settles O10. -/
theorem binaryArithmetic : Obligations.BinaryArithmetic := by
  intro a b c
  rw [aluAdd_binary, aluSub_binary]
  exact ⟨(addBin_sum a b c).1, (addBin_sum a b c).2, (subBin_difference a b c).1, (subBin_difference a b c).2⟩

/-- The table of decimal addition, by the sum. -/
theorem bcdAddRes_spec : ∀ n < 32,
    (n ≤ 19 → (bcdAddRes.getD n 0).toNat = n % 10) ∧ (19 < n → 10 ≤ (bcdAddRes.getD n 0).toNat) := by
  decide

/-- The table of decimal subtraction, by the difference modulo 32. -/
theorem bcdSubRes_spec : ∀ n < 32,
    (n ≤ 9 → (bcdSubRes.getD n 0).toNat = n) ∧ (9 < n → n < 22 → 10 ≤ (bcdSubRes.getD n 0).toNat) ∧
      (22 ≤ n → (bcdSubRes.getD n 0).toNat = n - 22) := by
  decide

/-- The index that decimal subtraction looks up is the difference, borrow and all, modulo 32. -/
theorem subBcd_index (a b : Nibble) (c : Bool) :
    16 * (subBin a b c).cy.toNat + (subBin a b c).res.toNat = (a.toNat + 32 - b.toNat - c.toNat) % 32 := by
  obtain ⟨hres, hcy⟩ := subBin_difference a b c
  have ha := a.isLt
  have hb := b.isLt
  have hc := c.toNat_le
  rw [hres]
  cases h : (subBin a b c).cy
  · have hnot : ¬a.toNat < b.toNat + c.toNat := fun hlt => by simp [hcy.mpr hlt] at h
    rw [Bool.toNat_false]
    omega
  · have hlt := hcy.mp h
    rw [Bool.toNat_true]
    omega

theorem addBcd_eq (a b : Nibble) (c : Bool) {n : Nat} (hn : n = a.toNat + b.toNat + c.toNat) :
    addBcd a b c = { res := bcdAddRes.getD n 0, cy := decide (10 ≤ n) } := by
  subst hn
  rfl

theorem subBcd_eq (a b : Nibble) (c : Bool) {n : Nat} (hn : n = (a.toNat + 32 - b.toNat - c.toNat) % 32) :
    subBcd a b c = { res := bcdSubRes.getD n 0, cy := decide (10 ≤ n) } := by
  rw [hn, ← subBcd_index a b c]
  rfl

/-- Settles O11: by the two tables, at the sum and at the difference modulo 32. -/
theorem decimalArithmetic : Obligations.DecimalArithmetic := by
  intro a b c
  have ha := a.isLt
  have hb := b.isLt
  have hc := c.toNat_le
  obtain ⟨addDigit, addShaded⟩ := bcdAddRes_spec (a.toNat + b.toNat + c.toNat) (by omega)
  obtain ⟨subDigit, subShaded, subBorrow⟩ :=
    bcdSubRes_spec ((a.toNat + 32 - b.toNat - c.toNat) % 32) (Nat.mod_lt _ (by decide))
  rw [aluAdd_decimal, aluSub_decimal, addBcd_eq a b c rfl, subBcd_eq a b c rfl]
  refine ⟨fun h => ⟨addDigit h, decide_eq_true_iff⟩, fun h => ⟨decide_eq_true (by omega), addShaded h⟩,
    fun h1 h2 => ⟨?_, decide_eq_true_iff.trans (by omega)⟩,
    fun h => ⟨decide_eq_true (by omega), subShaded (by omega) (by omega)⟩⟩
  by_cases hlt : a.toNat < b.toNat + c.toNat
  · rw [subBorrow (by omega)]
    omega
  · rw [subDigit (by omega)]
    omega

/-- Settles O14. -/
theorem incrementResults : Obligations.IncrementResults := by
  intro s
  exact ⟨⟨_, rfl, rfl, BitVec.toNat_add s.ar 1⟩, ⟨_, rfl, rfl, BitVec.toNat_add s.ix 1⟩⟩

/-! ### Tests and comparisons -/

theorem exec_skt_next (n : Nibble) {s : State} {m ma : DmAddr} (h : eaM s m = .ok ma) :
    exec (.skt m n) s = .next
      { s with psw := { s.psw with cmp := false }, skip := s.skip || decide (dmRead s .first ma &&& n = n) } :=
  bitTest_next (fun v => v &&& n == n) h

theorem exec_skf_next (n : Nibble) {s : State} {m ma : DmAddr} (h : eaM s m = .ok ma) :
    exec (.skf m n) s = .next
      { s with psw := { s.psw with cmp := false }, skip := s.skip || decide (dmRead s .first ma &&& n = 0) } :=
  bitTest_next (fun v => v &&& n == 0) h

/-- Clearing CMP and setting SKIP changes no read of data memory but that of PSW. -/
theorem dmRead_afterTest (s : State) (sk : Bool) (slot : ReadSlot) {a : DmAddr} (h : a ≠ 0x7F) :
    dmRead { s with psw := { s.psw with cmp := false }, skip := sk } slot a = dmRead s slot a :=
  dmRead_flags s false s.psw.cy s.psw.z sk slot h

/-- Settles O16. -/
theorem bitTestResults : Obligations.BitTestResults := by
  intro s m ma n hma
  exact ⟨⟨_, exec_skt_next n hma, rfl, fun slot a h => dmRead_afterTest s _ slot h⟩,
    ⟨_, exec_skf_next n hma, rfl, fun slot a h => dmRead_afterTest s _ slot h⟩⟩

/-- Settles O17: each comparison is the shared one with its own order. -/
theorem compareResults : Obligations.CompareResults := by
  intro s m ma n hma
  refine ⟨compareSkip_next (fun v => v == n) hma, ?skne,
    compareSkip_next (fun v => decide (n.toNat ≤ v.toNat)) hma,
    compareSkip_next (fun v => decide (v.toNat < n.toNat)) hma⟩
  case skne =>
    have hne : decide (dmRead s .first ma ≠ n) = (dmRead s .first ma != n) := decide_not
    rw [hne]
    exact compareSkip_next (fun v => v != n) hma

/-! ### Rotation -/

/-- CY over the three high bits of a nibble. -/
theorem rotated_eq_nibbleOf (cy : Bool) (a : Nibble) :
    BitVec.ofBool cy ++ a.extractLsb' 1 3 = nibbleOf cy (a.getLsbD 3) (a.getLsbD 2) (a.getLsbD 1) := by
  revert cy a
  decide

/-- Settles O18: the store comes after CY, so the frame is that of the store and that of the flags together. -/
theorem rotateResult : Obligations.RotateResult := by
  intro s r
  refine ⟨_, dmRead s .first (s.rp ++ r), rfl, rfl, ?stored, fun slot b hb hpsw => ?reads⟩
  case stored =>
    rw [← rotated_eq_nibbleOf]
    exact dmWrite_storedAt ..
  case reads =>
    exact (dmWrite_read_other _ _ _ hb).trans (dmRead_flags s s.psw.cmp _ s.psw.z s.skip slot hpsw)

end Sys2Proof.Machine
end

section
/-! The register file (10_state.md R54, R56; 45_transfer.md R255, R263) and the side effects of its writes. -/

namespace Sys2Proof.Machine

/-! ### The map of the register file -/

/-- 40H to 7FH are data memory. -/
theorem rfReg_dm (p : Part) {a : DmAddr} (h : 0x40 ≤ a.toNat) : rfReg p a = .dm a := by
  rw [rfReg, if_pos h]

/-- The addresses below 40H with no control register on any part. -/
theorem rfReg_unused (p : Part) {a : DmAddr} (h : a.toNat < 0x40)
    (hn : a ∉ [0x01, 0x0A, 0x0F, 0x10, 0x11, 0x12, 0x1A, 0x1C, 0x1D, 0x1E, 0x1F, 0x23, 0x24, 0x2F, 0x32, 0x33, 0x34, 0x35,
      0x3D, 0x3E, 0x3F]) : rfReg p a = .unused := by
  rw [rfReg, if_neg (by omega)]
  split
  case h_22 => rfl
  all_goals
    next hk => exact absurd (by simp [eq_ofNat_of_toNat hk]) hn

/-- The four registers of the comparator. -/
theorem rfReg_comparator {p : Part} (h : hasCmp p = true) :
    rfReg p 0x1C = .cmpChannel ∧ rfReg p 0x1D = .cmpReference ∧ rfReg p 0x1E = .cmpStart ∧ rfReg p 0x23 = .analogInput :=
  ⟨if_pos h, if_pos h, if_pos h, if_pos h⟩

/-- On the parts without one their addresses are unused. -/
theorem rfReg_noComparator {p : Part} (h : hasCmp p = false) :
    ∀ a ∈ [(0x1C : DmAddr), 0x1D, 0x1E, 0x23], rfReg p a = .unused := by
  have hn : ¬hasCmp p = true := by simp [h]
  simp only [List.forall_mem_cons]
  exact ⟨if_neg hn, if_neg hn, if_neg hn, if_neg hn, nofun⟩

/-! ### `POKE` -/

/-- A `POKE` of anything but a request flag is the write and nothing else: IRQ_STALE keeps its value. -/
theorem exec_poke_eq {s : State} {rf : DmAddr} (h : ∀ f, rfReg s.part rf ≠ .request f) :
    exec (.poke rf) s = .next (rfWrite s rf s.wr) := by
  have hstale : staleAfterPoke s rf = s.irqStale := by
    unfold staleAfterPoke
    split
    · next f hf => exact absurd hf (h f)
    · rfl
  change Host.Outcome.next (rfWrite { s with irqStale := staleAfterPoke s rf } rf s.wr) = _
  rw [hstale]

theorem exec_poke_unused {s : State} {rf : DmAddr} (h : rfReg s.part rf = .unused) : exec (.poke rf) s = .next s := by
  rw [exec_poke_eq (by rw [h]; nofun), rfWrite, h]

theorem exec_poke_dm {s : State} {rf : DmAddr} (h : 0x40 ≤ rf.toNat) :
    exec (.poke rf) s = .next (dmWrite s rf s.wr) := by
  have hreg := rfReg_dm s.part h
  rw [exec_poke_eq (by rw [hreg]; nofun), rfWrite, hreg]

/-- Settles O22: each plain register is written by its own arm of the map, data memory by `DmWrite`. -/
theorem pokePlainRegisters : Obligations.PokePlainRegisters := by
  intro s
  refine ⟨fun rf h => storedAt_of_exec_eq_dmWrite (exec_poke_dm h), rfl, rfl, rfl, rfl, rfl, rfl, rfl, rfl, rfl, rfl, rfl,
    fun h => ?analogInput, fun h rf hrf => ?noComparator, fun rf h hn => ?unused⟩
  case analogInput =>
    obtain ⟨-, -, -, hreg⟩ := rfReg_comparator h
    rw [exec_poke_eq (by rw [hreg]; nofun), rfWrite, hreg]
  case noComparator => exact exec_poke_unused (rfReg_noComparator h rf hrf)
  case unused => exact exec_poke_unused (rfReg_unused s.part h hn)

/-- Settles O23. -/
theorem pokeRequestFlags : Obligations.PokeRequestFlags := fun _ => ⟨rfl, rfl, rfl⟩

/-- Settles O25. -/
theorem pokeSerialMode : Obligations.PokeSerialMode := fun _ => rfl

/-- Settles O26: by whether a comparison runs, and by bit 1 of WR. -/
theorem pokeComparator : Obligations.PokeComparator := by
  intro s hcmp
  obtain ⟨hchannel, hreference, hstart, -⟩ := rfReg_comparator hcmp
  have channel : exec (.poke 0x1C) s = .next (writeCmpChannel s s.wr) := by
    rw [exec_poke_eq (by rw [hchannel]; nofun), rfWrite, hchannel]
  have reference : exec (.poke 0x1D) s = .next (writeCmpReference s s.wr) := by
    rw [exec_poke_eq (by rw [hreference]; nofun), rfWrite, hreference]
  have start : exec (.poke 0x1E) s = .next (writeCmpStart s s.wr) := by
    rw [exec_poke_eq (by rw [hstart]; nofun), rfWrite, hstart]
  refine ⟨fun hruns => ?runs, fun hidle => ⟨?channel, ?reference, fun h => ?keeps, fun h => ?starts⟩⟩
  case runs =>
    simp only [List.forall_mem_cons]
    refine ⟨?_, ?_, ?_, nofun⟩
    · rw [channel, writeCmpChannel, if_pos hruns]
    · rw [reference, writeCmpReference, if_pos hruns]
    · rw [start, writeCmpStart, if_neg (by simp [hruns])]
  case channel => rw [channel, writeCmpChannel, if_neg (by simp [hidle])]
  case reference => rw [reference, writeCmpReference, if_neg (by simp [hidle])]
  case keeps => rw [start, writeCmpStart, if_neg (by rw [h]; nofun)]
  case starts => rw [start, writeCmpStart, if_pos (by rw [h, hidle]; rfl)]

/-- Settles O27: by the guard of the stack pointer; the internal reset ends IRQ_STALE, so that the `POKE` leaves nothing of
it. -/
theorem pokeStackPointer : Obligations.PokeStackPointer := by
  intro s
  have hpoke : exec (.poke 0x01) s = .next (writeSp s s.wr) := rfl
  rw [hpoke, writeSp]
  exact ⟨fun h => by rw [if_neg (by omega)], fun h => by rw [if_pos h]⟩

/-! ### `POKE` of the timer mode register -/

/-- TMEN with TMM = 00H marks the timer, over the bits that a write of the mode register leaves (R336). -/
theorem markIrregular_timerModeBits (s : State) (v : Nibble) :
    markIrregular (timerModeBits s v) = { s with
      timer := { s.timer with
        tmen := v.getLsbD 3
        tmck := v.extractLsb' 0 2
        tmc := if v.getLsbD 2 then 0 else s.timer.tmc
        tmoutFf := v.getLsbD 2 || s.timer.tmoutFf
        irregular := decide ((s.timer.irregular = true ∧ ¬(v.getLsbD 2 = true ∧ s.timer.tmm ≠ 0)) ∨
          (v.getLsbD 3 = true ∧ s.timer.tmm = 0)) }
      interrupts := { s.interrupts with irqtm := s.interrupts.irqtm && !v.getLsbD 2 } } := by
  have hmark : (s.timer.irregular && (!v.getLsbD 2 || s.timer.tmm == 0) || (v.getLsbD 3 && s.timer.tmm == 0)) =
      decide ((s.timer.irregular = true ∧ ¬(v.getLsbD 2 = true ∧ s.timer.tmm ≠ 0)) ∨
        (v.getLsbD 3 = true ∧ s.timer.tmm = 0)) := by
    rw [Bool.eq_iff_iff]
    simp [imp_iff_not_or]
  rw [timerModeBits_eq, markIrregular, ← hmark]

/-- The level of the count pulse, in the terms of R334. -/
theorem pulseLow_iff (s : State) {n : Nat}
    (hn : n = if s.timer.tmck = 0 then 256 else if s.timer.tmck = 1 then 32 else 2048) :
    pulseLow s = true ↔ if s.timer.tmck = 3 then s.env.int = false else s.timer.presc.toNat % n < n / 2 := by
  by_cases h : s.timer.tmck = 3
  · rw [pulseLow, if_pos h, h]
    exact iff_of_eq (Bool.not_eq_true' _)
  · rw [pulseLow, if_neg h, pulsePeriod_internal h, ← hn]
    exact decide_eq_true_iff

/-- Settles O24: the write is the bits of the register, then the mark of R336, and it counts when it starts the timer with
the pulse it selects low; the count and the mark do not touch each other. -/
theorem pokeTimerMode : Obligations.PokeTimerMode := by
  intro s u n low hn hlow hu
  have hpoke : exec (.poke 0x11) s = .next (writeTimerMode s s.wr) := rfl
  have hbits : markIrregular (timerModeBits s s.wr) = u := by rw [hu, markIrregular_timerModeBits]
  have hpulse : pulseLow (timerModeBits s s.wr) = true ↔ low := by
    rw [hlow, timerModeBits_eq]
    exact pulseLow_iff _ hn
  have hstart : startCounts s s.wr = true ↔
      s.timer.tmen = false ∧ s.wr.getLsbD 3 = true ∧ s.wr.getLsbD 2 = false ∧ low := by
    rw [← hpulse]
    simp only [startCounts, Bool.and_eq_true, Bool.not_eq_true', and_assoc]
  rw [hpoke, writeTimerMode, ← hstart]
  exact ⟨fun h => by rw [if_pos h, markIrregular_timerCount, hbits], fun h => by rw [if_neg h, hbits]⟩

/-! ### `PEEK`, the map of data memory, and the control registers -/

theorem bits2_eq_nibbleOf (x : BitVec 2) : 0#2 ++ x = nibbleOf false false (x.getLsbD 1) (x.getLsbD 0) := by
  revert x
  decide

theorem bits3_eq_nibbleOf (x : BitVec 3) : 0#1 ++ x = nibbleOf false (x.getLsbD 2) (x.getLsbD 1) (x.getLsbD 0) := by
  revert x
  decide

theorem bits4_eq_nibbleOf (x : Nibble) : x = nibbleOf (x.getLsbD 3) (x.getLsbD 2) (x.getLsbD 1) (x.getLsbD 0) := by
  revert x
  decide

theorem high3_eq_nibbleOf (x : BitVec 3) (b : Bool) :
    x ++ BitVec.ofBool b = nibbleOf (x.getLsbD 2) (x.getLsbD 1) (x.getLsbD 0) b := by
  revert x b
  decide

theorem mode_eq_nibbleOf (a b : Bool) (x : BitVec 2) :
    BitVec.ofBool a ++ BitVec.ofBool b ++ x = nibbleOf a b (x.getLsbD 1) (x.getLsbD 0) := by
  revert a b x
  decide

theorem slice4_eq_nibbleOf {w : Nat} (x : BitVec w) (k : Nat) :
    x.extractLsb' k 4 =
      nibbleOf (x.getLsbD (k + 3)) (x.getLsbD (k + 2)) (x.getLsbD (k + 1)) (x.getLsbD k) := by
  rw [bits4_eq_nibbleOf (x.extractLsb' k 4)]
  simp

/-- General-purpose data memory reads as it holds and takes every bit. -/
theorem dmRead_ram {s : State} {a : DmAddr} (slot : ReadSlot) (h : dmCell s.part a = .ram a.toNat) :
    dmRead s slot a = cellsRead s.ram a.toNat ∧ heldNibble s a = cellsRead s.ram a.toNat ∧
      writableBits s.part a = 0b1111 := by
  unfold dmRead heldNibble writableBits
  rw [h]
  exact ⟨rfl, rfl, rfl⟩

/-- An unimplemented nibble holds nothing. -/
theorem dmRead_unmapped {s : State} {a : DmAddr} (slot : ReadSlot) (h : dmCell s.part a = .unmapped) :
    (∀ ram, dmRead { s with ram := ram } slot a = dmRead s slot a) ∧ heldNibble s a = 0 ∧ writableBits s.part a = 0 := by
  unfold dmRead heldNibble writableBits
  dsimp only
  rw [h]
  exact ⟨fun _ => rfl, rfl, rfl⟩

/-- What a read of a system register gives (10_state.md R44). -/
theorem dmRead_system (s : State) (slot : ReadSlot) :
    dmRead s slot 0x74 = 0 ∧ dmRead s slot 0x75 = 0#2 ++ s.ar.extractLsb' 8 2 ∧
    dmRead s slot 0x76 = s.ar.extractLsb' 4 4 ∧ dmRead s slot 0x77 = s.ar.extractLsb' 0 4 ∧
    dmRead s slot 0x78 = s.wr ∧ dmRead s slot 0x79 = 0 ∧ dmRead s slot 0x7A = nibbleOf s.mpe false false false ∧
    dmRead s slot 0x7B = 0#1 ++ s.ix.extractLsb' 4 3 ∧ dmRead s slot 0x7C = s.ix.extractLsb' 0 4 ∧
    dmRead s slot 0x7D = 0 ∧ dmRead s slot 0x7E = s.rp ++ BitVec.ofBool s.psw.bcd ∧
    dmRead s slot 0x7F = nibbleOf s.psw.cmp s.psw.cy s.psw.z s.psw.ixe := by
  obtain ⟨-, -, -, -, -, h4, h5, h6, h7, h8, h9, hA, hB, hC, hD, hE, hF⟩ := dmCell_registers s.part
  unfold dmRead
  rw [h4, h5, h6, h7, h8, h9, hA, hB, hC, hD, hE, hF]
  exact ⟨rfl, rfl, rfl, rfl, rfl, rfl, rfl, rfl, rfl, rfl, rfl, rfl⟩

/-- Which bits of the registers in data memory a write changes (10_state.md R44, R52). -/
theorem writableBits_registers (p : Part) :
    writableBits p 0x6F = 0b0011 ∧ writableBits p 0x70 = 0b1111 ∧ writableBits p 0x71 = 0b1111 ∧
    writableBits p 0x72 = 0b1111 ∧ writableBits p 0x73 = 0b1111 ∧ writableBits p 0x74 = 0 ∧
    writableBits p 0x75 = 0b0011 ∧ writableBits p 0x76 = 0b1111 ∧ writableBits p 0x77 = 0b1111 ∧
    writableBits p 0x78 = 0b1111 ∧ writableBits p 0x79 = 0 ∧ writableBits p 0x7A = 0b1000 ∧
    writableBits p 0x7B = 0b0111 ∧ writableBits p 0x7C = 0b1111 ∧ writableBits p 0x7D = 0 ∧
    writableBits p 0x7E = 0b1111 ∧ writableBits p 0x7F = 0b1111 := by
  cases p <;> decide

/-- The port registers hold their latches. -/
theorem heldNibble_ports (s : State) :
    heldNibble s 0x6F = 0#2 ++ s.ports.poeL ∧ heldNibble s 0x70 = s.ports.poaL ∧ heldNibble s 0x71 = s.ports.pobL ∧
      heldNibble s 0x72 = s.ports.pocL ∧ heldNibble s 0x73 = s.ports.podL := by
  obtain ⟨hE, hA, hB, hC, hD, -⟩ := dmCell_registers s.part
  unfold heldNibble
  rw [hE, hA, hB, hC, hD]
  exact ⟨rfl, rfl, rfl, rfl, rfl⟩

/-- From 74H on an address stands for a system register. -/
theorem dmCell_system (p : Part) : ∀ a : DmAddr, 0x74 ≤ a.toNat →
    dmCell p a ∈ [.ar3, .ar2, .ar1, .ar0, .wr, .bank, .ixh, .ixm, .ixl, .rph, .rpl, .psw] := by
  cases p <;> decide

/-- What the system registers hold is what they read as. -/
theorem heldNibble_system {s : State} {a : DmAddr} (slot : ReadSlot) (h : 0x74 ≤ a.toNat) :
    heldNibble s a = dmRead s slot a := by
  have hcell := dmCell_system s.part a h
  unfold heldNibble dmRead
  generalize dmCell s.part a = c at hcell ⊢
  cases c <;> first | rfl | simp at hcell

/-- Settles O21: the map of data memory and that of the register file, bit by bit. -/
theorem peekResults : Obligations.PeekResults := by
  refine ⟨fun s slot a => ⟨fun h => ?ram, fun h1 h2 hp => ?hole⟩, fun s slot => ?system, fun s => ?control⟩
  case ram =>
    refine dmRead_ram slot ?_
    rcases h with h | ⟨h, h0, h1⟩
    · exact dmCell_low h
    · exact dmCell_high h h0 h1
  case hole => exact dmRead_unmapped slot (dmCell_hole h1 h2 hp)
  case system =>
    obtain ⟨ar3, ar2, ar1, ar0, wr, bank, ixh, ixm, ixl, rph, rpl, psw⟩ := dmRead_system s slot
    obtain ⟨wE, wA, wB, wC, wD, w4, w5, w6, w7, w8, w9, wIxh, wIxm, wIxl, wRph, wRpl, wPsw⟩ :=
      writableBits_registers s.part
    obtain ⟨hE, hA, hB, hC, hD⟩ := heldNibble_ports s
    refine ⟨ar3, w4, ?_, w5, ?_, w6, ?_, w7, wr, w8, bank, w9, ixh, wIxh, ?_, wIxm, ?_, wIxl, rph, wRph, ?_, wRpl,
      psw, wPsw, fun a h => heldNibble_system slot h, hE, wE, hA, wA, hB, wB, hC, wC, hD, wD⟩
    · rw [ar2, bits2_eq_nibbleOf]
      simp
    · rw [ar1, slice4_eq_nibbleOf]
    · rw [ar0, slice4_eq_nibbleOf]
    · rw [ixm, bits3_eq_nibbleOf]
      simp
    · rw [ixl, slice4_eq_nibbleOf]
    · rw [rpl, high3_eq_nibbleOf]
  case control =>
    refine ⟨fun rf => rfl, fun rf h => ?dm, rfl, rfl, rfl, rfl, mode_eq_nibbleOf _ false _, rfl, mode_eq_nibbleOf _ _ _,
      rfl, rfl, rfl, rfl, rfl, rfl, rfl, rfl, rfl, rfl, fun h => ?comparator⟩
    case dm => rw [rfRead, rfReg_dm s.part h]
    case comparator =>
      obtain ⟨hchannel, hreference, hstart, hinput⟩ := rfReg_comparator h
      unfold rfRead
      rw [hchannel, hreference, hstart, hinput]
      exact ⟨rfl, rfl, rfl, rfl⟩

end Sys2Proof.Machine
end

section
/-! The peripheral registers (45_transfer.md R256, R257), the table read, and the users of the address stack
(10_state.md R30 to R34, 46_branch_subroutine.md). -/

namespace Sys2Proof.Machine

/-! ### `GET` and `PUT` -/

/-- `GET` from an address the manual does not describe obtains some word. -/
theorem periphGet_other (s : State) {p : BitVec 7} (h : p ∉ [0x01, 0x02, 0x03, 0x40]) :
    periphGet s p = .word (Config.freeBits 16 s.cycle .unknownPeripheral) := by
  unfold periphGet
  split
  case h_5 => rfl
  all_goals
    next hk => exact absurd (by simp [eq_ofNat_of_toNat hk]) h

/-- `PUT` to TMC or to an address the manual does not describe writes nothing. -/
theorem periphPut_other (s : State) {p : BitVec 7} (d : BitVec 16) (h : p ∉ [0x01, 0x03, 0x40]) :
    periphPut s p d = s := by
  unfold periphPut
  split
  case h_4 => rfl
  all_goals
    next hk => exact absurd (by simp [eq_ofNat_of_toNat hk]) h

/-- Settles O28: an 8-bit register loads the lower half of DBF, every other value all of it. -/
theorem getResults : Obligations.GetResults := by
  intro s
  refine ⟨⟨_, rfl, setDbfLow_loaded ..⟩, ⟨_, rfl, setDbfLow_loaded ..⟩, ⟨_, _, rfl, setDbfLow_loaded ..⟩,
    ⟨_, rfl, setDbf_loaded ..⟩, fun p hp => ⟨setDbf s (Config.freeBits 16 s.cycle .unknownPeripheral), _, ?_,
      setDbf_loaded ..⟩⟩
  change execGet p s = _
  rw [execGet, periphGet_other s hp]

/-- A write of TMM marks a timer that runs with TMM = 00H (R336). -/
theorem writeTmm_eq (s : State) (v : BitVec 8) :
    writeTmm s v = { s with timer := { s.timer with
      tmm := v, irregular := decide (s.timer.irregular = true ∨ (s.timer.tmen = true ∧ v = 0)) } } := by
  have hmark : (s.timer.irregular || (s.timer.tmen && v == 0)) =
      decide (s.timer.irregular = true ∨ (s.timer.tmen = true ∧ v = 0)) := by
    rw [Bool.eq_iff_iff]
    simp
  rw [writeTmm, markIrregular, ← hmark]

/-- Settles O29: `PUT` takes the data buffer as reads of it give it. -/
theorem putResults : Obligations.PutResults := by
  intro s d hd
  have hput (p : BitVec 7) : exec (.put p) s = .next (periphPut s p d) := by
    rw [hd, ← dbf_eq_reads]
    rfl
  refine ⟨hput 0x01, (hput 0x03).trans ?_, hput 0x40, fun p hp => by rw [hput, periphPut_other s d hp]⟩
  exact congrArg Host.Outcome.next (writeTmm_eq s _)

/-! ### The address stack -/

/-- What a push leaves of the stack: the value in its level, every other level as it was. -/
theorem asrWrite_levels (t : AddressStack) (v : RomAddr) {n : Nat} (h : n - 1 < 5) :
    asrRead (asrWrite t (n - 1) v) (n - 1) = v ∧
      ∀ i < 5, i ≠ n - 1 → asrRead (asrWrite t (n - 1) v) i = asrRead t i :=
  ⟨asrRead_write_same t v h, fun _ hi hne => asrRead_write_other t v hi hne⟩

/-- The level that a push has written is the one that the next pop reads. -/
theorem asrRead_pushed {s : State} (v : RomAddr) (h1 : 1 ≤ s.sp.toNat) (h5 : s.sp.toNat ≤ 5) :
    asrRead (asrWrite s.asr (s.sp.toNat - 1) v) (s.sp - 1).toNat = v := by
  rw [sp_sub_one h1 h5]
  exact asrRead_write_same _ _ (by omega)

/-- The table read uses one level and gives it back (R258). -/
theorem exec_movt_next {s : State} (h1 : 1 ≤ s.sp.toNat) (h5 : s.sp.toNat ≤ 5) :
    exec .movt s = .next (setDbf { s with asr := asrWrite s.asr (s.sp.toNat - 1) s.pc } (romRead s s.ar)) := by
  have hsp : s.sp - 1 + 1 = s.sp := BitVec.sub_add_cancel s.sp 1
  have hsub := sp_sub_one h1 h5
  have hpc := asrRead_pushed s.pc h1 h5
  have hpop (d : BitVec 16) :
      pop (setDbf { s with sp := s.sp - 1, asr := asrWrite s.asr (s.sp.toNat - 1) s.pc } d) =
        some (s.pc, { setDbf { s with asr := asrWrite s.asr (s.sp.toNat - 1) s.pc } d with sp := s.sp }) := by
    rw [pop_eq_some (show (s.sp - 1).toNat ≤ 4 by omega)]
    exact congrArg some (Prod.ext hpc (congrArg (fun x =>
      { setDbf { s with asr := asrWrite s.asr (s.sp.toNat - 1) s.pc } d with sp := x }) hsp))
  change execMovt s = _
  rw [execMovt, push_eq_some s.pc h1 h5]
  dsimp only
  rw [hpop]
  rfl

/-- Settles O30: the push and the pop of the table read cancel but for the level they used. -/
theorem movtResult : Obligations.MovtResult := by
  intro s h1 h5
  obtain ⟨here, elsewhere⟩ := asrWrite_levels s.asr s.pc (n := s.sp.toNat) (by omega)
  exact ⟨_, exec_movt_next h1 h5, here, elsewhere, setDbf_loaded ..⟩

/-- Settles O31. -/
theorem pushPopResults : Obligations.PushPopResults := by
  intro s
  refine ⟨fun h1 h5 => ?push, fun h4 => ?pop⟩
  case push =>
    obtain ⟨here, elsewhere⟩ := asrWrite_levels s.asr s.ar (n := s.sp.toNat) (by omega)
    refine ⟨{ s with sp := s.sp - 1, asr := asrWrite s.asr (s.sp.toNat - 1) s.ar }, ?_, rfl, here, elsewhere⟩
    change execPushAR s = _
    rw [execPushAR, push_eq_some s.ar h1 h5]
    rfl
  case pop =>
    change execPopAR s = _
    rw [execPopAR, pop_eq_some h4]

/-- A call with a free level. -/
theorem callTo_eq {s : State} (a : RomAddr) (h1 : 1 ≤ s.sp.toNat) (h5 : s.sp.toNat ≤ 5) :
    callTo s a = { s with sp := s.sp - 1, asr := asrWrite s.asr (s.sp.toNat - 1) s.pc, pc := a } := by
  rw [callTo, push_eq_some s.pc h1 h5]

/-- Settles O33: both calls are one push and a load of pc. -/
theorem callResults : Obligations.CallResults := by
  intro s addr h1 h5
  obtain ⟨here, elsewhere⟩ := asrWrite_levels s.asr s.pc (n := s.sp.toNat) (by omega)
  refine ⟨⟨{ s with sp := s.sp - 1, asr := asrWrite s.asr (s.sp.toNat - 1) s.pc, pc := addr }, ?call, rfl, here, elsewhere⟩,
    ⟨{ s with sp := s.sp - 1, asr := asrWrite s.asr (s.sp.toNat - 1) s.pc, pc := s.ar }, ?callAR, rfl, here, elsewhere⟩⟩
  case call =>
    change execCall (0#1 ++ addr) s = _
    rw [execCall, target_append, callTo_eq addr h1 h5]
  case callAR =>
    change execCallAR s = _
    rw [execCallAR, callTo_eq s.ar h1 h5]

theorem returnFromInterrupt_eq {s : State} (h : s.sp.toNat ≤ 4) :
    returnFromInterrupt s = { s with pc := asrRead s.asr s.sp.toNat, sp := s.sp + 1, psw := s.intsk } := by
  rw [returnFromInterrupt, pop_eq_some h]

/-- Settles O34: each return is one pop into pc. -/
theorem returnResults : Obligations.ReturnResults := by
  intro s h
  refine ⟨?ret, ?retsk, ?reti⟩
  case ret =>
    change execRet s = _
    rw [execRet, returnTo, pop_eq_some h]
  case retsk =>
    change execRetsk s = _
    rw [execRetsk, pop_eq_some h]
    rfl
  case reti =>
    change execReti s = _
    rw [execReti, returnFromInterrupt_eq h]

/-- Settles O35: a push at SP = 0 and a pop at SP = 5 answer nothing, and then every user of the stack is the internal
reset. -/
theorem stackGuard : Obligations.StackGuard := by
  intro s addr
  refine ⟨fun hsp src hm hr ha => ?acceptance, fun hsp => ?pushes, fun hsp => ?pops⟩
  case acceptance => rw [step_accept hm hr ha, acceptInterrupt, (push_eq_none_iff s.pc).mpr (.inl hsp)]
  case pushes =>
    have hpush (v : RomAddr) : push s v = none := (push_eq_none_iff v).mpr (.inl hsp)
    have hcall (a : RomAddr) : callTo s a = internalReset s := by rw [callTo, hpush]
    simp only [List.forall_mem_cons]
    refine ⟨congrArg Host.Outcome.next (hcall _), congrArg Host.Outcome.next (hcall _), ?_, ?_, nofun⟩
    · change execPushAR s = _
      rw [execPushAR, hpush]
      rfl
    · change execMovt s = _
      rw [execMovt, hpush]
  case pops =>
    have hpop : pop s = none := pop_eq_none_iff.mpr (by rw [hsp]; decide)
    simp only [List.forall_mem_cons]
    refine ⟨?_, ?_, ?_, ?_, nofun⟩
    · change execRet s = _
      rw [execRet, returnTo, hpop]
    · change execRetsk s = _
      rw [execRetsk, hpop]
    · change execReti s = _
      rw [execReti, returnFromInterrupt, hpop]
    · change execPopAR s = _
      rw [execPopAR, hpop]

/-- Settles O36. -/
theorem internalResetState : Obligations.InternalResetState := by
  rintro s t rfl
  exact ⟨rfl, rfl, rfl, rfl, rfl, rfl, rfl, rfl, rfl, rfl, rfl, rfl, rfl, rfl, rfl, rfl, rfl, rfl, rfl, rfl, rfl,
    cellsWf_freeRam s⟩

end Sys2Proof.Machine
end

section
/-! The steps of Run mode (60_exceptions.md R420), the interrupts (R421 to R426) and the edge detector of the INT pin
(R413). -/

namespace Sys2Proof.Machine

/-! ### What an instruction cycle is made of -/

/-- A step of an instruction that completes. -/
theorem executeAt_next {i : Instr} {u t : State} (h : exec i u = .next t) :
    executeAt i u = .next
      (if i = .movt ∧ (push u u.pc).isSome = true then advanceCycle (advanceCycle t) else advanceCycle t) := by
  rw [executeAt, h]
  change Host.Outcome.next (advanceBy (instructionCycles i u) t) = _
  by_cases hi : i = .movt ∧ (push u u.pc).isSome = true
  · rw [if_pos hi, advanceBy, instructionCycles, if_pos (if_pos hi)]
  · rw [if_neg hi, advanceBy, instructionCycles, if_neg (by rw [if_neg hi]; decide)]

theorem executeAt_fault {i : Instr} {u : State} {f : Fault} (h : exec i u = .fault f) : executeAt i u = .fault f := by
  rw [executeAt, h]

/-- Without a record to come the waves stay at their last level. -/
theorem nextInputs_hold {s : State} (h : s.pending = []) :
    nextInputs s = { s with env := { s.env with
      sckWave := if s.env.sckWave.getLsbD 15 then 0xFFFF else 0
      siWave := if s.env.siWave.getLsbD 15 then 0xFFFF else 0 } } := by
  rw [nextInputs, h]
  rfl

theorem nextInputs_record {s : State} {e : Inputs} {rest : List Inputs} (h : s.pending = e :: rest) :
    nextInputs s = { s with env := e, pending := rest } := by
  rw [nextInputs, h]

/-- The record of a cycle, or the levels held, is all that the next inputs can be. -/
theorem eq_nextInputs {s n : State}
    (hhold : s.pending = [] → n = { s with env := { s.env with
      sckWave := if s.env.sckWave.getLsbD 15 then 0xFFFF else 0
      siWave := if s.env.siWave.getLsbD 15 then 0xFFFF else 0 } })
    (hrecord : ∀ e rest, s.pending = e :: rest → n = { s with env := e, pending := rest }) : n = nextInputs s := by
  cases h : s.pending with
  | nil => rw [hhold h, nextInputs_hold h]
  | cons e rest => rw [hrecord e rest h, nextInputs_record h]

/-- The mark of R336 lets a cycle end with any count, request and output of the timer, and nothing else. -/
theorem timerIrregular_eq (u : State) : ∃ c o r,
    timerIrregular u = { u with
      timer := { u.timer with tmc := c, tmoutFf := o }, interrupts := { u.interrupts with irqtm := r } } ∧
    (u.timer.irregular = false → c = u.timer.tmc ∧ o = u.timer.tmoutFf ∧ r = u.interrupts.irqtm) := by
  unfold timerIrregular
  split
  · next h => exact ⟨_, _, _, rfl, fun h0 => absurd h (by rw [h0]; nofun)⟩
  · exact ⟨_, _, _, rfl, fun _ => ⟨rfl, rfl, rfl⟩⟩

/-- The INT sample with the conditions of its count written out. -/
theorem intPinSample_eq (w : State) :
    intPinSample w = intEdge (if w.timer.tmck = 3 ∧ w.timer.tmen = true ∧ w.interrupts.intPrev = true ∧ w.env.int = false
      then timerCount w else w) := by
  rw [intPinSample]
  simp only [intFalls, Bool.and_eq_true, decide_eq_true_eq, Bool.not_eq_true', and_assoc]

/-- The comparator acts in Run mode only. -/
theorem advanceRunning_eq (s : State) :
    advanceRunning s = tick (timerIrregular (intPinSample
      (if s.mode = .run then comparatorCycle (sioCycle (timerCycle (nextInputs s)))
        else sioCycle (timerCycle (nextInputs s))))) := by
  have hmode : (sioCycle (timerCycle (nextInputs s))).mode = s.mode := by
    have h : cpuView (sioCycle (timerCycle (nextInputs s))) = cpuView s := by simp
    exact congrArg Prod.snd h
  rw [advanceRunning, hmode]
  cases s.mode <;> rfl

theorem advanceCycle_running {s : State} (h : s.mode = .run ∨ ∃ v, s.mode = .halt v) :
    advanceCycle s = advanceRunning s := by
  rcases h with h | ⟨v, h⟩ <;> rw [advanceCycle, h]

theorem advanceCycle_stopped {s : State} (h : ∃ v, s.mode = .stop v) : advanceCycle s = advanceStopped s := by
  obtain ⟨v, h⟩ := h
  rw [advanceCycle, h]

/-- Settles O5: the boundary goes on to the fetch, the fetch to the instruction, and the cycle after it is that of the
mode. -/
theorem stepRunsDecodedInstruction : Obligations.StepRunsDecodedInstruction := by
  refine ⟨fun s i hm hr ha hs hd u hu => ?instruction, fun s n hhold hrecord => ?cycle⟩
  case instruction =>
    have hstep : step s = executeAt i u := by rw [step_fetch hm hr ha, fetchExecute_ok hs hd, hu, fetched]
    rw [hstep]
    exact ⟨fun t ht => executeAt_next ht, fun f hf => executeAt_fault hf⟩
  case cycle =>
    have hn := eq_nextInputs hhold hrecord
    subst hn
    refine ⟨fun v w u hv hw hu hmode => ?running, fun hmode u hu => ?stopped⟩
    case running =>
      have hadvance : advanceCycle s = tick (timerIrregular u) := by
        rw [advanceCycle_running hmode, advanceRunning_eq, intPinSample_eq, hu, hw, hv]
      obtain ⟨c, o, r, heq, hregular⟩ := timerIrregular_eq u
      exact ⟨c, o, r, by rw [hadvance, heq, tick], hregular⟩
    case stopped => rw [advanceCycle_stopped hmode, advanceStopped, hu, tick]

/-- Settles O6. -/
theorem skippedWordIsNop : Obligations.SkippedWordIsNop := by
  intro s hm hr hs
  have ha : acceptable s = none := by
    rw [acceptable, hs]
    simp
  rw [step_fetch hm hr ha, fetchExecute_skip hs, fetched]

/-! ### Interrupts -/

/-- Settles O37. -/
theorem interruptControlResults : Obligations.InterruptControlResults := fun _ => ⟨rfl, rfl, rfl⟩

/-- Settles O38: by the order in which `highestPending` asks for the three sources. -/
theorem acceptancePriority : Obligations.AcceptancePriority := by
  intro s
  refine ⟨fun h => ?_, fun hinte hskip hhold => ?_⟩
  · rw [acceptable, if_neg]
    rcases h with h | h | h <;> simp [h]
  · have hpending : acceptable s = highestPending s := by
      rw [acceptable, if_pos (by simp [hinte, hskip, hhold])]
    have hnot {a b : Bool} (h : a = false ∨ b = false) : (a && b) = false := by
      rcases h with rfl | rfl
      · exact Bool.false_and b
      · exact Bool.and_false a
    rw [hpending, highestPending]
    refine ⟨fun hq hp => by rw [hq, hp]; rfl, fun h1 => ?_⟩
    rw [hnot h1]
    refine ⟨fun hq hp => by rw [hq, hp]; rfl, fun h2 => ?_⟩
    rw [hnot h2]
    exact ⟨fun hq hp => by rw [hq, hp]; rfl, fun h3 => by rw [hnot h3]; rfl⟩

/-- Taking an interrupt with a free level (R421). -/
theorem acceptInterrupt_eq {s : State} (src : RequestFlag) (h1 : 1 ≤ s.sp.toNat) (h5 : s.sp.toNat ≤ 5) :
    acceptInterrupt s src = { s with
      sp := s.sp - 1
      asr := asrWrite s.asr (s.sp.toNat - 1) s.pc
      intsk := s.psw
      psw := .clear
      inte := false
      interrupts := { s.interrupts with
        irq := s.interrupts.irq && decide (src ≠ .irq)
        irqtm := s.interrupts.irqtm && decide (src ≠ .irqtm)
        irqsio := s.interrupts.irqsio && decide (src ≠ .irqsio) }
      pc := vector src } := by
  rw [acceptInterrupt, push_eq_some s.pc h1 h5]
  cases src <;> simp [setRequest]

/-- Settles O39. -/
theorem interruptAcceptance : Obligations.InterruptAcceptance := by
  intro s src hm hr ha h1 h5
  obtain ⟨here, elsewhere⟩ := asrWrite_levels s.asr s.pc (n := s.sp.toNat) (by omega)
  refine ⟨acceptInterrupt s src, step_accept hm hr ha, ?_⟩
  rw [acceptInterrupt_eq src h1 h5]
  exact ⟨here, elsewhere, by cases src <;> rfl⟩

/-- Settles O40: the return pops the level that the acceptance pushed, and INTSK holds the five flags. -/
theorem interruptReturnRestores : Obligations.InterruptReturnRestores := by
  intro s src h1 h5
  have hsub := sp_sub_one h1 h5
  have hsp : s.sp - 1 + 1 = s.sp := BitVec.sub_add_cancel s.sp 1
  have hpc := asrRead_pushed s.pc h1 h5
  have hlevel : (acceptInterrupt s src).sp.toNat ≤ 4 := by
    rw [acceptInterrupt_eq src h1 h5]
    show (s.sp - 1).toNat ≤ 4
    omega
  refine ⟨returnFromInterrupt (acceptInterrupt s src), rfl, ?_⟩
  rw [returnFromInterrupt_eq hlevel, acceptInterrupt_eq src h1 h5]
  exact ⟨hpc, hsp, rfl, rfl, rfl, rfl, rfl, rfl, rfl, rfl⟩

/-- Settles O41: no cycle of the peripherals ends EI_HOLD. -/
theorem eiDelaysAcceptance : Obligations.EiDelaysAcceptance := by
  intro s
  have hsame := advanceCycle_same { s with inte := true, eiHold := true }
  refine ⟨_, rfl, hsame.inte, ?_⟩
  rw [acceptable, hsame.eiHold]
  simp

/-! ### The INT pin -/

/-- Which pairs of levels set IRQ, by the edge mode (R413). -/
theorem edgeSetsIrq_iff (md : BitVec 2) (prev new : Bool) :
    edgeSetsIrq md prev new = true ↔
      (md = 0 ∧ prev = false ∧ new = true) ∨ (md = 1 ∧ prev = true ∧ new = false) ∨ (md = 2 ∧ prev ≠ new) ∨
        (md = 3 ∧ Config.iegmd11 prev new = true) := by
  have hmd : md = 0 ∨ md = 1 ∨ md = 2 ∨ md = 3 := by
    revert md
    decide
  rcases hmd with rfl | rfl | rfl | rfl <;> simp [edgeSetsIrq]

/-- Settles O42. -/
theorem intEdgeDetection : Obligations.IntEdgeDetection := by
  intro s
  refine ⟨rfl, ?_, rfl⟩
  rw [intEdge_interrupts, ← edgeSetsIrq_iff]
  exact Bool.or_eq_true_iff

end Sys2Proof.Machine
end

section
/-! The standby modes (47_interrupt_other.md R287, R288, R292, R293; 60_exceptions.md R430 to R436). -/

namespace Sys2Proof.Machine

/-! ### `HALT` and `STOP` -/

/-- The release condition of `HALT` in words (R288). -/
theorem haltRelease_iff (view : RequestFlag → Bool) (i : Interrupts) (h : Nibble) :
    haltRelease view i h = true ↔
      (h.getLsbD 3 = true ∧ ((view .irq = true ∧ i.ip = true) ∨ (view .irqtm = true ∧ i.iptm = true) ∨
        (view .irqsio = true ∧ i.ipsio = true))) ∨ (h.getLsbD 1 = true ∧ view .irqtm = true) := by
  simp only [haltRelease, Bool.or_eq_true, Bool.and_eq_true, or_assoc]

/-- That of `STOP` (R287). -/
theorem stopRelease_iff (view : RequestFlag → Bool) (i : Interrupts) :
    stopRelease view i = true ↔ (view .irq = true ∧ i.ip = true) ∨ (view .irqsio = true ∧ i.ipsio = true) := by
  simp only [stopRelease, Bool.or_eq_true, Bool.and_eq_true]

theorem exec_halt_legal {s : State} {h : Nibble} (h2 : h.getLsbD 2 = false) (h0 : h.getLsbD 0 = false) :
    exec (.halt h) s = .next (haltLegal s h) := by
  change execHalt h s = _
  rw [execHalt, h2, h0]
  rfl

/-- Settles O43. -/
theorem standbyFixedBitsStop : Obligations.StandbyFixedBitsStop := by
  intro s x
  refine ⟨fun h => ?halt, fun h => ?stop⟩
  case halt =>
    change execHalt x s = _
    rw [execHalt, if_pos (by rwa [Bool.or_eq_true])]
  case stop =>
    have hfixed : x.extractLsb' 0 3 ≠ 0 := by
      revert x
      decide
    change execStop x s = _
    rw [execStop, if_pos hfixed]

/-- Settles O44: the view of the obligation is the stale view of the model. -/
theorem haltResults : Obligations.HaltResults := by
  intro s h v h2 h0 hv
  have hview : v = staleRequest s := funext hv
  rw [hview, exec_halt_legal h2 h0, haltLegal, ← haltRelease_iff]
  exact ⟨fun hc => by rw [if_pos hc], fun hc => by rw [if_neg hc]; rfl⟩

/-- Settles O45. -/
theorem stopResults : Obligations.StopResults := by
  intro s v hv
  have hview : v = staleRequest s := funext hv
  have hexec : exec (.stop 8) s = .next (stopLegal s 8) := rfl
  rw [hview, hexec, stopLegal, if_neg (by decide), ← stopRelease_iff]
  exact ⟨fun hc => by rw [if_pos hc], fun hc => by rw [if_neg hc]; rfl⟩

/-- Settles O46. -/
theorem stopInitialises : Obligations.StopInitialises := by
  intro s
  exact ⟨_, rfl, rfl, rfl, rfl, rfl, rfl, rfl, rfl, rfl, rfl, rfl, rfl, rfl, rfl, rfl, rfl, rfl, rfl, rfl, rfl, rfl⟩

/-! ### Cycles of the standby modes -/

/-- Settles O47: in each mode the step is a cycle of it, and none of the cycles touches what a program holds. -/
theorem standbyKeepsProgramState : Obligations.StandbyKeepsProgramState := by
  intro s hm hr
  cases hmode : s.mode with
  | run => exact absurd hmode hm
  | halt h => exact ⟨_, step_halt hmode hr, haltCycle_same h s⟩
  | stop v => exact ⟨_, step_stop hmode hr, stopCycle_same v s⟩
  | stopWait => exact ⟨_, step_stopWait hmode hr, stopWaitCycle_same s⟩
  | resetWait kind left => exact ⟨_, step_resetWait hmode hr, resetWaitCycle_same kind left s⟩

/-- A cycle that does not release HALT mode is the peripherals' cycle. -/
theorem haltCycle_holds {s : State} {h : Nibble}
    (hc : haltRelease (requestFlag (advanceCycle s)) (advanceCycle s).interrupts h = false) :
    haltCycle h s = advanceCycle s := by
  rw [haltCycle, hc]
  rfl

theorem haltCycle_releases {s : State} {h : Nibble}
    (hc : haltRelease (requestFlag (advanceCycle s)) (advanceCycle s).interrupts h = true) :
    haltCycle h s = { advanceCycle s with mode := .run } := by
  rw [haltCycle, hc]
  rfl

/-- A cycle that does not release STOP mode is the peripherals' cycle. -/
theorem stopCycle_holds {s : State} {v : Nibble}
    (hc : (v.getLsbD 3 && stopRelease (requestFlag (advanceCycle s)) (advanceCycle s).interrupts) = false) :
    stopCycle v s = advanceCycle s := by
  rw [stopCycle, hc]
  rfl

theorem stopCycle_releases {s : State} {v : Nibble}
    (hc : (v.getLsbD 3 && stopRelease (requestFlag (advanceCycle s)) (advanceCycle s).interrupts) = true) :
    stopCycle v s = { advanceCycle s with mode := .stopWait, timer := { (advanceCycle s).timer with tmc := 0 } } := by
  rw [stopCycle, hc]
  rfl

/-- No cycle of the peripherals changes a permission. -/
theorem advanceCycle_permissions (s : State) :
    (advanceCycle s).interrupts.ip = s.interrupts.ip ∧ (advanceCycle s).interrupts.ipsio = s.interrupts.ipsio := by
  have h := (advanceCycle_same s).permissions
  exact ⟨(congrArg Interrupts.ip h :), (congrArg Interrupts.ipsio h :)⟩

/-- Settles O48: an operand of 0000B selects no release condition, and without IP and IPSIO no request that `STOP` looks at
is permitted. -/
theorem standbyReleasedOnlyByReset : Obligations.StandbyReleasedOnlyByReset := by
  intro s hr
  refine ⟨fun hm => ⟨_, step_halt hm hr, ?halt⟩, fun hm => ⟨_, step_stop hm hr, ?stop⟩,
    fun v hm hip hipsio => ⟨_, step_stop hm hr, ?noPermission⟩⟩
  case halt => rw [haltCycle_holds (by simp [haltRelease]), advanceCycle_mode, hm]
  case stop => rw [stopCycle_holds (by simp), advanceCycle_mode, hm]
  case noPermission =>
    obtain ⟨hip', hipsio'⟩ := advanceCycle_permissions s
    rw [stopCycle_holds (by simp [stopRelease, hip', hipsio', hip, hipsio]), advanceCycle_mode, hm]

/-- Settles O49: the release condition after the peripherals' cycle decides. (`haltRelease` names the condition itself.) -/
theorem haltRelease_step : Obligations.HaltRelease := by
  intro s h hm hr
  refine ⟨_, _, step_halt hm hr, rfl, fun hc => ?_, fun hc => ?_⟩
  · exact haltCycle_releases ((haltRelease_iff (requestFlag (advanceCycle s)) _ h).mpr hc)
  · exact haltCycle_holds (Bool.eq_false_iff.mpr fun ht =>
      hc ((haltRelease_iff (requestFlag (advanceCycle s)) _ h).mp ht))

/-! ### The wait after a STOP release (R435) -/

/-- The next inputs touch neither the timer nor the requests. -/
theorem nextInputs_keeps (s : State) :
    (nextInputs s).timer = s.timer ∧ (nextInputs s).interrupts = s.interrupts := by
  unfold nextInputs
  split <;> exact ⟨rfl, rfl⟩

/-- With TMEN = 1 a count pulse of the wait is the falling edge of the clock that TMCK selects. -/
theorem waitPulse_iff {s : State} (h : s.timer.tmen = true) :
    waitPulse (nextInputs s) = true ↔
      pulseFalls s = true ∨
        (s.timer.tmck = 3 ∧ s.interrupts.intPrev = true ∧ (nextInputs s).env.int = false) := by
  obtain ⟨htimer, hinterrupts⟩ := nextInputs_keeps s
  have hfalls : pulseFalls (nextInputs s) = pulseFalls s := by rw [pulseFalls, pulseFalls, htimer]
  simp only [waitPulse, hfalls, htimer, intFalls, hinterrupts, h, Bool.true_or, Bool.true_and, Bool.or_eq_true,
    Bool.and_eq_true, decide_eq_true_eq, Bool.not_eq_true']

/-- The wait's cycle leaves the count alone: only a count pulse counts. -/
theorem waitAdvance_tmc (s : State) : (waitAdvance s).timer.tmc = s.timer.tmc := by
  have hsio (t : State) : (sioStopped t).timer = t.timer := by
    unfold sioStopped sioExternal
    split
    · split
      · refine clocks_keeps (P := fun u => u.timer = t.timer) (fun u k hu => ?_) rfl 16
        rw [← hu]
        unfold externalClock clockEdge sioRising
        repeat' split
        all_goals rfl
      · rfl
    · rfl
  rw [waitAdvance, intEdge_timer, hsio]

/-- Below the modulo register a count is not the match. -/
theorem ofNat_ne_of_lt_toNat {m : BitVec 8} {k : Nat} (hk : k < m.toNat) : BitVec.ofNat 8 k ≠ m := fun e => by
  have hlt := m.isLt
  have := congrArg BitVec.toNat e
  rw [BitVec.toNat_ofNat] at this
  omega

/-- An operation that only counts while TMC is not TMM counts from TMC = 00H up to TMM. -/
theorem counts_to_modulo {count : State → State}
    (hnext : ∀ {s : State}, s.timer.tmc ≠ s.timer.tmm →
      count s = { s with timer := { s.timer with tmc := s.timer.tmc + 1 } })
    {s : State} (h : s.timer.tmc = 0) {k : Nat} (hk : k ≤ s.timer.tmm.toNat) :
    count^[k] s = { s with timer := { s.timer with tmc := BitVec.ofNat 8 k } } := by
  induction k with
  | zero =>
    show s = _
    have h0 : s.timer.tmc = BitVec.ofNat 8 0 := h
    rw [← h0]
  | succ k ih =>
    have hne : BitVec.ofNat 8 k ≠ s.timer.tmm := ofNat_ne_of_lt_toNat (by omega)
    rw [Function.iterate_succ_apply', ih (by omega)]
    exact (hnext hne).trans (by simp [← BitVec.ofNat_add])

/-- Settles O50: the release by its condition after the cycle, the count pulses by the clock that TMCK selects, the length
by induction on the counts. (`stopRelease` names the release condition.) -/
theorem stopRelease_step : Obligations.StopRelease := by
  refine ⟨fun s v hm hv hr => ⟨_, rfl, fun hc => ?releases, fun hc => ?holds⟩, fun s i hm hr htmen hi => ?pulse,
    fun s hm htmc => ⟨fun k hk => counts_to_modulo waitCount_next htmc hk, ?last⟩⟩
  case releases =>
    rw [step_stop hm hr, stopCycle_releases]
    rw [hv, Bool.true_and]
    exact (stopRelease_iff (requestFlag (advanceCycle s)) _).mpr hc
  case holds =>
    rw [step_stop hm hr, stopCycle_holds]
    rw [hv, Bool.true_and]
    exact Bool.eq_false_iff.mpr fun ht => hc ((stopRelease_iff (requestFlag (advanceCycle s)) _).mp ht)
  case pulse =>
    subst hi
    rw [step_stopWait hm hr, stopWaitCycle, ← waitPulse_iff htmen]
    refine ⟨fun hp => by rw [if_pos hp], fun hp => ⟨_, by rw [if_neg hp], ?_, ?_⟩⟩
    · have hcpu : cpuView (waitAdvance (nextInputs s)) = cpuView s := by simp
      exact (congrArg Prod.snd hcpu).trans hm
    · obtain ⟨htimer, -⟩ := nextInputs_keeps s
      exact (waitAdvance_tmc _).trans (by rw [htimer])
  case last =>
    have hmatch : BitVec.ofNat 8 s.timer.tmm.toNat = s.timer.tmm := by simp
    rw [Function.iterate_succ_apply', counts_to_modulo waitCount_next htmc (Nat.le_refl _), hmatch]
    exact ⟨_, waitCount_last rfl, rfl⟩

end Sys2Proof.Machine
end

section
/-! The timer (50_peripherals.md R333, R334) and the comparator (R341 to R344). -/

namespace Sys2Proof.Machine

/-! ### The prescaler and the falling edges of an internal count pulse -/

/-- Some system clocks on, a phase is at a multiple of its period exactly where it has gone once round. -/
theorem phase_mod_eq_zero_iff {p n j : Nat} (hj : 0 < j) (hjn : j ≤ n) : (p + j) % n = 0 ↔ p % n + j = n := by
  have hlt : p % n < n := Nat.mod_lt _ (by omega)
  rw [← Nat.mod_add_mod]
  constructor
  · intro h
    have hdvd := Nat.dvd_of_mod_eq_zero h
    exact (Nat.eq_of_dvd_of_lt_two_mul (by omega) hdvd (by omega)).symm ▸ rfl
  · intro h
    rw [h, Nat.mod_self]

/-- The prescaler wraps at a multiple of every period. -/
theorem presc_add_mod {n : Nat} (hn : n = 32 ∨ n = 256 ∨ n = 2048) (x : BitVec 11) (j : Nat) :
    (x + BitVec.ofNat 11 j).toNat % n = (x.toNat + j) % n := by
  rw [BitVec.toNat_add, BitVec.toNat_ofNat]
  rcases hn with rfl | rfl | rfl <;> omega

theorem prescLater_succ (s : State) (k : Nat) :
    prescLater (prescLater s (BitVec.ofNat 11 k)) 1 = prescLater s (BitVec.ofNat 11 (k + 1)) := by
  rw [prescLater_add, BitVec.ofNat_add]
  rfl

/-- Some system clocks of the timer with an internal pulse: one count if the pulse fell among them. -/
def clockedTimer (s : State) (n k : Nat) : State :=
  if s.timer.tmen = true ∧ n ≤ s.timer.presc.toNat % n + k then timerCount (prescLater s (BitVec.ofNat 11 k))
  else prescLater s (BitVec.ofNat 11 k)

/-- A system clock, the condition of its count in the terms of the phase. -/
theorem timerClock_phase {s : State} {n : Nat} (h : pulsePeriod s.timer.tmck = some n) :
    timerClock s = if s.timer.tmen = true ∧ (s.timer.presc.toNat + 1) % n = 0 then timerCount (prescLater s 1)
      else prescLater s 1 := by
  have hmod := presc_add_mod (by have := pulsePeriod_eq h; omega) s.timer.presc 1
  rw [timerClock_internal h]
  simp only [Bool.and_eq_true, beq_iff_eq]
  rw [← hmod]
  rfl

/-- Fewer system clocks than a period have room for one falling edge. -/
theorem timerClock_iterate_internal {s : State} {n : Nat} (h : pulsePeriod s.timer.tmck = some n) {k : Nat}
    (hk : k ≤ 16) : timerClock^[k] s = clockedTimer s n k := by
  have hn : n = 32 ∨ n = 256 ∨ n = 2048 := by
    have := pulsePeriod_eq h
    omega
  have hphase : s.timer.presc.toNat % n < n := Nat.mod_lt _ (by omega)
  induction k with
  | zero =>
    rw [clockedTimer, if_neg (by omega)]
    show s = _
    simp [prescLater]
  | succ k ih =>
    have hzero : ((s.timer.presc + BitVec.ofNat 11 k).toNat + 1) % n = 0 ↔ s.timer.presc.toNat % n + (k + 1) = n := by
      rw [← Nat.mod_add_mod, presc_add_mod hn, Nat.mod_add_mod, Nat.add_assoc]
      exact phase_mod_eq_zero_iff (by omega) (by omega)
    rw [Function.iterate_succ_apply', ih (by omega), clockedTimer, clockedTimer]
    split
    · next hfell =>
      rw [timerClock_phase (n := n) (by simpa using h), timerCount_presc, prescLater_presc,
        if_neg (fun hc => by have := hzero.mp hc.2; omega), prescLater_timerCount, prescLater_succ,
        if_pos ⟨hfell.1, by omega⟩]
    · next hnot =>
      rw [timerClock_phase (n := n) (by simpa using h), prescLater_presc, prescLater_tmen, prescLater_succ]
      by_cases hen : s.timer.tmen = true
      · have hbefore : ¬n ≤ s.timer.presc.toNat % n + k := fun hle => hnot ⟨hen, hle⟩
        by_cases hnow : s.timer.presc.toNat % n + (k + 1) = n
        · rw [if_pos ⟨hen, hzero.mpr hnow⟩, if_pos ⟨hen, by omega⟩]
        · rw [if_neg (fun hc => hnow (hzero.mp hc.2)), if_neg (fun hc => by have := hc.2; omega)]
      · rw [if_neg (fun hc => hen hc.1), if_neg (fun hc => hen hc.1)]

/-- With the INT pin selected only the prescaler runs. -/
theorem timerClock_iterate_external {s : State} (h : pulsePeriod s.timer.tmck = none) (k : Nat) :
    timerClock^[k] s = prescLater s (BitVec.ofNat 11 k) := by
  induction k with
  | zero =>
    show s = _
    simp [prescLater]
  | succ k ih =>
    rw [Function.iterate_succ_apply', ih, timerClock_external (by simpa using h), prescLater_succ]

theorem timerCycle_eq_iterate (s : State) : timerCycle s = timerClock^[16] s := by
  rw [timerCycle_eq]
  cases h : pulsePeriod s.timer.tmck with
  | none =>
    rw [timerClock_iterate_external h, pulseFalls, h]
    simp
  | some n =>
    rw [timerClock_iterate_internal h (Nat.le_refl 16), clockedTimer, pulseFalls, h]
    simp only [Bool.and_eq_true, decide_eq_true_eq]
    rfl

/-- The internal pulse falls within a cycle where the prescaler reaches a multiple of the period. -/
theorem pulseFalls_iff {s : State} {n : Nat} (h : pulsePeriod s.timer.tmck = some n) :
    pulseFalls s = true ↔ ∃ k < 16, (s.timer.presc.toNat + (k + 1)) % n = 0 := by
  have hn := pulsePeriod_eq h
  have hphase : s.timer.presc.toNat % n < n := Nat.mod_lt _ (by omega)
  have hedge {k : Nat} (hk : k < 16) :
      (s.timer.presc.toNat + (k + 1)) % n = 0 ↔ s.timer.presc.toNat % n + (k + 1) = n :=
    phase_mod_eq_zero_iff (by omega) (by omega)
  rw [pulseFalls, h]
  refine decide_eq_true_iff.trans ⟨fun hle => ?_, fun ⟨k, hk, hz⟩ => ?_⟩
  · exact ⟨n - s.timer.presc.toNat % n - 1, by omega, (hedge (by omega)).mpr (by omega)⟩
  · have := (hedge hk).mp hz
    omega

/-- Settles O51: sixteen clocks by induction on the clocks, over the phase of the prescaler in the period. -/
theorem timerCycleIsSixteenClocks : Obligations.TimerCycleIsSixteenClocks := by
  refine ⟨timerCycle_eq_iterate, fun s u n hu hn => ⟨fun hck => ?internal, fun hck => ?external⟩⟩
  case internal =>
    have hperiod : pulsePeriod s.timer.tmck = some n := by rw [pulsePeriod_internal hck, hn]
    refine ⟨?_, ?_, pulseFalls_iff hperiod⟩
    · rw [timerClock_phase hperiod, hu]
      rfl
    · rw [pulseLow_iff s hn, if_neg hck]
  case external =>
    have hperiod : pulsePeriod s.timer.tmck = none := by rw [hck]; rfl
    refine ⟨?_, ?_, ?_⟩
    · rw [timerClock_external hperiod, hu]
      rfl
    · rw [pulseLow_iff s hn, if_pos hck]
    · rw [pulseFalls, hperiod]

/-! ### The count -/

theorem timerCount_next {s : State} (h : s.timer.tmc ≠ s.timer.tmm) :
    timerCount s = { s with timer := { s.timer with tmc := s.timer.tmc + 1 } } := by
  rw [timerCount, if_neg h]

theorem timerCount_match {s : State} (h : s.timer.tmc = s.timer.tmm) :
    timerCount s = { s with
      timer := { s.timer with tmc := 0, tmoutFf := !s.timer.tmoutFf }
      interrupts := { s.interrupts with irqtm := true } } := by
  rw [timerCount, if_pos h]

/-- Settles O52: by induction on the counts; the one after TMM of them is the match. -/
theorem timerPeriod : Obligations.TimerPeriod := by
  intro s h
  refine ⟨fun k hk => counts_to_modulo timerCount_next h hk, ?_⟩
  have hmatch : BitVec.ofNat 8 s.timer.tmm.toNat = s.timer.tmm := by simp
  rw [Function.iterate_succ_apply', counts_to_modulo timerCount_next h (Nat.le_refl _), hmatch, timerCount_match rfl]

/-! ### The comparator -/

theorem cmpCycles_eq (p : Part) :
    cmpCycles p = if p = .u17132 ∨ p = .u17P132 then 2 else if p = .u17133 ∨ p = .u17P133 then 6 else 0 := by
  cases p <;> rfl

/-- The input that CMPCH selects (R341). -/
theorem selectedInput_eq (s : State) :
    selectedInput s = if s.comparator.cmpch = 0 then s.env.cin0 else if s.comparator.cmpch = 1 then s.env.cin1
      else if s.comparator.cmpch = 2 then s.env.cin2 else s.env.cin3 := by
  have hch : s.comparator.cmpch = 0 ∨ s.comparator.cmpch = 1 ∨ s.comparator.cmpch = 2 ∨ s.comparator.cmpch = 3 := by
    generalize s.comparator.cmpch = x
    revert x
    decide
  unfold selectedInput
  rcases hch with h | h | h | h <;> rw [h] <;> rfl

/-- A cycle that does not end the comparison. -/
theorem comparatorCycle_goesOn {s : State} (h : s.comparator.cmpstrt = true) (hr : 1 < s.comparator.remaining) :
    comparatorCycle s =
      { s with comparator := { s.comparator with remaining := s.comparator.remaining - 1 } } := by
  rw [comparatorCycle, if_pos h, if_neg (by omega)]

/-- The cycle that ends it. -/
theorem comparatorCycle_ends {s : State} (h : s.comparator.cmpstrt = true) (hr : s.comparator.remaining ≤ 1) :
    comparatorCycle s = { s with comparator :=
      { s.comparator with cmprslt := comparisonResult s, cmpstrt := false, remaining := 0, tainted := false } } := by
  rw [comparatorCycle, if_pos h, if_pos hr]

/-- A comparison counts its cycles down and changes nothing else before its end. -/
theorem comparatorCycle_iterate {s : State} {n : Nat} (h : s.comparator.cmpstrt = true)
    (hr : s.comparator.remaining = n + 1) {k : Nat} (hk : k ≤ n) :
    comparatorCycle^[k] s = { s with comparator := { s.comparator with remaining := n + 1 - k } } := by
  induction k with
  | zero =>
    show s = _
    rw [Nat.sub_zero, ← hr]
  | succ k ih =>
    rw [Function.iterate_succ_apply', ih (by omega)]
    have hmore : 1 < n + 1 - k := by omega
    refine Eq.trans (comparatorCycle_goesOn ?_ ?_) ?_
    · exact h
    · exact hmore
    · rw [Nat.sub_sub]

/-- The result for different voltages (R344). -/
theorem compareVoltages_different (s : State) :
    (reference16 s < 16 * selectedInput s → compareVoltages s = true) ∧
      (16 * selectedInput s < reference16 s → compareVoltages s = false) := by
  constructor
  · intro h
    rw [compareVoltages, if_pos h]
  · intro h
    rw [compareVoltages, if_neg (by omega), if_pos h]

/-- Settles O54: by induction on the cycles; the last one leaves the comparison of the voltages, which the countdown does
not change. -/
theorem comparisonDuration : Obligations.ComparisonDuration := by
  refine ⟨cmpCycles_eq, fun s input ref hstrt hrem htaint hinput href => ?_⟩
  rw [← selectedInput_eq] at hinput
  have href' : ref = reference16 s := by rw [href, reference16]
  refine ⟨fun k hk => comparatorCycle_iterate hstrt hrem hk, _, rfl, ?_⟩
  have hlast : comparatorCycle^[cmpCycles s.part + 1] s = { s with comparator :=
      { s.comparator with cmprslt := compareVoltages s, cmpstrt := false, remaining := 0 } } := by
    rw [Function.iterate_succ_apply', comparatorCycle_iterate hstrt hrem (Nat.le_refl _)]
    have hone : cmpCycles s.part + 1 - cmpCycles s.part ≤ 1 := by omega
    refine Eq.trans (comparatorCycle_ends ?_ ?_) ?_
    · exact hstrt
    · exact hone
    · simp only [comparisonResult, htaint]
      rfl
  obtain ⟨above, below⟩ := compareVoltages_different s
  rw [hlast, hinput, href']
  exact ⟨rfl, above, below⟩

end Sys2Proof.Machine
end

section
/-! The serial interface (50_peripherals.md R350 to R356): without a transfer, the edges of the selected clock, the length
of a transfer with an internal clock, and the bits of a transfer. -/

namespace Sys2Proof.Machine

/-! ### Which clock acts -/

theorem sioActive_iff (s : State) : sioActive s = true ↔ s.serial.sioen = true ∧ s.serial.siots = true :=
  Bool.and_eq_true_iff

theorem sioActive_of {s : State} (he : s.serial.sioen = true) (ht : s.serial.siots = true) : sioActive s = true :=
  (sioActive_iff s).mpr ⟨he, ht⟩

theorem sioActive_eq_false {s : State} (h : s.serial.sioen = false ∨ s.serial.siots = false) : sioActive s = false := by
  rcases h with h | h <;> simp [sioActive, h]

/-- Outside a transfer a level of the clock is remembered and does nothing else. -/
theorem clockEdge_idle {s : State} (level si : Bool) (h : sioActive s = false) :
    clockEdge s level si = { s with serial := { s.serial with sck := level } } := by
  unfold clockEdge
  split
  · next he => rw [he]
  · rw [if_neg (by simp [h])]

/-- So do any number of system clocks of an internal clock. -/
theorem clocks_internal_idle {s : State} (h : sioActive s = false) (k : Nat) :
    ∃ c, clocks internalClock k s = { s with serial := { s.serial with sck := c } } := by
  refine clocks_keeps (P := fun t => ∃ c, t = { s with serial := { s.serial with sck := c } }) ?_ ⟨s.serial.sck, rfl⟩ k
  rintro t j ⟨c, rfl⟩
  exact ⟨_, clockEdge_idle _ _ h⟩

theorem sioExternal_idle {s : State} (h : sioActive s = false) :
    sioExternal s = { s with serial := { s.serial with sck := sckLevel s 15 } } := by
  rw [sioExternal, if_neg (by simp [h])]

theorem sioInternal_idle {s : State} (h : sioActive s = false) :
    ∃ c, sioInternal s = { s with serial := { s.serial with sck := c } } ∧ (s.serial.siots = false → c = true) := by
  rw [sioInternal]
  split
  · next ht =>
    obtain ⟨c, hc⟩ := clocks_internal_idle h 16
    exact ⟨c, hc, fun hf => absurd ht (by simp [hf])⟩
  · exact ⟨true, rfl, fun _ => rfl⟩

theorem sioCycle_external {s : State} (h : s.serial.siock = 0) :
    sioCycle s = { sioExternal s with serial :=
      { (sioExternal s).serial with divider := (sioExternal s).serial.divider + 16 } } := by
  rw [sioCycle, if_pos h]

theorem sioCycle_internal {s : State} (h : s.serial.siock ≠ 0) :
    sioCycle s = { sioInternal s with serial :=
      { (sioInternal s).serial with divider := (sioInternal s).serial.divider + 16 } } := by
  rw [sioCycle, if_neg h]

/-- With an internal clock in a transfer the cycle is its sixteen system clocks, then the divider's progress. -/
theorem sioCycle_clocks {s : State} (hts : s.serial.siots = true) (hck : s.serial.siock ≠ 0) :
    sioCycle s = { clocks internalClock 16 s with serial :=
      { (clocks internalClock 16 s).serial with divider := (clocks internalClock 16 s).serial.divider + 16 } } := by
  rw [sioCycle_internal hck, sioInternal, if_pos hts]

theorem sioStopped_internal {s : State} (h : s.serial.siock ≠ 0) : sioStopped s = s := if_neg h

theorem sioStopped_external {s : State} (h : s.serial.siock = 0) : sioStopped s = sioExternal s := if_pos h

/-- Without a transfer a cycle only remembers a level of the clock. -/
theorem sioCycle_idle {s : State} (h : s.serial.sioen = false ∨ s.serial.siots = false) :
    ∃ c, sioCycle s = { s with serial := { s.serial with divider := s.serial.divider + 16, sck := c } } ∧
      (s.serial.siock = 0 → c = sckLevel s 15) ∧ (s.serial.siock ≠ 0 → s.serial.siots = false → c = true) ∧
      sioStopped s = { s with serial := { s.serial with
        sck := if s.serial.siock = 0 then sckLevel s 15 else s.serial.sck } } := by
  have hidle := sioActive_eq_false h
  by_cases hck : s.serial.siock = 0
  · refine ⟨sckLevel s 15, ?_, fun _ => rfl, fun hne => absurd hck hne, ?_⟩
    · rw [sioCycle_external hck, sioExternal_idle hidle]
    · rw [sioStopped_external hck, sioExternal_idle hidle, if_pos hck]
  · obtain ⟨c, hc, hhigh⟩ := sioInternal_idle hidle
    refine ⟨c, ?_, fun he => absurd he hck, fun _ => hhigh, ?_⟩
    · rw [sioCycle_internal hck, hc]
    · rw [sioStopped_internal hck, if_neg hck]

/-- In a transfer the external clock acts at each change of the SCK pin. -/
theorem externalClock_eq (s : State) (k : Nat) : externalClock s k =
    if sckLevel s k = s.serial.sck then s
    else if s.serial.sioen = true ∧ s.serial.siots = true then
      (if sckLevel s k then sioRising s (siLevel s k) else sioFalling s)
    else { s with serial := { s.serial with sck := sckLevel s k } } := by
  rw [externalClock, clockEdge]
  simp only [sioActive_iff]

theorem sioExternal_clocks {s : State} (h : sioActive s = true) :
    sioExternal s = clocks externalClock 16 s := by
  rw [sioExternal, if_pos h]

/-! ### The length of a transfer with an internal clock -/

/-- The period of an internal clock and the range of the divider. -/
theorem sioPeriod_cases {x : BitVec 2} (h : x ≠ 0) : sioPeriod x = 16 ∨ sioPeriod x = 128 ∨ sioPeriod x = 1024 := by
  revert x
  decide

/-- The divider wraps at a multiple of every period. -/
theorem divider_add_mod {n : Nat} (hn : n = 16 ∨ n = 128 ∨ n = 1024) (x : BitVec 10) :
    (x + 16).toNat % n = (x.toNat + 16) % n := by
  rw [BitVec.toNat_add]
  rcases hn with rfl | rfl | rfl <;> simp

/-- A transfer with an internal clock of period `n`, some instruction cycles after its first falling edge: the clock is low
at the start of the cycle, and the bits received and the phase of the divider together are the system clocks that have
passed. -/
structure InTransfer (n : Nat) (passed : Nat) (s : State) : Prop where
  sioen : s.serial.sioen = true
  siots : s.serial.siots = true
  siock : s.serial.siock ≠ 0
  period : sioPeriod s.serial.siock = n
  low : s.serial.sck = false
  clocks : s.serial.cnt * n + s.serial.divider.toNat % n = passed

theorem InTransfer.period_cases {n c : Nat} {s : State} (h : InTransfer n c s) : n = 16 ∨ n = 128 ∨ n = 1024 := by
  have := sioPeriod_cases h.siock
  rwa [h.period] at this

/-- What sixteen system clocks do in a transfer whose clock is low. -/
theorem InTransfer.sixteen {n c : Nat} {s : State} (h : InTransfer n c s) (hr : s.serial.divider.toNat % n < clockRise n) :
    Machine.clocks internalClock 16 s =
      let r := sioRising s (siLevel s (clockRise n - s.serial.divider.toNat % n - 1))
      if s.serial.divider.toNat % n + 16 < clockRise n then s
      else if s.serial.divider.toNat % n + 16 < n ∨ r.serial.siots = false then r else sioFalling r :=
  clocks_internal_low h.period (by have := h.period_cases; omega) rfl (sioActive_of h.sioen h.siots) h.low hr
    (Nat.le_refl 16) rfl

/-- A cycle that does not end a period leaves the transfer as it is. -/
theorem InTransfer.cycle_within {n c : Nat} {s : State} (h : InTransfer n c s) (hc : c % 16 = 0)
    (hd : s.serial.divider.toNat % n + 16 < n) : InTransfer n (c + 16) (sioCycle s) := by
  have hn := h.period_cases
  obtain ⟨hrise, -, -⟩ := clockRise_bounds (n := n) (by omega)
  have hdiv : s.serial.divider.toNat % n % 16 = 0 := by
    have := h.clocks
    rcases hn with rfl | rfl | rfl <;> omega
  have hstill : Machine.clocks internalClock 16 s = s := by
    rw [h.sixteen (by omega)]
    exact if_pos (by omega)
  rw [sioCycle_clocks h.siots h.siock, hstill]
  refine { h with clocks := ?_ }
  show s.serial.cnt * n + (s.serial.divider + 16).toNat % n = c + 16
  rw [divider_add_mod hn, ← Nat.mod_add_mod, Nat.mod_eq_of_lt hd, ← h.clocks, Nat.add_assoc]

/-- A cycle that ends a period has the rising edge, and the falling one too unless the transfer is over. -/
theorem InTransfer.cycle_ends {n c : Nat} {s : State} (h : InTransfer n c s)
    (hd : s.serial.divider.toNat % n + 16 = n) : ∃ si, Machine.clocks internalClock 16 s =
      if (sioRising s si).serial.siots = false then sioRising s si else sioFalling (sioRising s si) := by
  have hn := h.period_cases
  obtain ⟨hrise, hlt, -⟩ := clockRise_bounds (n := n) (by omega)
  refine ⟨siLevel s (clockRise n - s.serial.divider.toNat % n - 1), ?_⟩
  rw [h.sixteen (by omega)]
  dsimp only
  rw [if_neg (by omega), hd]
  simp only [Nat.lt_irrefl, false_or]

theorem InTransfer.cycle_bit {n c : Nat} {s : State} (h : InTransfer n c s)
    (hd : s.serial.divider.toNat % n + 16 = n) (hcnt : s.serial.cnt + 1 ≠ 8) :
    InTransfer n (c + 16) (sioCycle s) := by
  have hn := h.period_cases
  obtain ⟨si, hclocks⟩ := h.cycle_ends hd
  obtain ⟨-, hck, hen, hdiv, -, hts, hcount, -, -⟩ := sioRising_clock s si
  have hts' : (sioRising s si).serial.siots = true := by rw [hts, h.siots, bne_iff_ne.mpr hcnt, Bool.and_true]
  rw [sioCycle_clocks h.siots h.siock, hclocks, if_neg (by simp [hts'])]
  refine ⟨hen.trans h.sioen, hts', fun he => h.siock (hck.symm.trans he), (congrArg sioPeriod hck).trans h.period, rfl, ?_⟩
  show (sioRising s si).serial.cnt * n + ((sioRising s si).serial.divider + 16).toNat % n = c + 16
  rw [hcount, if_neg hcnt, hdiv, divider_add_mod hn, ← Nat.mod_add_mod, hd, Nat.mod_self, ← h.clocks, Nat.add_mul]
  omega

/-- The eighth rising edge ends the transfer. -/
theorem InTransfer.cycle_last {n c : Nat} {s : State} (h : InTransfer n c s)
    (hd : s.serial.divider.toNat % n + 16 = n) (hcnt : s.serial.cnt + 1 = 8) :
    (sioCycle s).serial.siots = false ∧ (sioCycle s).interrupts.irqsio = true := by
  obtain ⟨si, hclocks⟩ := h.cycle_ends hd
  have hlast : sioRising s si = { s with
      serial := { s.serial with
        sck := true, sfr := s.serial.sfr.extractLsb' 0 7 ++ BitVec.ofBool si, cnt := 0, siots := false }
      interrupts := { s.interrupts with irqsio := true } } := by
    rw [sioRising]
    exact if_pos hcnt
  rw [sioCycle_clocks h.siots h.siock, hclocks, hlast]
  exact ⟨rfl, rfl⟩

/-- The phase and the count of a transfer, cycle by cycle, until eight periods have passed. -/
theorem InTransfer.iterate {n : Nat} {s : State} (h : InTransfer n 0 s) {j : Nat} (hj : j < n / 2) :
    InTransfer n (16 * j) (sioCycle^[j] s) := by
  induction j with
  | zero => exact h
  | succ j ih =>
    have hnow := ih (by omega)
    have hn := hnow.period_cases
    have hclocks := hnow.clocks
    rw [Function.iterate_succ_apply', Nat.mul_succ]
    generalize sioCycle^[j] s = t at hnow hclocks ⊢
    have hphase : t.serial.divider.toNat % n < n := Nat.mod_lt _ (by omega)
    by_cases hd : t.serial.divider.toNat % n + 16 < n
    · exact hnow.cycle_within (by omega) hd
    · refine hnow.cycle_bit ?_ ?_
      · rcases hn with rfl | rfl | rfl <;> omega
      · rcases hn with rfl | rfl | rfl <;> omega

/-- Eight periods after the first falling edge the transfer is over. -/
theorem InTransfer.over {n : Nat} {s : State} (h : InTransfer n 0 s) :
    (sioCycle^[n / 2] s).serial.siots = false ∧ (sioCycle^[n / 2] s).interrupts.irqsio = true := by
  have hn := h.period_cases
  obtain ⟨j, hj⟩ : ∃ j, n / 2 = j + 1 := ⟨n / 2 - 1, by omega⟩
  have hnow := h.iterate (j := j) (by omega)
  have hclocks := hnow.clocks
  rw [hj, Function.iterate_succ_apply']
  generalize sioCycle^[j] s = t at hnow hclocks ⊢
  have hphase : t.serial.divider.toNat % n < n := Nat.mod_lt _ (by omega)
  refine hnow.cycle_last ?_ ?_
  · rcases hn with rfl | rfl | rfl <;> omega
  · rcases hn with rfl | rfl | rfl <;> omega

/-- A cycle that ends a period of the divider with the clock high has its first falling edge. -/
theorem inTransfer_of_first_fall {s : State} {n : Nat} (he : s.serial.sioen = true) (hts : s.serial.siots = true)
    (hck : s.serial.siock ≠ 0) (hn : sioPeriod s.serial.siock = n) (hs : s.serial.sck = true) (hcnt : s.serial.cnt = 0)
    (hd : s.serial.divider.toNat % n + 16 = n) : InTransfer n 0 (sioCycle s) := by
  have hcases := sioPeriod_cases hck
  rw [hn] at hcases
  obtain ⟨-, -, hrise⟩ := clockRise_bounds (n := n) (by omega)
  have hclocks : clocks internalClock 16 s = sioFalling s := by
    rw [clocks_internal_high hn (by omega) rfl (sioActive_of he hts) hs (Nat.le_refl 16), hd, if_neg (by omega),
      if_pos (by omega)]
  rw [sioCycle_clocks hts hck, hclocks]
  refine ⟨he, hts, hck, hn, rfl, ?_⟩
  show s.serial.cnt * n + (s.serial.divider + 16).toNat % n = 0
  rw [hcnt, divider_add_mod hcases, ← Nat.mod_add_mod, hd, Nat.mod_self, Nat.zero_mul]

/-! ### The bits of a transfer -/

/-- SIOSFR after these bits have come in, the last one in bit 0. -/
def receivedBits (x : BitVec 8) (bits : List Bool) : BitVec 8 :=
  bits.foldl (fun v b => v.extractLsb' 0 7 ++ BitVec.ofBool b) x

/-- The bits received stand from bit 0 up, the last one first, and the old ones above them. -/
theorem receivedBits_bit (x : BitVec 8) (bits : List Bool) {i : Nat} (hi : i < 8) :
    (receivedBits x bits).getLsbD i = bits.reverse[i]?.getD (x.getLsbD (i - bits.length)) := by
  induction bits using List.reverseRecOn generalizing i with
  | nil => simp [receivedBits]
  | append_singleton bits b ih =>
    have hsnoc : receivedBits x (bits ++ [b]) = (receivedBits x bits).extractLsb' 0 7 ++ BitVec.ofBool b := by
      simp [receivedBits, List.foldl_append]
    rw [hsnoc, shifted_bit _ _ hi]
    cases i with
    | zero => simp
    | succ i =>
      rw [if_neg (by omega), Nat.add_sub_cancel, ih (by omega)]
      simp

/-- Fewer than eight bits of a transfer: they are in SIOSFR and counted, and nothing but SO_LATCH has changed besides. -/
theorem transfer_before_last {s : State} {bits : List Bool} (hcnt : s.serial.cnt = 0) (hlen : bits.length ≤ 7) :
    ∃ c p u,
      bits.foldl (fun t b => sioRising (sioFalling t) b) s = { s with
        ports := { s.ports with podL := p, soUsed := u }
        serial := { s.serial with sck := c, sfr := receivedBits s.serial.sfr bits, cnt := bits.length } } ∧
      ∀ x, withBit1 p x = withBit1 s.ports.podL x := by
  induction bits using List.reverseRecOn with
  | nil =>
    refine ⟨s.serial.sck, s.ports.podL, s.ports.soUsed, ?_, fun _ => rfl⟩
    show s = _
    rw [List.length_nil, ← hcnt]
    rfl
  | append_singleton bits b ih =>
    rw [List.length_append, List.length_singleton] at hlen ⊢
    obtain ⟨c, p, u, hfold, hp⟩ := ih (by omega)
    refine ⟨true, withBit1 p ((receivedBits s.serial.sfr bits).getLsbD 7), true, ?_,
      fun x => (withBit1_withBit1 _ _ x).trans (hp x)⟩
    rw [List.foldl_append, hfold]
    have hnext : bits.length + 1 ≠ 8 := by omega
    refine (sioBit_next b hnext).trans ?_
    simp [receivedBits, List.foldl_append]

/-- The eight bits of a transfer. -/
def transferBits (b : Fin 8 → Bool) : List Bool := (List.finRange 8).map b

theorem foldl_finRange_eq (b : Fin 8 → Bool) (l : List (Fin 8)) (s : State) :
    l.foldl (fun u j => sioRising (sioFalling u) (b j)) s =
      (l.map b).foldl (fun u x => sioRising (sioFalling u) x) s := (List.foldl_map ..).symm

/-- At each of the eight falling edges the next bit of SIOSFR comes out, most significant first. -/
theorem transfer_bit_out {s : State} (b : Fin 8 → Bool) (hcnt : s.serial.cnt = 0) (k : Fin 8) :
    (sioFalling (((List.finRange 8).take k).foldl (fun u j => sioRising (sioFalling u) (b j)) s)).ports.podL.getLsbD 1 =
      s.serial.sfr.getLsbD (7 - k) := by
  have hk := k.isLt
  have hlen : (((List.finRange 8).take k).map b).length = k := by simp
  rw [foldl_finRange_eq]
  obtain ⟨c, p, u, hfold, -⟩ := transfer_before_last (bits := ((List.finRange 8).take k).map b) hcnt (by omega)
  rw [hfold]
  refine (withBit1_bit1 ..).trans ?_
  show (receivedBits s.serial.sfr _).getLsbD 7 = _
  rw [receivedBits_bit _ _ (by decide), List.getElem?_eq_none (by rw [List.length_reverse]; omega), hlen]
  rfl

/-- After the eighth rising edge the transfer is over, with the eight bits received in SIOSFR. -/
theorem transfer_complete {s : State} (b : Fin 8 → Bool) (hcnt : s.serial.cnt = 0) :
    (List.finRange 8).foldl (fun u j => sioRising (sioFalling u) (b j)) s = { s with
      ports := { s.ports with podL := withBit1 s.ports.podL (s.serial.sfr.getLsbD 0), soUsed := true }
      serial := { s.serial with
        sck := true, sfr := receivedBits s.serial.sfr (transferBits b), cnt := 0, siots := false }
      interrupts := { s.interrupts with irqsio := true } } := by
  have hsplit : (List.finRange 8).map b = ((List.finRange 8).take 7).map b ++ [b 7] := rfl
  have hlen : (((List.finRange 8).take 7).map b).length = 7 := rfl
  obtain ⟨c, p, u, hfold, hp⟩ := transfer_before_last (bits := ((List.finRange 8).take 7).map b) hcnt (by omega)
  have hout : (receivedBits s.serial.sfr (((List.finRange 8).take 7).map b)).getLsbD 7 = s.serial.sfr.getLsbD 0 := by
    rw [receivedBits_bit _ _ (by decide), List.getElem?_eq_none (by rw [List.length_reverse]; omega), hlen]
    rfl
  have hin : receivedBits s.serial.sfr (transferBits b) =
      (receivedBits s.serial.sfr (((List.finRange 8).take 7).map b)).extractLsb' 0 7 ++ BitVec.ofBool (b 7) := rfl
  rw [foldl_finRange_eq, hsplit, List.foldl_append, hfold, hin, ← hp, ← hout,
    List.foldl_cons, List.foldl_nil]
  refine (sioBit_last (b 7) ?_).trans rfl
  exact congrArg (· + 1) hlen

/-- The first bit received stands in bit 7. -/
theorem transferBits_received (x : BitVec 8) (b : Fin 8 → Bool) (k : Fin 8) :
    (receivedBits x (transferBits b)).getLsbD (7 - k) = b k := by
  rw [receivedBits_bit _ _ (by omega)]
  fin_cases k <;> rfl

/-! ### The pins -/

/-- A pull-up is at a pin of port OD where the mask option has one on a part that can (10_state.md R66). -/
theorem podPullUps_bit (s : State) (n : Nat) :
    (podPullUps s).getLsbD n = (!isProm s.part && s.mask.pod.getLsbD n) := by
  unfold podPullUps
  cases isProm s.part <;> simp

theorem poePullUps_bit (s : State) (n : Nat) :
    (poePullUps s).getLsbD n = (!isProm s.part && s.mask.poe.getLsbD n) := by
  unfold poePullUps
  cases isProm s.part <;> simp

/-- Settles O53: the edges by the system clocks of a cycle, the length by the phase of the divider and the bits counted,
cycle by cycle, and the bits by induction on those that have come in. -/
theorem serialTransfer : Obligations.SerialTransfer := by
  refine ⟨fun s => ⟨sioCycle_idle, fun he ht hck => ?external, fun k => externalClock_eq s k⟩,
    ⟨clockRise, fun n hn => ?rise, fun s n d he ht hck hn hd => ?internal⟩,
    fun s n he ht hck hn hs hcnt hd => ?duration, fun s k => ?pins, fun s b hcnt ht => ⟨transfer_bit_out b hcnt, ?bits⟩⟩
  case external =>
    have hclocks := sioExternal_clocks (sioActive_of he ht)
    refine ⟨(sioStopped_external hck).trans hclocks, fun t htc => ?_⟩
    rw [sioCycle_external hck, hclocks, htc]
    rfl
  case rise =>
    obtain ⟨h1, h2, h3⟩ := clockRise_bounds hn
    exact ⟨h3, h1, h2⟩
  case internal =>
    have hperiod : sioPeriod s.serial.siock = n := (sioPeriod_eq hck).trans hn.symm
    have hcases := sioPeriod_cases hck
    have hn16 : 16 ≤ n := by omega
    have hactive := sioActive_of he ht
    refine ⟨sioStopped_internal hck, fun t htc => ?_, fun hs k hk => ?_, fun hs hr r hrr k hk => ?_⟩
    · rw [sioCycle_clocks ht hck, htc]
      rfl
    · exact clocks_internal_high hperiod hn16 hd hactive hs hk
    · exact clocks_internal_low hperiod hn16 hd hactive hs hr hk hrr
  case duration =>
    have hperiod : sioPeriod s.serial.siock = n := (sioPeriod_eq hck).trans hn.symm
    have hfirst := inTransfer_of_first_fall he ht hck hperiod hs hcnt hd
    exact ⟨fun j hj => (hfirst.iterate hj).siots, hfirst.over⟩
  case pins => exact ⟨by rw [sckLevel, podPullUps_bit, Bool.and_assoc], by rw [siLevel, podPullUps_bit, Bool.and_assoc]⟩
  case bits =>
    intro t htc
    rw [transfer_complete b hcnt] at htc
    subst htc
    exact ⟨transferBits_received _ b, rfl, rfl, rfl, rfl, rfl, rfl⟩

end Sys2Proof.Machine
end

section
/-! The ports: what a read of each port register gives and what the chip drives on each pin (50_peripherals.md R301 to R318,
R337, R342, R351 to R354). -/

namespace Sys2Proof.Machine

/-! ### Reads, bit by bit -/

theorem podPins_bit (s : State) (n : Nat) :
    (podPins s).getLsbD n =
      (s.env.pod.getLsbD n || (s.env.podOpen.getLsbD n && !isProm s.part && s.mask.pod.getLsbD n)) := by
  rw [podPins, BitVec.getLsbD_or, BitVec.getLsbD_and, podPullUps_bit, Bool.and_assoc]

theorem poePins_bit (s : State) (n : Nat) :
    (poePins s).getLsbD n =
      (s.env.poe.getLsbD n || (s.env.poeOpen.getLsbD n && !isProm s.part && s.mask.poe.getLsbD n)) := by
  rw [poePins, BitVec.getLsbD_or, BitVec.getLsbD_and, poePullUps_bit, Bool.and_assoc]

theorem readPoa_bit (s : State) (n : Nat) :
    (readPoa s).getLsbD n = if s.ports.poabio.getLsbD n then s.ports.poaL.getLsbD n else s.env.poa.getLsbD n :=
  getLsbD_mux ..

theorem readPob_bit (s : State) (n : Nat) :
    (readPob s).getLsbD n = if s.ports.pobgio then s.ports.pobL.getLsbD n else s.env.pob.getLsbD n :=
  apply_ite (fun x : Nibble => x.getLsbD n) _ _ _

theorem readPoc_output (s : State) (slot : ReadSlot) {n : Nat} (h : s.ports.pocbio.getLsbD n = true) :
    (readPoc s slot).getLsbD n = s.ports.pocL.getLsbD n := by
  rw [readPoc, getLsbD_mux, if_pos h]

/-- An input of port OC that is no analog input. -/
theorem readPoc_input (s : State) (slot : ReadSlot) {n : Nat} (h : s.ports.pocbio.getLsbD n = false)
    (hd : hasCmp s.part = false ∨ s.ports.pocidi.getLsbD n = false) :
    (readPoc s slot).getLsbD n = s.env.poc.getLsbD n := by
  rw [readPoc, getLsbD_mux, if_neg (by simp [h]), pocInputs]
  split
  · next hcmp => rw [getLsbD_mux, if_neg (by simp [hd.resolve_left (by simp [hcmp])])]
  · rfl

/-- A bit of port OD that comes from the latch. -/
theorem readPod_latch {s : State} (slot : ReadSlot) {n : Nat} (hso : n ≠ 1 ∨ soDriven s = false)
    (hu : n ≠ 1 ∨ s.ports.soUsed = false) (h : (podFromLatch s).getLsbD n = true) :
    (readPod s slot).getLsbD n = s.ports.podL.getLsbD n := by
  rw [readPod_bit s slot hso, if_pos h, podPortLatch_bit s hu]

/-- A bit of port OD that comes from the pin. -/
theorem readPod_pin {s : State} (slot : ReadSlot) {n : Nat} (hso : n ≠ 1 ∨ soDriven s = false)
    (h : (podFromLatch s).getLsbD n = false) : (readPod s slot).getLsbD n = (podPins s).getLsbD n := by
  rw [readPod_bit s slot hso, if_neg (by simp [h])]

theorem soDriven_eq_false {s : State} (h : s.serial.sioen = false ∨ s.serial.siohiz = true) : soDriven s = false := by
  rcases h with h | h <;> simp [soDriven, h]

/-- A pin of port OD that is a port: its direction says whether latch or pin is read. -/
theorem podFromLatch_port {s : State} {n : Nat}
    (h : (n < 3 ∧ s.serial.sioen = false) ∨ (n = 3 ∧ s.timer.tmosel = false)) :
    (podFromLatch s).getLsbD n = s.ports.podbio.getLsbD n := by
  obtain ⟨h0, h1, h2, h3⟩ := podFromLatch_bits s
  rcases h with ⟨hn, he⟩ | ⟨rfl, ht⟩
  · have : n = 0 ∨ n = 1 ∨ n = 2 := by omega
    rcases this with rfl | rfl | rfl
    · rw [h0, he]
      rfl
    · rw [h1, he]
      rfl
    · rw [h2, he]
      rfl
  · rw [h3, ht, Bool.false_or]

theorem soDriven_port {s : State} {n : Nat}
    (h : (n < 3 ∧ s.serial.sioen = false) ∨ (n = 3 ∧ s.timer.tmosel = false)) : n ≠ 1 ∨ soDriven s = false := by
  rcases h with ⟨-, he⟩ | ⟨rfl, -⟩
  · exact .inr (soDriven_eq_false (.inl he))
  · exact .inl (by decide)

theorem poe1IsVref_iff (s : State) : poe1IsVref s = true ↔ hasCmp s.part = true ∧ s.comparator.cmpvref = 0 := by
  simp [poe1IsVref]

/-- The two pins of port OE stand in the low bits of 6FH. -/
theorem readPoe_high (s : State) {n : Nat} (h : 2 ≤ n) : (0#2 ++ readPoe s).getLsbD n = false := by
  rw [BitVec.getLsbD_append, if_neg (by omega), BitVec.getLsbD_zero]

/-- A read of port OE: the pin, low where the chip pulls it low. -/
theorem readPoe_bit (s : State) {n : Nat} (h : n < 2) :
    (0#2 ++ readPoe s).getLsbD n = ((poePins s).getLsbD n &&
      !(s.ports.poebio.getLsbD n && !s.ports.poeL.getLsbD n && !(decide (n = 1) && poe1IsVref s))) := by
  have hlow := poeLow_bit s ⟨n, h⟩
  have hone : ((⟨n, h⟩ : Fin 2) == 1) = decide (n = 1) := by
    rw [Bool.eq_iff_iff]
    simp [Fin.ext_iff]
  rw [hone] at hlow
  rw [BitVec.getLsbD_append, if_pos h, readPoe, BitVec.getLsbD_and, BitVec.getLsbD_not,
    decide_eq_true h, Bool.true_and, ← hlow]

/-! ### Drives -/

/-- POD0 while SIOEN = 1 and no clock of the chip's own is on it. -/
theorem pod0Drive_released {s : State} (he : s.serial.sioen = true) (h : s.serial.siock = 0 ∨ s.serial.siots = false)
    (k : Fin 16) : pod0Drive s k = .released := by
  by_cases hck : s.serial.siock = 0
  · rw [pod0Drive, if_pos he, if_pos hck]
  · rw [pod0Drive_clock k he hck, clockOutput, h.resolve_left hck]
    rfl

/-- In a transfer the clock output is the clock whose edges shift, or stands still with the system clock. -/
theorem clockOutput_transfer {s : State} (ht : s.serial.siots = true) (k : Fin 16) :
    clockOutput s k = (clocks internalClock (if serialClockRuns s.mode then k.val + 1 else 0) s).serial.sck := by
  rw [clockOutput, ht, Bool.not_true, Bool.false_or]

theorem pod0Drive_running {s : State} (he : s.serial.sioen = true) (ht : s.serial.siots = true)
    (hck : s.serial.siock ≠ 0) (hm : s.mode = .run ∨ ∃ h, s.mode = .halt h) (k : Fin 16) :
    pod0Drive s k = if (clocks internalClock (k.val + 1) s).serial.sck then .released else .low := by
  have hruns : serialClockRuns s.mode = true := by
    rcases hm with hm | ⟨v, hm⟩ <;> rw [hm] <;> rfl
  rw [pod0Drive_clock k he hck, clockOutput_transfer ht, if_pos hruns]

theorem pod0Drive_still {s : State} (he : s.serial.sioen = true) (ht : s.serial.siots = true)
    (hck : s.serial.siock ≠ 0) (hm : (∃ v, s.mode = .stop v) ∨ s.mode = .stopWait) (k : Fin 16) :
    pod0Drive s k = if s.serial.sck then .released else .low := by
  have hstands : ¬serialClockRuns s.mode = true := by
    rcases hm with ⟨v, hm⟩ | hm <;> rw [hm] <;> exact Bool.false_ne_true
  rw [pod0Drive_clock k he hck, clockOutput_transfer ht, if_neg hstands]
  rfl

/-- The level of an internal clock that starts a cycle high: low from the end of the period to the rising edge. -/
theorem sck_internal_high {s : State} {n d : Nat} (hn : sioPeriod s.serial.siock = n) (hn16 : 16 ≤ n)
    (hd : d = s.serial.divider.toNat % n) (ha : sioActive s = true) (hs : s.serial.sck = true) {k : Nat} (hk : k ≤ 16) :
    (clocks internalClock k s).serial.sck = false ↔ n ≤ d + k ∧ d + k < n + clockRise n := by
  rw [clocks_internal_high hn hn16 hd ha hs hk]
  split
  · exact iff_of_false (by simp [hs]) (by omega)
  · split
    · exact iff_of_true rfl (by omega)
    · obtain ⟨hhigh, -⟩ := sioRising_clock (sioFalling s) (siLevel s (n + clockRise n - d - 1))
      exact iff_of_false (by simp [hhigh]) (by omega)

/-- That of one that starts it low: low up to the rising edge, and from the end of the period unless the transfer is over. -/
theorem sck_internal_low {s : State} {n d : Nat} (hn : sioPeriod s.serial.siock = n) (hn16 : 16 ≤ n)
    (hd : d = s.serial.divider.toNat % n) (ha : sioActive s = true) (hs : s.serial.sck = false) (hr : d < clockRise n)
    {k : Nat} (hk : k ≤ 16) :
    (clocks internalClock k s).serial.sck = false ↔ d + k < clockRise n ∨ (n ≤ d + k ∧ s.serial.cnt ≠ 7) := by
  obtain ⟨-, hrn, -⟩ := clockRise_bounds hn16
  obtain ⟨hhigh, -, -, -, -, hts, -⟩ := sioRising_clock s (siLevel s (clockRise n - d - 1))
  have hover : (sioRising s (siLevel s (clockRise n - d - 1))).serial.siots = false ↔ s.serial.cnt = 7 := by
    rw [hts, ((sioActive_iff s).mp ha).2]
    simp
  rw [clocks_internal_low hn hn16 hd ha hs hr hk rfl]
  split
  · next hbefore => exact iff_of_true hs (.inl hbefore)
  · split
    · next hstays =>
      rw [hover] at hstays
      exact iff_of_false (by simp [hhigh]) (by omega)
    · next hfalls =>
      rw [hover] at hfalls
      exact iff_of_true rfl (.inr (by omega))

/-- A drive that is low where the clock is low. -/
theorem drive_of_level {b : Bool} {p : Prop} [Decidable p] (h : b = false ↔ p) :
    (if b then PinDrive.released else .low) = if p then .low else .released := by
  cases b
  · rw [if_pos (h.mp rfl)]
    rfl
  · rw [if_neg fun hp => nomatch h.mpr hp]
    rfl

/-- Settles O55: the reads by the bits of the multiplexers, the drives by the kind of pin, SCK by the system clocks of a
cycle. -/
theorem portReads : Obligations.PortReads := by
  refine ⟨fun s slot n podPin poePin hn hpod hpoe => ?reads, fun s n => ⟨rfl, rfl, rfl⟩, fun s => ?drives,
    ⟨clockRise, fun n hn => ?rise, fun s n d he ht hck hn hd => ?serialClock⟩⟩
  case reads =>
    obtain ⟨readE, readA, readB, readC, readD⟩ := dmRead_ports s slot
    obtain ⟨l0, l1, l2, l3⟩ := podFromLatch_bits s
    rw [← podPins_bit] at hpod
    rw [← poePins_bit] at hpoe
    rw [readE, readA, readB, readC, readD, hpod, hpoe]
    refine ⟨readPoa_bit s n, readPob_bit s n, readPoc_output s slot, readPoc_input s slot, fun hport => ⟨?_, ?_⟩,
      fun he => ⟨?_, ?_, ?_, ?_⟩, ?_, readPoe_high s, ?_, ?_⟩
    · exact fun hout hu => readPod_latch slot (soDriven_port hport) hu ((podFromLatch_port hport).trans hout)
    · exact fun hin => readPod_pin slot (soDriven_port hport) ((podFromLatch_port hport).trans hin)
    · rintro rfl hck
      exact readPod_latch slot (.inl (by decide)) (.inl (by decide)) (by rw [l0, if_pos he, bne_iff_ne]; exact hck)
    · rintro rfl hck
      exact readPod_pin slot (.inl (by decide)) (by rw [l0, if_pos he, hck]; rfl)
    · rintro rfl hz
      exact readPod_pin slot (.inr (soDriven_eq_false (.inr hz))) (by rw [l1, he]; rfl)
    · rintro rfl
      exact readPod_pin slot (.inl (by decide)) (by rw [l2, he]; rfl)
    · rintro hsel rfl
      exact readPod_latch slot (.inl (by decide)) (.inl (by decide)) (by rw [l3, hsel, Bool.true_or])
    · rintro h2 ⟨rfl, hcmp, hvref⟩
      rw [readPoe_bit s h2, (poe1IsVref_iff s).mpr ⟨hcmp, hvref⟩]
      simp
    · intro h2 hport
      have hnot : (decide (n = 1) && poe1IsVref s) = false := by
        rw [Bool.eq_false_iff, Ne, Bool.and_eq_true, decide_eq_true_iff, poe1IsVref_iff]
        exact hport
      rw [readPoe_bit s h2, hnot, Bool.not_false, Bool.and_true]
      cases s.ports.poebio.getLsbD n && !s.ports.poeL.getLsbD n <;> simp
  case drives =>
    refine ⟨fun he => ⟨fun k => ?_, fun hu => ?_, fun hin => ?_, ?_⟩, fun he => ⟨?_, ?_, pod0Drive_released he⟩, ?_,
      fun n => ?_⟩
    · rw [pod0Drive, if_neg (by simp [he]), openDrainDrive_eq]
    · rw [pod1Drive, if_neg (by simp [he]), openDrainDrive_eq, podPortLatch_bit s (.inr hu)]
    · rw [pod1Drive, if_neg (by simp [he]), openDrainDrive_eq, if_neg fun hc => Bool.false_ne_true (hin.symm.trans hc.1)]
    · rw [pod2Drive, if_neg (by simp [he]), openDrainDrive_eq]
    · rw [pod1Drive, if_pos he, openDrainDrive_eq]
      simp only [Bool.not_eq_true']
    · rw [pod2Drive, if_pos he]
    · rw [pod3Drive, openDrainDrive_eq, openDrainDrive_eq]
      cases s.timer.tmoutFf <;> rfl
    · rw [poeDrive, openDrainDrive_eq, poeLow_bit]
      refine if_congr ?_ rfl rfl
      rw [← poe1IsVref_iff]
      simp [and_assoc, imp_iff_not_or]
  case rise =>
    obtain ⟨h1, h2, h3⟩ := clockRise_bounds hn
    exact ⟨h3, h1, h2⟩
  case serialClock =>
    have hperiod : sioPeriod s.serial.siock = n := (sioPeriod_eq hck).trans hn.symm
    have hcases := sioPeriod_cases hck
    have hn16 : 16 ≤ n := by omega
    have hactive := sioActive_of he ht
    refine ⟨fun hm k => ⟨pod0Drive_running he ht hck hm k, fun hs => ?_, fun hs hr => ?_⟩,
      fun hm k => pod0Drive_still he ht hck hm k⟩
    · rw [pod0Drive_running he ht hck hm k]
      exact drive_of_level (sck_internal_high hperiod hn16 hd hactive hs k.isLt)
    · rw [pod0Drive_running he ht hck hm k]
      exact drive_of_level (sck_internal_low hperiod hn16 hd hactive hs hr k.isLt)

end Sys2Proof.Machine
end

section
/-! The resets from outside and the wait up to the first instruction (70_reset_and_hazards.md R460 to R466), and the values
right after reset (10_state.md R67). -/

namespace Sys2Proof.Machine

/-! ### When a reset is applied -/

theorem isProm_iff (p : Part) : isProm p = true ↔ p = .u17P132 ∨ p = .u17P133 := by
  cases p <;> simp [isProm]

theorem resetRequest_inactive {s : State} (h : s.env.reset = .inactive) : resetRequest s = none := by
  rw [resetRequest, h]

theorem resetRequest_supplyLost {s : State} (h : s.env.reset = .supplyLost) : resetRequest s = some .powerOn := by
  rw [resetRequest, h]

theorem resetRequest_resetLow {s : State} (h : s.env.reset = .resetLow) :
    resetRequest s = if resetPinLow s then some .resetPin else none := by
  rw [resetRequest, h]

/-- A RESET pin that nothing drives is high through the pull-up of a mask ROM part, and in no other case. -/
theorem resetPinLow_iff (s : State) :
    resetPinLow s = true ↔
      ¬(s.env.resetOpen = true ∧ s.mask.resetPin = true ∧ s.part ≠ .u17P132 ∧ s.part ≠ .u17P133) := by
  rw [← not_or, ← isProm_iff]
  simp [resetPinLow, imp_iff_not_or, or_assoc]

/-! ### What a reset sets and keeps -/

/-- What every reset from outside sets, whatever it keeps (R461, R462). -/
theorem applyReset_sets (kind : ResetKind) (s : State) {u : State} (hu : u = applyReset kind s) :
    u.pc = 0 ∧ u.sp = 5 ∧ u.ar = 0 ∧ u.mpe = false ∧ u.ix = 0 ∧ u.rp = 0 ∧ u.psw = .clear ∧ u.inte = false ∧
    u.skip = false ∧ u.eiHold = false ∧ u.irqStale = none ∧ u.pdresen = false ∧ u.ports = State.reset.ports ∧
    u.timer = { State.reset.timer with presc := u.timer.presc } ∧
    u.serial = { State.reset.serial with sfr := u.serial.sfr, divider := u.serial.divider, sck := u.serial.sck } ∧
    u.comparator = State.reset.comparator ∧
    u.interrupts = { State.reset.interrupts with intPrev := s.env.int } ∧ u.mode = .resetWait kind 4096 := by
  subst hu
  unfold applyReset
  dsimp only
  split <;>
    exact ⟨rfl, rfl, rfl, rfl, rfl, rfl, rfl, rfl, rfl, rfl, rfl, rfl, rfl, rfl, rfl, rfl, rfl, rfl⟩

/-- The columns that keep data: a power-down reset, and a RESET input in a standby mode. -/
theorem losesData_eq_false {kind : ResetKind} {s : State}
    (h : kind = .powerDown ∨ (kind = .resetPin ∧ ((∃ v, s.mode = .halt v) ∨ ∃ v, s.mode = .stop v))) :
    losesData kind s = false := by
  rcases h with rfl | ⟨rfl, ⟨v, hm⟩ | ⟨v, hm⟩⟩
  · rfl
  · rw [losesData, inStandby, hm]
    rfl
  · rw [losesData, inStandby, hm]
    rfl

/-- An undefined data buffer leaves the rest of data memory alone. -/
theorem cellsRead_freeDbf (s : State) {a : Nat} (h : a < 12 ∨ 15 < a) :
    cellsRead (freeDbf s) a = cellsRead s.ram a := by
  rw [freeDbf, cellsRead_write_other _ _ (by omega), cellsRead_write_other _ _ (by omega),
    cellsRead_write_other _ _ (by omega), cellsRead_write_other _ _ (by omega)]

/-- What a reset that keeps data keeps: WR, SIOSFR and data memory other than DBF. -/
theorem applyReset_keeps {kind : ResetKind} {s : State} (h : losesData kind s = false) :
    (applyReset kind s).wr = s.wr ∧ (applyReset kind s).serial.sfr = s.serial.sfr ∧
      ∀ a, (a < 12 ∨ 15 < a) → cellsRead (applyReset kind s).ram a = cellsRead s.ram a := by
  rw [applyReset, h]
  exact ⟨rfl, rfl, fun a ha => cellsRead_freeDbf s ha⟩

/-! ### The wait -/

/-- The state some cycles after a reset left `u`: the wait counts down, and the program's state, the requests and the timer
but for its prescaler are those that the reset left. -/
structure WaitedFor (kind : ResetKind) (u : State) (k : Nat) (r : State) : Prop where
  mode : r.mode = if k < 4096 then .resetWait kind (4096 - k) else .run
  program : programView r = programView u
  interrupts : r.interrupts = u.interrupts
  timer : r.timer = { u.timer with presc := r.timer.presc }

/-- The cycle of the reset itself takes the next inputs and nothing of the wait. -/
theorem waitedFor_zero {kind : ResetKind} {u : State} (hm : u.mode = .resetWait kind 4096) :
    WaitedFor kind u 0 (tick (nextInputs u)) := by
  have hcpu : cpuView (tick (nextInputs u)) = cpuView u := by simp
  obtain ⟨htimer, hinterrupts⟩ := nextInputs_keeps u
  refine ⟨(congrArg Prod.snd hcpu).trans hm, congrArg Prod.fst hcpu, hinterrupts, ?_⟩
  rw [tick_timer, htimer]

/-- Each cycle of the wait is one of its 4096. -/
theorem WaitedFor.next {kind : ResetKind} {u r r' : State} {k : Nat} (h : WaitedFor kind u k r) (hk : k < 4096)
    (hr : resetRequest r = none) (hstep : step r = .next r') : WaitedFor kind u (k + 1) r' := by
  have hm : r.mode = .resetWait kind (4096 - k) := h.mode.trans (if_pos hk)
  rw [step_resetWait hm hr] at hstep
  cases hstep
  obtain ⟨hmode, hinterrupts, htimer⟩ := resetWaitCycle_effect kind (4096 - k) r
  refine ⟨hmode.trans ?_, (sameProgramState_iff.mp (resetWaitCycle_same kind _ r)).trans h.program,
    hinterrupts.trans h.interrupts, ?_⟩
  · by_cases hlast : k + 1 < 4096
    · rw [if_neg (by omega), if_pos hlast, Nat.sub_sub]
    · rw [if_pos (by omega), if_neg hlast]
  · rw [htimer, h.timer]

/-- The whole wait, by induction on its cycles. -/
theorem waitedFor_run {kind : ResetKind} {u : State} {run : Nat → State} (hm : u.mode = .resetWait kind 4096)
    (h0 : run 0 = tick (nextInputs u))
    (hrun : ∀ k < 4096, resetRequest (run k) = none ∧ step (run k) = .next (run (k + 1))) {k : Nat} (hk : k ≤ 4096) :
    WaitedFor kind u k (run k) := by
  induction k with
  | zero =>
    rw [h0]
    exact waitedFor_zero hm
  | succ k ih =>
    obtain ⟨hr, hstep⟩ := hrun k (by omega)
    exact (ih (by omega)).next (by omega) hr hstep

/-- Settles O57: the request by the reset line, the column by what `applyReset` sets and keeps, the wait by induction on its
cycles. -/
theorem externalReset : Obligations.ExternalReset := by
  refine ⟨fun s => ⟨resetRequest_inactive, fun h => ?resetLow, fun h => ?supplyLow, resetRequest_supplyLost⟩,
    fun s kind left hm hr => ⟨_, step_resetWait hm hr, resetWaitCycle_effect kind left s⟩,
    fun s kind hr => ⟨fun hm => ?applies, fun hm => ?holds⟩⟩
  case resetLow =>
    rw [resetRequest_resetLow h]
    exact (if_congr (resetPinLow_iff s) rfl rfl).trans (ite_not ..)
  case supplyLow =>
    rw [resetRequest_supplyLow h]
    refine if_congr ?_ rfl rfl
    rw [Bool.or_eq_true, resetHolds_iff]
    rfl
  case applies =>
    obtain ⟨pc, sp, ar, mpe, ix, rp, psw, inte, skip, eiHold, irqStale, pdresen, ports, timer, serial, comparator,
      interrupts, mode⟩ := applyReset_sets kind s rfl
    refine ⟨_, applyReset kind s, step_reset hr, ?_, pc, sp, ar, mpe, ix, rp, psw, inte, skip, eiHold, irqStale, pdresen,
      ports, timer, serial, comparator, interrupts, mode, fun h => applyReset_keeps (losesData_eq_false h),
      fun run h0 hrun => ?_⟩
    · rw [resetCycle, takeReset_apply hm]
    · rw [resetCycle, takeReset_apply hm] at h0
      have hwait {k : Nat} (hk : k ≤ 4096) := waitedFor_run mode h0 hrun hk
      have hend := hwait (Nat.le_refl 4096)
      have hsame := sameProgramState_iff.mpr hend.program
      have hinterrupts := hend.interrupts.trans interrupts
      have htimer : (run 4096).timer = { State.reset.timer with presc := (run 4096).timer.presc } := by
        rw [hend.timer, timer]
      refine ⟨fun k hk => ?_, hend.mode, hsame, hinterrupts, htimer, hsame.pc.trans pc, ?_, ?_, ?_, ?_, ?_⟩
      · rw [(hwait (Nat.le_of_lt hk)).mode, if_pos hk]
        nofun
      · rw [htimer]
        rfl
      · rw [htimer]
        rfl
      · rw [hinterrupts]
        rfl
      · rw [hinterrupts]
        rfl
      · rw [hinterrupts]
        rfl
  case holds => rw [step_reset hr, resetCycle, takeReset_hold hm]

/-- Settles O56: each value by evaluating the reset state. -/
theorem resetState : Obligations.ResetState := by
  unfold Obligations.ResetState
  decide

end Sys2Proof.Machine
end
